-- ==== Sys2Proof/Word.lean ====
section
/-! DEFINITION. The word types of the block: what the spec treats as bits (00_scope.md R7, R8, R9). -/

namespace Sys2Proof

/-- The most bits that a build's `WORD` can have: the two 32-bit halves of R67 and R69 hold no more. It is the width of
this hardware's operand registers, key fields and ciphertext elements (R7). -/
abbrev maxWord : Nat := 64

/-- The most operand registers a build can have: as many as a four-bit register field names (R102). -/
abbrev maxRegs : Nat := 16

/-- The most bits that a build's `SHA_WORD` can have: the Host reads a state word as one bus word (R33). It is the width
of this hardware's SHA-256 state words (R7). -/
abbrev maxShaWord : Nat := 32

/-- One byte of a buffer (R34). -/
abbrev Byte := BitVec 8

/-- Room for an operand register or a ciphertext entry (R20, R35); a build with a smaller `WORD` uses the low `WORD`
bits (log 9). -/
abbrev Word := BitVec maxWord

/-- A bus word or a command word, 32 bits (R60, R100). -/
abbrev Word32 := BitVec 32

/-- Room for a SHA-256 state word (R33); a build with a smaller `SHA_WORD` uses the low `SHA_WORD` bits (log 9). -/
abbrev ShaWord := BitVec maxShaWord

/-- `tc_64(v)`: the 64-bit two's-complement pattern of an integer, `v mod 2^64` (R9). -/
abbrev tc64 (v : Int) : Word := BitVec.ofInt maxWord v

end Sys2Proof
end

