-- ==== Sys2Proof/Config.lean ====
section
/-! DEFINITION. The parameters of a build and their values in this hardware (00_scope.md R7), the map's base
offsets (20_memory.md R63), the SHA-256 initial value, and the values the spec leaves open. -/

namespace Sys2Proof.Config

/-- The parameters of a build of the block (R7), every one an argument of the model; `LATENCY` and `BUS_PROTOCOL` are
log 1 and log 9. -/
structure Params where
  /-- `WORD`, the width of an operand register, of a key field and of a ciphertext element. -/
  word : Nat
  /-- `PROD`, the width of the internal product before reduction (R130). -/
  prod : Nat
  /-- `NREG`, the number of operand registers (R20). -/
  nreg : Nat
  /-- `SHA_WORD`, the width of a SHA-256 state word. -/
  shaWord : Nat
  /-- `TXT_SIZE`, the size of the text buffer in bytes. -/
  txtSize : Nat
  /-- `CT_SIZE`, the number of 64-bit entries of the ciphertext buffer. -/
  ctSize : Nat
  /-- `ID_VALUE`, what the ID register reads (R29). -/
  idValue : Word32
  deriving DecidableEq, Repr

/-- The builds the rules can describe (log 9). `TXT_SIZE` is a multiple of 64 from 64 to 4096 and `CT_SIZE` is from 1
to 1024 (R7). `PROD` bits hold a square without loss (R7, R130). A four-bit field names every register (R102). Two
halves of 32 bits hold a value of `WORD` bits (R67, R69), which has a sign bit and one more for EGCD's coefficients
(R134). One bus word holds a SHA-256 state word (R33), which is wider than R203's rotations by up to 25 places. -/
def Params.legal (p : Params) : Bool :=
  p.txtSize % 64 == 0 && decide (64 ≤ p.txtSize ∧ p.txtSize ≤ 4096) && decide (1 ≤ p.ctSize ∧ p.ctSize ≤ 1024) &&
    decide (1 ≤ p.nreg ∧ p.nreg ≤ maxRegs) && decide (2 * p.word ≤ p.prod) && decide (2 ≤ p.word ∧ p.word ≤ maxWord) &&
    decide (25 < p.shaWord ∧ p.shaWord ≤ maxShaWord)

/-- The values of this hardware, R7's defaults. -/
def hardware : Params where
  word := 64
  prod := 128
  nreg := 16
  shaWord := 32
  txtSize := 1024
  ctSize := 1024
  idValue := 0x43430001#32

/-- The aperture offset of TXT byte 0 (R63). -/
def txtBase : Nat := 0x1000

/-- The aperture offset of `CT[0]` (R63). -/
def ctBase : Nat := 0x2000

/-- The SHA-256 initial value, which SHAINIT loads and reset leaves in `H[0..7]` (R201). -/
def sha256IV : Vector ShaWord 8 :=
  #v[0x6a09e667#32, 0xbb67ae85#32, 0x3c6ef372#32, 0xa54ff53a#32,
     0x510e527f#32, 0x9b05688c#32, 0x1f83d9ab#32, 0x5be0cd19#32]

/-- FREE VALUE: the byte that reset number `draws` leaves at a buffer's aperture offset. The spec makes each byte
of TXT and each entry of CT a free draw at each reset (R38, R304; log 2), so nothing here can say what it is. -/
opaque drawByte : (draws : Nat) → (offset : Nat) → Byte

/-- `BASE_ADDR`, the bus address of the block's offset 0: OPEN (R7, R61; log 9). -/
opaque baseAddr : Nat

/-- `RETRY_CAP`, the Host's resampling budget: OPEN (R7, R245; log 9). -/
opaque retryCap : Nat

/-- The Host's own parameters (R7). -/
structure HostParams where
  /-- `BASE_ADDR`. -/
  baseAddr : Nat
  /-- `PRIME_LO`, the first number of the prime range. -/
  primeLo : Nat
  /-- `PRIME_HI`, the first number above the prime range. -/
  primeHi : Nat
  /-- `RETRY_CAP`, the attempts of each resampling loop. -/
  retryCap : Nat
  deriving DecidableEq, Repr

/-- With primes of at most half of `WORD`'s bits, 32 in this hardware, the modulus `p*q` fits an operand register
(R244). -/
def HostParams.legal (h : HostParams) (p : Params) : Bool := decide (h.primeHi ≤ 2 ^ (p.word / 2))

/-- The values of this hardware's Host, R7's defaults where it gives one. -/
def host : HostParams where
  baseAddr := Config.baseAddr
  primeLo := 10
  primeHi := 100
  retryCap := Config.retryCap

end Sys2Proof.Config
end

