-- ==== Sys2Proof/Syntax.lean ====
section
/-! DEFINITION. The ten commands (30_encoding.md R103), one constructor per row of the opcode table. -/

namespace Sys2Proof

/-- A register field: an unsigned 4-bit number naming an operand register (R102). Which numbers name one is `NREG`
(WellFormed.lean). -/
abbrev Reg := Fin maxRegs

/-- A command, its fields in the order of the assembler (R107). -/
inductive Instr where
  /-- `x[rd] <- gcd(x[rs1], x[rs2])` (R131). -/
  | gcd (rd rs1 rs2 : Reg)
  /-- `x[rd], x[rd+1], x[rd+2] <- egcd(x[rs1], x[rs2])` (R133); legal if `rd+2` is a register. -/
  | egcd (rd rs1 rs2 : Reg)
  /-- `x[rd] <- x[rs1]^-1 mod x[rs2]` (R135). -/
  | modinv (rd rs1 rs2 : Reg)
  /-- `x[rd] <- x[rs1] * x[rs2] mod x[rs3]` (R137). -/
  | modmul (rd rs1 rs2 rs3 : Reg)
  /-- `x[rd] <- x[rs1] ^ x[rs2] mod x[rs3]` (R139). -/
  | modexp (rd rs1 rs2 rs3 : Reg)
  /-- `x[rd] <- 1` if `x[rs1]` is prime, else `0` (R171). -/
  | isprime (rd rs1 : Reg)
  /-- Encrypt `TXT[0..x[rs3]-1]` into CT under the key `x[rs1], x[rs2]` (R182). -/
  | enc (rs1 rs2 rs3 : Reg)
  /-- Decrypt `CT[0..x[rs3]-1]` into TXT under the key `x[rs1], x[rs2]` (R184). -/
  | dec (rs1 rs2 rs3 : Reg)
  /-- Load the SHA-256 initial value (R211). -/
  | shainit
  /-- Compress the 64-byte block of TXT at byte offset `x[rs1]` (R212). -/
  | shablk (rs1 : Reg)
  deriving DecidableEq, Repr

end Sys2Proof
end

