-- ==== Sys2Proof/WellFormed.lean ====
section
/-! DEFINITION. Which commands are legal beyond what their fields' types say (30_encoding.md R103, R104). -/

namespace Sys2Proof

/-- The operand registers a command reads or writes, by number (R21); EGCD's destinations are `rd`, `rd+1` and `rd+2`
(R133). -/
def Instr.registers : Instr → List Nat
  | .egcd rd rs1 rs2 => [rd.val, rd.val + 1, rd.val + 2, rs1.val, rs2.val]
  | .gcd rd rs1 rs2 | .modinv rd rs1 rs2 => [rd.val, rs1.val, rs2.val]
  | .modmul rd rs1 rs2 rs3 | .modexp rd rs1 rs2 rs3 => [rd.val, rs1.val, rs2.val, rs3.val]
  | .isprime rd rs1 => [rd.val, rs1.val]
  | .enc rs1 rs2 rs3 | .dec rs1 rs2 rs3 => [rs1.val, rs2.val, rs3.val]
  | .shainit => []
  | .shablk rs1 => [rs1.val]

/-- A command is well formed, so that some legal word stands for it, when the build has every register the command
reads or writes. With `NREG` = 16 this is the one rule `rd <= 13` of EGCD (R103, R133); fewer registers make more words
illegal (D3; log 9). -/
def Instr.wf (nreg : Nat) (i : Instr) : Bool := i.registers.all fun r => decide (r < nreg)

end Sys2Proof
end

