-- ==== Sys2Proof/Decode.lean ====
section
/-! DEFINITION. The command word: its fields (30_encoding.md R101), the opcode table (R103), the decoder, total over
all words (R105), and the assembler (R107). -/

namespace Sys2Proof

/-- `op = w[7:0]` (R101). -/
def opField (w : Word32) : BitVec 8 := w.extractLsb' 0 8

/-- `rd = w[11:8]` (R101). -/
def rdField (w : Word32) : Reg := (w.extractLsb' 8 4).toFin

/-- `rs1 = w[15:12]` (R101). -/
def rs1Field (w : Word32) : Reg := (w.extractLsb' 12 4).toFin

/-- `rs2 = w[19:16]` (R101). -/
def rs2Field (w : Word32) : Reg := (w.extractLsb' 16 4).toFin

/-- `rs3 = w[23:20]` (R101). -/
def rs3Field (w : Word32) : Reg := (w.extractLsb' 20 4).toFin

/-- `resv = w[31:24]` (R101). -/
def resvField (w : Word32) : BitVec 8 := w.extractLsb' 24 8

/-- `w = resv ‖ rs3 ‖ rs2 ‖ rs1 ‖ rd ‖ op` (R101). -/
def packWord (resv : BitVec 8) (rs3 rs2 rs1 rd : Reg) (op : BitVec 8) : Word32 :=
  resv ++ (BitVec.ofFin rs3 : BitVec 4) ++ (BitVec.ofFin rs2 : BitVec 4) ++ (BitVec.ofFin rs1 : BitVec 4) ++
    (BitVec.ofFin rd : BitVec 4) ++ op

/-- The rows of the opcode table, by name (R103). -/
inductive Mnemonic where
  | GCD | EGCD | MODINV | MODMUL | MODEXP | ISPRIME | ENC | DEC | SHAINIT | SHABLK
  deriving DecidableEq, Repr

/-- The rows in the table's order (R103). -/
def Mnemonic.all : List Mnemonic :=
  [.GCD, .EGCD, .MODINV, .MODMUL, .MODEXP, .ISPRIME, .ENC, .DEC, .SHAINIT, .SHABLK]

/-- The column "op" of R103. -/
def Mnemonic.opcode : Mnemonic → BitVec 8
  | .GCD => 0x01#8
  | .EGCD => 0x02#8
  | .MODINV => 0x03#8
  | .MODMUL => 0x04#8
  | .MODEXP => 0x05#8
  | .ISPRIME => 0x06#8
  | .ENC => 0x10#8
  | .DEC => 0x11#8
  | .SHAINIT => 0x20#8
  | .SHABLK => 0x21#8

/-- The column "mask" of R103. -/
def Mnemonic.mask : Mnemonic → Word32
  | .GCD => 0xFFF000FF#32
  | .EGCD => 0xFFF000FF#32
  | .MODINV => 0xFFF000FF#32
  | .MODMUL => 0xFF0000FF#32
  | .MODEXP => 0xFF0000FF#32
  | .ISPRIME => 0xFFFF00FF#32
  | .ENC => 0xFF000FFF#32
  | .DEC => 0xFF000FFF#32
  | .SHAINIT => 0xFFFFFFFF#32
  | .SHABLK => 0xFFFF0FFF#32

/-- The column "match" of R103. -/
def Mnemonic.pattern : Mnemonic → Word32
  | .GCD => 0x00000001#32
  | .EGCD => 0x00000002#32
  | .MODINV => 0x00000003#32
  | .MODMUL => 0x00000004#32
  | .MODEXP => 0x00000005#32
  | .ISPRIME => 0x00000006#32
  | .ENC => 0x00000010#32
  | .DEC => 0x00000011#32
  | .SHAINIT => 0x00000020#32
  | .SHABLK => 0x00000021#32

/-- `(w & mask) == match` (R105). -/
def Mnemonic.matchesWord (m : Mnemonic) (w : Word32) : Bool := (w &&& m.mask) == m.pattern

/-- The command of a row with the fields of R101 that the row uses (R103). -/
def Mnemonic.instr (m : Mnemonic) (w : Word32) : Instr :=
  match m with
  | .GCD => .gcd (rdField w) (rs1Field w) (rs2Field w)
  | .EGCD => .egcd (rdField w) (rs1Field w) (rs2Field w)
  | .MODINV => .modinv (rdField w) (rs1Field w) (rs2Field w)
  | .MODMUL => .modmul (rdField w) (rs1Field w) (rs2Field w) (rs3Field w)
  | .MODEXP => .modexp (rdField w) (rs1Field w) (rs2Field w) (rs3Field w)
  | .ISPRIME => .isprime (rdField w) (rs1Field w)
  | .ENC => .enc (rs1Field w) (rs2Field w) (rs3Field w)
  | .DEC => .dec (rs1Field w) (rs2Field w) (rs3Field w)
  | .SHAINIT => .shainit
  | .SHABLK => .shablk (rs1Field w)

/-- Why a word is illegal: the ways of R104. Whatever the reason, execution completes with E_ILLEGAL. -/
inductive Illegal where
  /-- The opcode has no row. -/
  | unassignedOpcode
  /-- The opcode has a row, and `resv` or a field the row does not use is nonzero. -/
  | nonzeroUnusedField
  /-- The command needs a register that the build lacks: EGCD with `rd` = 14 or 15 when `NREG` = 16 (R104), and more
  words when `NREG` is less (D3; log 9). -/
  | noSuchRegister
  deriving DecidableEq, Repr

/-- The decoder of R105 in a build with `NREG` registers, with a name for each rejection. -/
def decode (nreg : Nat) (w : Word32) : Except Illegal Instr :=
  match Mnemonic.all.find? (·.matchesWord w) with
  | none => .error (if Mnemonic.all.any (·.opcode == opField w) then .nonzeroUnusedField else .unassignedOpcode)
  | some m => if (m.instr w).wf nreg then .ok (m.instr w) else .error .noSuchRegister

/-- The row a command belongs to. -/
def Instr.row : Instr → Mnemonic
  | .gcd _ _ _ => .GCD
  | .egcd _ _ _ => .EGCD
  | .modinv _ _ _ => .MODINV
  | .modmul _ _ _ _ => .MODMUL
  | .modexp _ _ _ _ => .MODEXP
  | .isprime _ _ => .ISPRIME
  | .enc _ _ _ => .ENC
  | .dec _ _ _ => .DEC
  | .shainit => .SHAINIT
  | .shablk _ => .SHABLK

/-- Assembling sets the listed fields and the opcode, and every other bit to 0 (R107). -/
def encode : Instr → Word32
  | .gcd rd rs1 rs2 => packWord 0 0 rs2 rs1 rd Mnemonic.GCD.opcode
  | .egcd rd rs1 rs2 => packWord 0 0 rs2 rs1 rd Mnemonic.EGCD.opcode
  | .modinv rd rs1 rs2 => packWord 0 0 rs2 rs1 rd Mnemonic.MODINV.opcode
  | .modmul rd rs1 rs2 rs3 => packWord 0 rs3 rs2 rs1 rd Mnemonic.MODMUL.opcode
  | .modexp rd rs1 rs2 rs3 => packWord 0 rs3 rs2 rs1 rd Mnemonic.MODEXP.opcode
  | .isprime rd rs1 => packWord 0 0 0 rs1 rd Mnemonic.ISPRIME.opcode
  | .enc rs1 rs2 rs3 => packWord 0 rs3 rs2 rs1 0 Mnemonic.ENC.opcode
  | .dec rs1 rs2 rs3 => packWord 0 rs3 rs2 rs1 0 Mnemonic.DEC.opcode
  | .shainit => packWord 0 0 0 0 0 Mnemonic.SHAINIT.opcode
  | .shablk rs1 => packWord 0 0 0 rs1 0 Mnemonic.SHABLK.opcode

/-- The command word of an opcode-table word `w` of `nbits` bits: the bits above `nbits` are 0. -/
def tableWord (nbits w : Nat) : Word32 := BitVec.ofNat 32 (w % 2 ^ nbits)

/-- The instruction this hardware's decoder reads from a word numbered as the opcode table numbers it. A command is one
32-bit bus word, so the table's bit `i` is the word's bit `i` (R100, R101). -/
def decodeTableWord (nbits w : Nat) : Option Instr :=
  match decode Config.hardware.nreg (tableWord nbits w) with
  | .ok i => some i
  | .error _ => none

end Sys2Proof
end

