-- ==== Sys2Proof/Machine/Width.lean ====
section
/-! DEFINITION. The widths of a build: a value of `n` bits, kept in a place that may have more (00_scope.md R7; log
9). -/

namespace Sys2Proof

/-- Bits `n-1` to 0 of a value; every higher bit is 0. -/
def lowBits {w : Nat} (n : Nat) (v : BitVec w) : BitVec w := BitVec.ofNat w (v.toNat % 2 ^ n)

end Sys2Proof

namespace Sys2Proof.Machine

/-- Eight SHA-256 state words of `n` bits each. -/
def fitHash (n : Nat) (H : Vector ShaWord 8) : Vector ShaWord 8 :=
  #v[lowBits n H[0], lowBits n H[1], lowBits n H[2], lowBits n H[3], lowBits n H[4], lowBits n H[5], lowBits n H[6],
    lowBits n H[7]]

/-- The SHA-256 initial value in words of `SHA_WORD` = `n` bits (R201). -/
def initialHash (n : Nat) : Vector ShaWord 8 := fitHash n Config.sha256IV

end Sys2Proof.Machine
end

