-- ==== Sys2Proof/Machine/State.lean ====
section
/-! DEFINITION. The state of the block (10_state.md), its ports (20_memory.md R60), the order of what is still to come
(R75), the reset state (R38), and the reasons a step can stop. -/

namespace Sys2Proof.Machine

/-- The error codes of R260. Codes 6 to 15 are "never produced", and 93_implementation_defined.md lets a model reject a
state that holds one (log 12). -/
inductive ErrCode where
  /-- 0, success. -/
  | ok
  /-- 1, E_ILLEGAL: an illegal command word. -/
  | illegal
  /-- 2, E_BOUNDS: a length or offset outside the buffers. -/
  | bounds
  /-- 3, E_ZMOD: a zero modulus. -/
  | zmod
  /-- 4, E_RANGE: a byte code not below the modulus. -/
  | range
  /-- 5, E_NOTCOPRIME: no inverse exists. -/
  | notcoprime
  deriving DecidableEq, Repr

/-- One bus request (R60): a 14-bit byte offset, the write flag, the write data and the size in bytes. -/
structure Request where
  offset : BitVec 14
  write : Bool
  wdata : Word32
  size : Nat
  deriving DecidableEq, Repr

/-- The answer to one transaction (R60). -/
inductive Response where
  /-- A read was served: the read data. -/
  | data (v : Word32)
  /-- A write was answered without a bus error; the spec gives it no read data (log 5). -/
  | accepted
  /-- A bus error: read data 0, no state changed (R62, R64, R66, R265). -/
  | busError
  deriving DecidableEq, Repr

/-- What can happen next. R75 puts the transactions and completions into one total order, and R271 adds reset. -/
inductive Event where
  /-- The bus serves one transaction. -/
  | bus (r : Request)
  /-- The Engine's turn: a running command completes; an idle Engine has no step (R261). -/
  | engine
  /-- The reset pin takes this level (R300). -/
  | rst (level : Bool)
  deriving DecidableEq, Repr

/-- The two buffers as cells (aperture offset, byte), offsets strictly rising. An offset with no cell is one that
nothing has written since the latest reset (R304; log 2). -/
abbrev Memory := List Host.Cell

/-- The state of the block. -/
structure State where
  /-- The configuration argument of the model: the parameters of this build (R7). No step changes it (log 9). -/
  params : Config.Params
  /-- `R0` to `R15` (R20), each the low `WORD` bits of its place. A build with fewer registers has no way to name the
  others (R63, R104; log 9). -/
  regs : Vector Word maxRegs
  /-- `H0` to `H7` (R33), each the low `SHA_WORD` bits of its place (log 9). -/
  hash : Vector ShaWord 8
  /-- TXT (R34) and CT (R35) at their aperture offsets (R63). -/
  mem : Memory
  /-- The Engine's `busy` bit, also STATUS.BUSY (R23, R25). -/
  busy : Bool
  /-- The latch with the command word being executed (R23). -/
  cur : Word32
  /-- LASTCMD, the last accepted command word (R32). -/
  lastcmd : Word32
  /-- STATUS.DONE (R26). -/
  done : Bool
  /-- STATUS.TRUNC (R28). -/
  trunc : Bool
  /-- STATUS.ERRCODE (R27). -/
  errcode : ErrCode
  /-- ERRINFO (R31). -/
  errinfo : Word32
  /-- CTRL.IE (R30). -/
  ie : Bool
  /-- The level of the input `rst` (R60, R300). -/
  rst : Bool
  /-- The answer to the latest transaction since reset; none before the first (R60; log 5). -/
  resp : Option Response
  /-- The model's own: the number of resets so far, which the free draws are applied to (log 2). -/
  draws : Nat
  /-- The model's own: the total order of what is still to come (R75; log 1). -/
  events : List Event
  deriving DecidableEq, Repr

/-- Why the machine would stop. No rule of the spec stops the block: a command's error is a completion (R262), after
which the block is idle (R266), and a bus error is the answer to one transaction (R265). So there is no constructor
(log 7). -/
inductive Fault where
  deriving DecidableEq, Repr

/-- Why the model would give an instruction no meaning. -/
inductive Refusal where
  /-- Raised by `exec`'s arm for an instruction without a meaning. Safe: the model stops where the hardware goes on.
  No arm raises it: all ten commands have their meaning. -/
  | notModelled (mnemonic : String)
  deriving DecidableEq, Repr

/-- The machine right after reset (R38), for a build with these parameters, with the reset pin back at 0 (R300).
`draws` and `events` are the model's own fields (log 1, log 2). -/
def State.resetWith (p : Config.Params) : State where
  params := p
  regs := Vector.replicate maxRegs 0
  hash := initialHash p.shaWord
  mem := []
  busy := false
  cur := 0
  lastcmd := 0
  done := false
  trunc := false
  errcode := .ok
  errinfo := 0
  ie := false
  rst := false
  resp := none
  draws := 0
  events := []

/-- This hardware right after reset. -/
def State.reset : State := State.resetWith Config.hardware

end Sys2Proof.Machine
end

