-- ==== Sys2Proof/Machine/Flags.lean ====
section
/-! DEFINITION. The status and control registers as bus words (10_state.md R24 to R30), their writes (20_memory.md
R65) and the interrupt output (60_exceptions.md R270). -/

namespace Sys2Proof.Machine

/-- The column "code" of R260. -/
def ErrCode.code : ErrCode → BitVec 4
  | .ok => 0
  | .illegal => 1
  | .bounds => 2
  | .zmod => 3
  | .range => 4
  | .notcoprime => 5

/-- STATUS.ERR equals `(ERRCODE != 0)` (R27). -/
def State.err (s : State) : Bool := s.errcode.code != 0

/-- STATUS (R24): `0 ‖ ERRCODE ‖ 0 ‖ TRUNC ‖ ERR ‖ DONE ‖ BUSY`, reserved bits read 0. -/
def State.status (s : State) : Word32 :=
  0#20 ++ s.errcode.code ++ 0#4 ++ BitVec.ofBool s.trunc ++ BitVec.ofBool s.err ++ BitVec.ofBool s.done ++
    BitVec.ofBool s.busy

/-- CTRL (R30): IE in bit 0, reserved bits read 0. -/
def State.ctrl (s : State) : Word32 := 0#31 ++ BitVec.ofBool s.ie

/-- A write to CTRL sets IE and ignores the reserved bits (R30, R65). -/
def State.writeCtrl (s : State) (v : Word32) : State := { s with ie := v.getLsbD 0 }

/-- A write to STATUS clears DONE and TRUNC where the written bit is 1 and affects nothing else (R24, R65). -/
def State.writeStatus (s : State) (v : Word32) : State :=
  { s with done := s.done && !v.getLsbD 1, trunc := s.trunc && !v.getLsbD 3 }

/-- The output `irq`, the level `CTRL.IE & STATUS.DONE` (R37, R270), 0 while `rst` is 1 (R300). -/
def State.irq (s : State) : Bool := s.ie && s.done && !s.rst

end Sys2Proof.Machine
end

