-- ==== Sys2Proof/Machine/Operands.lean ====
section
/-! DEFINITION. Operand registers and their two bus halves (10_state.md R20, 20_memory.md R67), and the same split for
a ciphertext entry (R69). -/

namespace Sys2Proof

/-- `v[31:0]`, the half at the lower offset (R67, R69). -/
def lowHalf (v : Word) : Word32 := v.extractLsb' 0 32

/-- `v[63:32]`, the half at the higher offset (R67, R69). -/
def highHalf (v : Word) : Word32 := v.extractLsb' 32 32

/-- `hi ‖ lo` (R67). -/
def joinHalves (hi lo : Word32) : Word := hi ++ lo

end Sys2Proof

namespace Sys2Proof.Machine

/-- `x[i]`, a value of `WORD` bits (R7, R10, R20). -/
def State.x (s : State) (i : Reg) : Word := lowBits s.params.word s.regs[i]

/-- `x[i] <- v`, the low `WORD` bits of `v` (R7, R10, R20). -/
def State.setX (s : State) (i : Reg) (v : Word) : State := { s with regs := s.regs.set i (lowBits s.params.word v) }

/-- A bus write to `Ri.LO` leaves the other half unchanged (R67). -/
def State.setXLow (s : State) (i : Reg) (v : Word32) : State := s.setX i (joinHalves (highHalf (s.x i)) v)

/-- A bus write to `Ri.HI` leaves the other half unchanged (R67). -/
def State.setXHigh (s : State) (i : Reg) (v : Word32) : State := s.setX i (joinHalves v (lowHalf (s.x i)))

/-- The register `n` places above `rd`, EGCD's second and third destinations (R133); with `rd <= 13` and `n <= 2`
there is no wrap. -/
def regAbove (rd : Reg) (n : Nat) : Reg := Fin.ofNat maxRegs (rd.val + n)

end Sys2Proof.Machine
end

