-- ==== Sys2Proof/Machine/Ops.lean ====
section
/-! DEFINITION. The shared operations: the buffers (10_state.md R34, R35, R10), acceptance (20_memory.md R70),
completion with success or error (60_exceptions.md R261, R262), and reset (70_reset_and_hazards.md R300). -/

namespace Sys2Proof.Machine

/-! ### The buffers as one memory of cells -/

/-- What an offset with no cell holds: no value yet. Nothing has written it since reset, so what it reads as is a
free draw (R304; log 2). -/
def unwritten : Option Byte := none

/-- The cell at an offset. -/
def Memory.read : Memory → Nat → Option Byte
  | [], _ => unwritten
  | (k, b) :: m, a => if k = a then some b else Memory.read m a

/-- Write one byte, keeping the offsets strictly rising. -/
def Memory.write : Memory → Nat → Byte → Memory
  | [], a, b => [(a, b)]
  | (k, c) :: m, a, b =>
    if a < k then (a, b) :: (k, c) :: m
    else if a = k then (a, b) :: m
    else (k, c) :: Memory.write m a b

/-- How many bits a build has in the byte at a buffer's aperture offset: eight in TXT (R34), and in byte `j` of a
ciphertext entry those of the `WORD` bits from `8*j` on, eight if there are more (R7, R69; log 9). -/
def byteBits (p : Config.Params) (a : Nat) : Nat := if a < Config.ctBase then 8 else p.word - 8 * (a % 8)

/-- Write one byte of a buffer, as many of its bits as the build has. -/
def Memory.store (p : Config.Params) (m : Memory) (a : Nat) (b : Byte) : Memory := m.write a (lowBits (byteBits p a) b)

/-- Write the four bytes of a bus word, the least significant at the lowest offset (R68). -/
def Memory.writeWord (p : Config.Params) (m : Memory) (a : Nat) (v : Word32) : Memory :=
  (((m.store p a (v.extractLsb' 0 8)).store p (a + 1) (v.extractLsb' 8 8)).store p (a + 2) (v.extractLsb' 16 8)).store p
    (a + 3) (v.extractLsb' 24 8)

/-- Every cell before the offset `a`. -/
def Memory.above (a : Nat) : Memory → Bool
  | [] => true
  | (k, _) :: _ => decide (a < k)

/-- The canonical form: offsets strictly rising. A cell holds a byte and an offset without a cell holds no value, so no
cell equals what an unlisted offset holds, and equal contents are equal data (log 2). -/
def Memory.wf : Memory → Bool
  | [] => true
  | (k, _) :: m => Memory.above k m && Memory.wf m

/-- An aperture offset of the TXT window (R63). -/
def inTxt (p : Config.Params) (a : Nat) : Bool := decide (Config.txtBase ≤ a ∧ a < Config.txtBase + p.txtSize)

/-- An aperture offset of the CT window (R63). -/
def inCt (p : Config.Params) (a : Nat) : Bool := decide (Config.ctBase ≤ a ∧ a < Config.ctBase + 8 * p.ctSize)

/-- Every cell lies in one of the two buffers. -/
def Memory.inBuffers (p : Config.Params) (m : Memory) : Bool := m.all fun c => inTxt p c.1 || inCt p c.1

/-- No cell holds a bit that the build does not have (log 9). -/
def Memory.fits (p : Config.Params) (m : Memory) : Bool := m.all fun c => decide (c.2.toNat < 2 ^ byteBits p c.1)

/-- The byte a buffer holds at an aperture offset: what was last written there since reset, else the free draw of that
reset (R304). -/
def State.byteAt (s : State) (a : Nat) : Byte :=
  lowBits (byteBits s.params a) ((s.mem.read a).getD (Config.drawByte s.draws a))

/-- The bus word at an aperture offset of a buffer, the lowest byte in the least significant lane (R68). -/
def State.wordAt (s : State) (a : Nat) : Word32 :=
  s.byteAt (a + 3) ++ s.byteAt (a + 2) ++ s.byteAt (a + 1) ++ s.byteAt a

/-- The aperture offset of `TXT[k]` (R63). -/
def txtOffset (k : Nat) : Nat := Config.txtBase + k

/-- The aperture offset of `CT[k]` (R63). -/
def ctOffset (k : Nat) : Nat := Config.ctBase + 8 * k

/-- `TXT[k]` (R10, R34). -/
def State.txt (s : State) (k : Nat) : Byte := s.byteAt (txtOffset k)

/-- `CT[k]` (R10, R35), its low word at the lower offset (R69). -/
def State.ct (s : State) (k : Nat) : Word := joinHalves (s.wordAt (ctOffset k + 4)) (s.wordAt (ctOffset k))

/-- `TXT[k] <- b` (R10). -/
def Memory.setTxt (p : Config.Params) (m : Memory) (k : Nat) (b : Byte) : Memory := m.store p (txtOffset k) b

/-- `CT[k] <- v` (R10, R69). -/
def Memory.setCt (p : Config.Params) (m : Memory) (k : Nat) (v : Word) : Memory :=
  (m.writeWord p (ctOffset k) (lowHalf v)).writeWord p (ctOffset k + 4) (highHalf v)

/-! ### The SHA-256 state -/

/-- `H[0..7]`, words of `SHA_WORD` bits (R7, R10, R33). -/
def State.hashValue (s : State) : Vector ShaWord 8 := fitHash s.params.shaWord s.hash

/-! ### Acceptance, completion, error -/

/-- Acceptance of a command word (R70). DONE and TRUNC are unchanged. -/
def State.accept (s : State) (w : Word32) : State :=
  { s with busy := true, cur := w, lastcmd := w, errcode := .ok, errinfo := 0 }

/-- Completion: ERRCODE, ERRINFO, DONE and `busy` (R261). -/
def State.complete (s : State) (e : ErrCode) (info : Word32) : State :=
  { s with errcode := e, errinfo := info, done := true, busy := false }

/-- Success: the writes of the result stand in `s` already; ERRCODE and ERRINFO are 0 (R261). -/
def State.succeed (s : State) : State := s.complete .ok 0

/-- `raise E(info)`: an error completion, applied to the state before any write, so it is all or nothing (R10, R262).
There is no saved pc, no vector and no change of mode, and no return operation: the block is idle and takes the next
command (R262, R266). -/
def State.raise (s : State) (e : ErrCode) (info : Word32) : State := s.complete e info

/-- The answer to a transaction. -/
def State.respond (s : State) (r : Response) : State := { s with resp := some r }

/-! ### Reset -/

/-- `rst` goes to 1: every state element takes its value of R38, a running command is abandoned, and TXT and CT are
new draws (R300). The build, and what is still to come, are not the block's state. -/
def State.assertReset (s : State) : State :=
  { State.resetWith s.params with rst := true, draws := s.draws + 1, events := s.events }

/-- `rst` returns to 0: the block is idle and serves transactions (R300). -/
def State.releaseReset (s : State) : State := { s with rst := false }

/-- The reset pin takes a level. -/
def State.setRst (s : State) (level : Bool) : State := if level then s.assertReset else s.releaseReset

end Sys2Proof.Machine
end

