-- ==== Sys2Proof/Machine/Bus.lean ====
section
/-! DEFINITION. The bus port: the address map (20_memory.md R63), the accesses it refuses (R62, R64, R66), and what
each access reads or writes (R65, R67 to R70). -/

namespace Sys2Proof.Machine

/-- What an offset of the aperture names (R63). -/
inductive Target where
  | id | ctrl | status | cmd | errinfo
  /-- `Ri.LO` (R67). -/
  | regLow (i : Reg)
  /-- `Ri.HI` (R67). -/
  | regHigh (i : Reg)
  /-- `Hi` (R33). -/
  | hash (i : Fin 8)
  /-- The bus word of a buffer at an aperture offset: TXT bytes (R68) or one half of a CT entry (R69). -/
  | buffer (a : Nat)
  /-- No register there (R64). -/
  | reserved
  deriving DecidableEq, Repr

/-- The address map (R63), for an aligned offset. The offsets of registers that the build lacks are reserved (log 9). -/
def target (p : Config.Params) (a : Nat) : Target :=
  if a = 0x0000 then .id
  else if a = 0x0004 then .ctrl
  else if a = 0x0008 then .status
  else if a = 0x000C then .cmd
  else if a = 0x0010 then .errinfo
  else if 0x0100 ≤ a ∧ a < 0x0180 ∧ a < 0x0100 + 8 * p.nreg then
    if a % 8 = 0 then .regLow (Fin.ofNat maxRegs ((a - 0x0100) / 8)) else .regHigh (Fin.ofNat maxRegs ((a - 0x0100) / 8))
  else if 0x0180 ≤ a ∧ a < 0x01A0 then .hash (Fin.ofNat 8 ((a - 0x0180) / 4))
  else if inTxt p a || inCt p a then .buffer a
  else .reserved

/-- The data windows are `Ri`, `Hi`, TXT and CT (R63). -/
def Target.isDataWindow : Target → Bool
  | .regLow _ | .regHigh _ | .hash _ | .buffer _ => true
  | .id | .ctrl | .status | .cmd | .errinfo | .reserved => false

/-- While busy, a request to a data window and a write to CMD get a bus error (R66). -/
def Target.lockedWhileBusy (t : Target) (write : Bool) : Bool := t.isDataWindow || (t == .cmd && write)

/-- An access of 32 bits at an aligned offset (R62). -/
def Request.aligned (r : Request) : Bool := r.size == 4 && r.offset.toNat % 4 == 0

/-- The register or window a request names. -/
def Request.target (p : Config.Params) (r : Request) : Target := Sys2Proof.Machine.target p r.offset.toNat

/-- The requests that get a bus error: while `rst` is 1 (R300), any other size or alignment (R62), a reserved offset
(R64), and the busy lockout (R66). -/
def State.refuses (s : State) (r : Request) : Bool :=
  s.rst || !r.aligned || r.target s.params == .reserved || (s.busy && (r.target s.params).lockedWhileBusy r.write)

/-- The word a read returns. No read has a side effect (R72). -/
def State.busRead (s : State) : Target → Word32
  | .id => s.params.idValue
  | .ctrl => s.ctrl
  | .status => s.status
  | .cmd => s.lastcmd
  | .errinfo => s.errinfo
  | .regLow i => lowHalf (s.x i)
  | .regHigh i => highHalf (s.x i)
  | .hash i => s.hashValue[i]
  | .buffer a => s.wordAt a
  | .reserved => 0

/-- What a write does. A write to a read-only register is ignored (R65); a write to CMD accepts a command (R70). -/
def State.busWrite (s : State) (v : Word32) : Target → State
  | .id | .errinfo | .hash _ | .reserved => s
  | .ctrl => s.writeCtrl v
  | .status => s.writeStatus v
  | .cmd => s.accept v
  | .regLow i => s.setXLow i v
  | .regHigh i => s.setXHigh i v
  | .buffer a => { s with mem := s.mem.writeWord s.params a v }

/-- Serve one transaction whole (R72). A bus error changes no state (R62, R64, R66): only the response says it. -/
def State.serve (s : State) (r : Request) : State :=
  if s.refuses r then s.respond .busError
  else if r.write then (s.busWrite r.wdata (r.target s.params)).respond .accepted
  else s.respond (.data (s.busRead (r.target s.params)))

/-- The read data of a response: 0 on a bus error (R62, D35); the spec gives none for a write (log 5). -/
def Response.readData : Response → Option Word32
  | .data v => some v
  | .accepted => none
  | .busError => some 0

end Sys2Proof.Machine
end

