-- ==== Sys2Proof/Machine/Arith.lean ====
section
/-! DEFINITION. The exact integer functions of the arithmetic units (40_modarith.md R130 to R138, 41_primality.md R170).
Each loop recurses on a bound that is never reached before the loop's own end (R309). -/

namespace Sys2Proof.Machine

/-- The loop of `gcd` (R132) with a bound on its length. -/
def gcdLoop : Nat → Nat → Nat → Nat
  | 0, a, _ => a
  | k + 1, a, b => if b = 0 then a else gcdLoop k b (a % b)

/-- `gcd(a, b) = if b == 0 then a else gcd(b, a mod b)` (R132). -/
def gcd (a b : Nat) : Nat := gcdLoop (b + 1) a b

/-- The recursion of `egcd` (R134) with a bound on its depth. -/
def egcdLoop : Nat → Nat → Nat → Nat × Int × Int
  | 0, a, _ => (a, 1, 0)
  | k + 1, a, b =>
    if b = 0 then (a, 1, 0)
    else
      let (g, x1, y1) := egcdLoop k b (a % b)
      (g, y1, x1 - (a / b : Nat) * y1)

/-- `egcd(a, b) = (g, x, y)`, the coefficients of the classic recursive algorithm (R134). -/
def egcd (a b : Nat) : Nat × Int × Int := egcdLoop (b + 1) a b

/-- The inverse of `e` modulo `t` when `gcd(e, t) = 1`: the first coefficient of `egcd(e, t)`, reduced into `[0, t)`
(R135). -/
def inverse (e t : Nat) : Nat := ((egcd e t).2.1 % (t : Int)).toNat

/-- The product, formed in `PROD` bits (R130, R136). -/
def wideProduct (prod a b : Nat) : Nat := a * b % 2 ^ prod

/-- `mulmod(a, b, m)`: the wide product and its exact remainder (R136). -/
def mulmod (prod a b m : Nat) : Nat := wideProduct prod a b % m

/-- The square-and-multiply loop of R138, exponent least significant bit first, with a bound on its length. -/
def modexpLoop (prod : Nat) : Nat → Nat → Nat → Nat → Nat → Nat
  | 0, r, _, _, _ => r
  | j + 1, r, b, k, m =>
    if k = 0 then r
    else
      let r' := if k % 2 = 1 then mulmod prod r b m else r
      let k' := k / 2
      let b' := if k' = 0 then b else mulmod prod b b m
      modexpLoop prod j r' b' k' m

/-- The number of times the loop of R138 runs, `bitlength(exp)`. -/
def bitLength (k : Nat) : Nat := if k = 0 then 0 else k.log2 + 1

/-- `modexp(base, exp, m)` for `m >= 1`, with the initial reductions `1 mod m` and `base mod m` (R138). -/
def modexp (prod base exp m : Nat) : Nat := modexpLoop prod (bitLength exp) (1 % m) (base % m) exp m

/-- Trial division from the divisor `i` on, with a bound on its length. `i <= isqrt(n)` is tested as
`i * i <= n` (R170; log 10). -/
def noDivisorFrom : Nat → Nat → Nat → Bool
  | 0, _, _ => true
  | k + 1, i, n => if n < i * i then true else if n % i = 0 then false else noDivisorFrom k (i + 1) n

/-- `is_prime(n)`: trial division up to `isqrt(n)`; `n < 2` is not prime (R170). -/
def isPrime (n : Nat) : Bool := if n < 2 then false else noDivisorFrom n 2 n

end Sys2Proof.Machine
end

