-- ==== Sys2Proof/Machine/ModArith.lean ====
section
/-! DEFINITION. The modular arithmetic unit: GCD, EGCD, MODINV, MODMUL, MODEXP (40_modarith.md). Every operand is an
unsigned integer of `WORD` bits, every intermediate value exact (R130); all sources are read before a destination is
written (R10). -/

namespace Sys2Proof.Machine

/-- GCD (R131). -/
def execGcd (rd rs1 rs2 : Reg) (s : State) : Host.Outcome State Fault Refusal :=
  let a := (s.x rs1).toNat
  let b := (s.x rs2).toNat
  .next (s.setX rd (BitVec.ofNat maxWord (gcd a b))).succeed

/-- EGCD (R133): `g`, `tc_64(s)`, `tc_64(t)` to `rd`, `rd+1`, `rd+2`, the two's complement in `WORD` bits. With `rd >
13`, or if the build has no register `rd+2`, the word is illegal and `ERRINFO` is the word (R104, R133; log 13). -/
def execEgcd (rd rs1 rs2 : Reg) (s : State) : Host.Outcome State Fault Refusal :=
  let a := (s.x rs1).toNat
  let b := (s.x rs2).toNat
  let r := egcd a b
  if 13 < rd.val ∨ s.params.nreg ≤ rd.val + 2 then .next (s.raise .illegal s.cur)
  else
    .next (((s.setX rd (BitVec.ofNat maxWord r.1)).setX (regAbove rd 1) (tc64 r.2.1)).setX (regAbove rd 2)
      (tc64 r.2.2)).succeed

/-- MODINV (R135): the least non-negative inverse; E_ZMOD is checked before E_NOTCOPRIME (R263). -/
def execModinv (rd rs1 rs2 : Reg) (s : State) : Host.Outcome State Fault Refusal :=
  let e := (s.x rs1).toNat
  let t := (s.x rs2).toNat
  if t = 0 then .next (s.raise .zmod 0)
  else if (egcd e t).1 ≠ 1 then .next (s.raise .notcoprime 0)
  else .next (s.setX rd (BitVec.ofNat maxWord (inverse e t))).succeed

/-- MODMUL (R137). -/
def execModmul (rd rs1 rs2 rs3 : Reg) (s : State) : Host.Outcome State Fault Refusal :=
  let a := (s.x rs1).toNat
  let b := (s.x rs2).toNat
  let m := (s.x rs3).toNat
  if m = 0 then .next (s.raise .zmod 0)
  else .next (s.setX rd (BitVec.ofNat maxWord (mulmod s.params.prod a b m))).succeed

/-- MODEXP (R139). -/
def execModexp (rd rs1 rs2 rs3 : Reg) (s : State) : Host.Outcome State Fault Refusal :=
  let base := (s.x rs1).toNat
  let e := (s.x rs2).toNat
  let m := (s.x rs3).toNat
  if m = 0 then .next (s.raise .zmod 0)
  else .next (s.setX rd (BitVec.ofNat maxWord (modexp s.params.prod base e m))).succeed

end Sys2Proof.Machine
end

