-- ==== Sys2Proof/Machine/Primality.lean ====
section
/-! DEFINITION. The primality-test unit: ISPRIME (41_primality.md). -/

namespace Sys2Proof.Machine

/-- ISPRIME (R171): 1 for a prime, 0 otherwise, zero-extended to `WORD` bits; no flag. -/
def execIsprime (rd rs1 : Reg) (s : State) : Host.Outcome State Fault Refusal :=
  .next (s.setX rd (if isPrime (s.x rs1).toNat then 1 else 0)).succeed

end Sys2Proof.Machine
end

