-- ==== Sys2Proof/Machine/RsaCodec.lean ====
section
/-! DEFINITION. The RSA cipher core: ENC and DEC, one byte per element (42_rsa_codec.md). -/

namespace Sys2Proof.Machine

/-- `len` is out of bounds (R181). -/
def State.lenOutOfBounds (s : State) (len : Nat) : Bool := decide (s.params.txtSize < len ∨ s.params.ctSize < len)

/-- The lowest index below `len` whose byte code is not below `n` (R182). -/
def State.firstOutOfRange (s : State) (n len : Nat) : Option Nat :=
  (List.range len).find? fun i => decide (n ≤ (s.txt i).toNat)

/-- What ENC writes to `CT[i]` (R182). -/
def State.encryptedAt (s : State) (e n i : Nat) : Word := BitVec.ofNat maxWord (modexp s.params.prod (s.txt i).toNat e n)

/-- The value DEC decrypts from `CT[i]`, before it is cut to a byte (R184). -/
def State.decryptedAt (s : State) (d n i : Nat) : Nat := modexp s.params.prod (s.ct i).toNat d n

/-- `CT[i]` is written for every `i < len` (R182). -/
def State.encryptPrefix (s : State) (e n len : Nat) : Memory :=
  (List.range len).foldl (fun m i => m.setCt s.params i (s.encryptedAt e n i)) s.mem

/-- `TXT[i] <- m[7:0]` for every `i < len` (R184, R185). -/
def State.decryptPrefix (s : State) (d n len : Nat) : Memory :=
  (List.range len).foldl (fun m i => m.setTxt s.params i (BitVec.ofNat 8 (s.decryptedAt d n i))) s.mem

/-- Some decrypted value is 256 or more (R184, R185). -/
def State.decryptsWide (s : State) (d n len : Nat) : Bool :=
  (List.range len).any fun i => decide (256 ≤ s.decryptedAt d n i)

/-- ENC (R182), its checks in the order of R263, all before the first write. -/
def execEnc (rs1 rs2 rs3 : Reg) (s : State) : Host.Outcome State Fault Refusal :=
  let e := (s.x rs1).toNat
  let n := (s.x rs2).toNat
  let len := (s.x rs3).toNat
  if s.lenOutOfBounds len then .next (s.raise .bounds 0)
  else if n = 0 then .next (s.raise .zmod 0)
  else
    match s.firstOutOfRange n len with
    | some i => .next (s.raise .range (BitVec.ofNat 32 i))
    | none => .next { s with mem := s.encryptPrefix e n len }.succeed

/-- DEC (R184): bits 7:0 of each decrypted value; STATUS.TRUNC set when one is 256 or more, never cleared (R185). -/
def execDec (rs1 rs2 rs3 : Reg) (s : State) : Host.Outcome State Fault Refusal :=
  let d := (s.x rs1).toNat
  let n := (s.x rs2).toNat
  let len := (s.x rs3).toNat
  if s.lenOutOfBounds len then .next (s.raise .bounds 0)
  else if n = 0 then .next (s.raise .zmod 0)
  else .next { s with mem := s.decryptPrefix d n len, trunc := s.trunc || s.decryptsWide d n len }.succeed

end Sys2Proof.Machine
end

