-- ==== Sys2Proof/Machine/Sha256.lean ====
section
/-! DEFINITION. The SHA-256 block compressor: SHAINIT and SHABLK (43_sha256.md), on words of `SHA_WORD` = `n` bits, 32
in this hardware (R7; log 9). -/

namespace Sys2Proof.Machine

/-- The 64 round constants `K[0..63]`, eight a line (R202). -/
def roundConstants : List ShaWord :=
  [0x428a2f98#32, 0x71374491#32, 0xb5c0fbcf#32, 0xe9b5dba5#32, 0x3956c25b#32, 0x59f111f1#32, 0x923f82a4#32, 0xab1c5ed5#32] ++
  [0xd807aa98#32, 0x12835b01#32, 0x243185be#32, 0x550c7dc3#32, 0x72be5d74#32, 0x80deb1fe#32, 0x9bdc06a7#32, 0xc19bf174#32] ++
  [0xe49b69c1#32, 0xefbe4786#32, 0x0fc19dc6#32, 0x240ca1cc#32, 0x2de92c6f#32, 0x4a7484aa#32, 0x5cb0a9dc#32, 0x76f988da#32] ++
  [0x983e5152#32, 0xa831c66d#32, 0xb00327c8#32, 0xbf597fc7#32, 0xc6e00bf3#32, 0xd5a79147#32, 0x06ca6351#32, 0x14292967#32] ++
  [0x27b70a85#32, 0x2e1b2138#32, 0x4d2c6dfc#32, 0x53380d13#32, 0x650a7354#32, 0x766a0abb#32, 0x81c2c92e#32, 0x92722c85#32] ++
  [0xa2bfe8a1#32, 0xa81a664b#32, 0xc24b8b70#32, 0xc76c51a3#32, 0xd192e819#32, 0xd6990624#32, 0xf40e3585#32, 0x106aa070#32] ++
  [0x19a4c116#32, 0x1e376c08#32, 0x2748774c#32, 0x34b0bcb5#32, 0x391c0cb3#32, 0x4ed8aa4a#32, 0x5b9cca4f#32, 0x682e6ff3#32] ++
  [0x748f82ee#32, 0x78a5636f#32, 0x84c87814#32, 0x8cc70208#32, 0x90befffa#32, 0xa4506ceb#32, 0xbef9a3f7#32, 0xc67178f2#32]

/-- `Ch`, "choice" (R203). -/
def choice (x y z : ShaWord) : ShaWord := (x &&& y) ^^^ (~~~x &&& z)

/-- `Maj`, "majority" (R203). -/
def majority (x y z : ShaWord) : ShaWord := (x &&& y) ^^^ (x &&& z) ^^^ (y &&& z)

/-- `rotr_32(x, k)` of R9, on `n` bits: `(x >> k) | (x << (n - k))`. -/
def rotr (n : Nat) (x : ShaWord) (k : Nat) : ShaWord := lowBits n ((x >>> k) ||| (x <<< (n - k)))

/-- `Σ0` (R203). -/
def bigSigma0 (n : Nat) (x : ShaWord) : ShaWord := rotr n x 2 ^^^ rotr n x 13 ^^^ rotr n x 22

/-- `Σ1` (R203). -/
def bigSigma1 (n : Nat) (x : ShaWord) : ShaWord := rotr n x 6 ^^^ rotr n x 11 ^^^ rotr n x 25

/-- `σ0` (R203). -/
def smallSigma0 (n : Nat) (x : ShaWord) : ShaWord := rotr n x 7 ^^^ rotr n x 18 ^^^ (x >>> 3)

/-- `σ1` (R203). -/
def smallSigma1 (n : Nat) (x : ShaWord) : ShaWord := rotr n x 17 ^^^ rotr n x 19 ^^^ (x >>> 10)

/-- `W[t]` for `t < 16`: four bytes of the block, big endian (R204). -/
def blockWord (n : Nat) (b : Nat → Byte) (t : Nat) : ShaWord :=
  lowBits n (b (4 * t) ++ b (4 * t + 1) ++ b (4 * t + 2) ++ b (4 * t + 3))

/-- The first 16 words of the schedule (R204). -/
def firstWords (n : Nat) (b : Nat → Byte) : List ShaWord := (List.range 16).map (blockWord n b)

/-- `W[t]` from the `t` words before it, `t >= 16` (R205). -/
def nextWord (n : Nat) (w : List ShaWord) : ShaWord :=
  let t := w.length
  lowBits n (smallSigma1 n (w.getD (t - 2) 0) + w.getD (t - 7) 0 + smallSigma0 n (w.getD (t - 15) 0) + w.getD (t - 16) 0)

/-- `more` more words of the schedule (R205). -/
def expandSchedule (n : Nat) : (more : Nat) → List ShaWord → List ShaWord
  | 0, w => w
  | more + 1, w => expandSchedule n more (w ++ [nextWord n w])

/-- The message schedule `W[0..63]` of a block (R204, R205). -/
def schedule (n : Nat) (b : Nat → Byte) : List ShaWord := expandSchedule n 48 (firstWords n b)

/-- The working variables `a` to `h` (R206). -/
structure Working where
  a : ShaWord
  b : ShaWord
  c : ShaWord
  d : ShaWord
  e : ShaWord
  f : ShaWord
  g : ShaWord
  h : ShaWord
  deriving DecidableEq, Repr

/-- One round; its assignments use the values from the start of the round (R206). -/
def shaRound (n : Nat) (v : Working) (k w : ShaWord) : Working :=
  let t1 := v.h + bigSigma1 n v.e + choice v.e v.f v.g + k + w
  let t2 := bigSigma0 n v.a + majority v.a v.b v.c
  { a := lowBits n (t1 + t2), b := v.a, c := v.b, d := v.c, e := lowBits n (v.d + t1), f := v.e, g := v.f, h := v.g }

/-- The working variables before the first round (R206). -/
def workingOf (H : Vector ShaWord 8) : Working := ⟨H[0], H[1], H[2], H[3], H[4], H[5], H[6], H[7]⟩

/-- The 64 rounds (R206). -/
def shaRounds (n : Nat) (v : Working) (w : List ShaWord) : Working :=
  (roundConstants.zip w).foldl (fun v p => shaRound n v p.1 p.2) v

/-- The final addition (R206). -/
def addWorking (n : Nat) (H : Vector ShaWord 8) (v : Working) : Vector ShaWord 8 :=
  fitHash n #v[H[0] + v.a, H[1] + v.b, H[2] + v.c, H[3] + v.d, H[4] + v.e, H[5] + v.f, H[6] + v.g, H[7] + v.h]

/-- `compress(H, W)` (R206). -/
def compress (n : Nat) (H : Vector ShaWord 8) (w : List ShaWord) : Vector ShaWord 8 :=
  addWorking n H (shaRounds n (workingOf H) w)

/-- SHAINIT (R211). -/
def execShainit (s : State) : Host.Outcome State Fault Refusal :=
  .next { s with hash := initialHash s.params.shaWord }.succeed

/-- The 64 bytes at `off` do not lie wholly in TXT: `off > TXT_SIZE - 64` (R212). -/
def State.blockOutOfBounds (s : State) (off : Nat) : Bool := decide (s.params.txtSize < off + 64)

/-- SHABLK (R212): the block at any byte offset of TXT. -/
def execShablk (rs1 : Reg) (s : State) : Host.Outcome State Fault Refusal :=
  let off := (s.x rs1).toNat
  if s.blockOutOfBounds off then .next (s.raise .bounds 0)
  else
    let n := s.params.shaWord
    .next { s with hash := compress n s.hashValue (schedule n fun j => s.txt (off + j)) }.succeed

end Sys2Proof.Machine
end

