-- ==== Sys2Proof/Machine/Dispatch.lean ====
section
/-! DEFINITION. One arm per command: `Exec` of 60_exceptions.md R261, the command's pseudocode and its completion. -/

namespace Sys2Proof.Machine

def exec (i : Instr) (s : State) : Host.Outcome State Fault Refusal :=
  match i with
  | .gcd rd rs1 rs2 => Sys2Proof.Machine.execGcd rd rs1 rs2 s
  | .egcd rd rs1 rs2 => Sys2Proof.Machine.execEgcd rd rs1 rs2 s
  | .modinv rd rs1 rs2 => Sys2Proof.Machine.execModinv rd rs1 rs2 s
  | .modmul rd rs1 rs2 rs3 => Sys2Proof.Machine.execModmul rd rs1 rs2 rs3 s
  | .modexp rd rs1 rs2 rs3 => Sys2Proof.Machine.execModexp rd rs1 rs2 rs3 s
  | .isprime rd rs1 => Sys2Proof.Machine.execIsprime rd rs1 s
  | .enc rs1 rs2 rs3 => Sys2Proof.Machine.execEnc rs1 rs2 rs3 s
  | .dec rs1 rs2 rs3 => Sys2Proof.Machine.execDec rs1 rs2 rs3 s
  | .shainit => Sys2Proof.Machine.execShainit s
  | .shablk rs1 => Sys2Proof.Machine.execShablk rs1 s

end Sys2Proof.Machine
end

