-- ==== Sys2Proof/Machine/Engine.lean ====
section
/-! DEFINITION. The Engine's one step, completion (60_exceptions.md R261), and what happens next in the total order of
transactions, completions and reset (20_memory.md R75, R271). -/

namespace Sys2Proof.Machine

/-- Completion of the command in `cur`: the decoded command's execution, or E_ILLEGAL with `ERRINFO` = the word for a
word that is not legal (R104, R261). -/
def completeCurrent (s : State) : Host.Outcome State Fault Refusal :=
  match Sys2Proof.decode s.params.nreg s.cur with
  | .ok i => exec i s
  | .error _ => .next (s.raise .illegal s.cur)

/-- The Engine's turn: it has a step only while a command runs (R261), and none while reset is held (R300). -/
def engineTurn (s : State) : Host.Outcome State Fault Refusal :=
  if s.busy && !s.rst then completeCurrent s else .next s

/-- What one event does. -/
def handleEvent (e : Event) (s : State) : Host.Outcome State Fault Refusal :=
  match e with
  | .bus r => .next (s.serve r)
  | .engine => engineTurn s
  | .rst level => .next (s.setRst level)

/-- The next thing to happen. When nothing more comes from outside, a running command completes, which is the weak
fairness of R261, and an idle block stays as it is (R285; log 1). -/
def takeTurn (s : State) : Host.Outcome State Fault Refusal :=
  match s.events with
  | [] => engineTurn s
  | e :: es => handleEvent e { s with events := es }

/-- A state in which the command word `w` has just been accepted (R70), `rst` is 0, and the Engine's turn is next, so
that the very next turn executes `w` (log 11). -/
def loadCommand (s : State) (w : Word32) : State :=
  { s.accept w with rst := false, events := .engine :: s.events }

end Sys2Proof.Machine
end

