-- ==== Sys2Proof/Machine/Step.lean ====
section
/-! DEFINITION. The step of the block, and how a command word is put where the next step executes it. -/

namespace Sys2Proof.Machine

/-- One step: the next event of the total order (20_memory.md R75, 60_exceptions.md R261, R271). -/
def step (s : State) : Host.Outcome State Fault Refusal := takeTurn s

/-- `s` with the opcode-table word `w` accepted as the running command and its completion next. The block fetches no
instruction (R22, R78): a command word comes from the Host by a write to CMD (R70), and this stands for that write
(log 11). -/
def State.withFetchWord (s : State) (nbits w : Nat) : State := loadCommand s (Sys2Proof.tableWord nbits w)

end Sys2Proof.Machine
end

