-- ==== Sys2Proof/Machine/HostProc.lean ====
section
/-! DEFINITION. The Host's side, which is software (44_host_procedures.md): its pseudo-instructions as events
(30_encoding.md R109), the digest and SHA-256 of a message and the procedure that drives the block to it (43_sha256.md
R207, R240, R241), and keypair assembly with the block's ISPRIME, GCD and MODINV (R242 to R245). The step never calls
any of it. -/

namespace Sys2Proof.Machine

/-! ### Pseudo-instructions (R109) -/

/-- The bus address of an offset: the platform places offset 0 at `BASE_ADDR` (R61). -/
def busAddress (h : Config.HostParams) (off : Nat) : Nat := h.baseAddr + off

/-- `wr OFF, V` is `MemWrite(OFF, 4, V)`. -/
def hostWr (off : Nat) (v : Word32) : List Event := [.bus ⟨BitVec.ofNat 14 off, true, v, 4⟩]

/-- `rd OFF` is `MemRead(OFF, 4)`. -/
def hostRd (off : Nat) : List Event := [.bus ⟨BitVec.ofNat 14 off, false, 0, 4⟩]

/-- `li Ri, V`: the low half, then the high half. -/
def hostLi (i : Reg) (v : Word) : List Event :=
  hostWr (0x0100 + 8 * i.val) (lowHalf v) ++ hostWr (0x0104 + 8 * i.val) (highHalf v)

/-- `lct k, V`: the low half, then the high half. -/
def hostLct (k : Nat) (v : Word) : List Event := hostWr (0x2000 + 8 * k) (lowHalf v) ++ hostWr (0x2004 + 8 * k) (highHalf v)

/-- `ltxt k, B0 B1 B2 B3`, `k` a word index. -/
def hostLtxt (k : Nat) (b0 b1 b2 b3 : Byte) : List Event := hostWr (0x1000 + 4 * k) (b3 ++ b2 ++ b1 ++ b0)

/-- `cmd MNEMONIC ...`: the assembled word to CMD. -/
def hostCmd (i : Instr) : List Event := hostWr 0x000C (encode i)

/-- `wait`: polls of STATUS while the command runs, the Engine's completion, and the poll that reads BUSY = 0. -/
def hostWait (polls : Nat) : List Event := (List.replicate polls (hostRd 0x0008)).flatten ++ [.engine] ++ hostRd 0x0008

/-- `ack` clears DONE and TRUNC. -/
def hostAck : List Event := hostWr 0x0008 0x0000000A#32

/-! ### Whole-message SHA-256 (R207, R240, R241) -/

/-- `digest(H)[4i + j] = H[i][31 - 8j : 24 - 8j]` (R207). -/
def digest (H : Vector ShaWord 8) : List Byte :=
  H.toList.flatMap fun w => [w.extractLsb' 24 8, w.extractLsb' 16 8, w.extractLsb' 8 8, w.extractLsb' 0 8]

/-- The number `z` of zero bytes, the least with `(L + 1 + z + 8) mod 64 = 0` (R240). -/
def padZeros (L : Nat) : Nat := (64 - (L + 9) % 64) % 64

/-- A 64-bit number as eight bytes, big endian (R240). -/
def bigEndian64 (v : Word) : List Byte :=
  [v.extractLsb' 56 8, v.extractLsb' 48 8, v.extractLsb' 40 8, v.extractLsb' 32 8,
   v.extractLsb' 24 8, v.extractLsb' 16 8, v.extractLsb' 8 8, v.extractLsb' 0 8]

/-- The padded message (R240). The 64-bit length field limits R240 to messages below 2^61 bytes; that a longer message
pads as well, its bit length modulo 2^64, is the model's choice (log 20). -/
def padMessage (m : List Byte) : List Byte :=
  m ++ [0x80#8] ++ List.replicate (padZeros m.length) 0#8 ++ bigEndian64 (BitVec.ofNat 64 (8 * m.length))

/-- One SHABLK for each 64-byte block of the padded message, in order, from SHAINIT's value (R241), on words of
`SHA_WORD` = `n` bits. -/
def hashBlocks (n : Nat) (p : List Byte) : Vector ShaWord 8 :=
  (List.range (p.length / 64)).foldl (fun H j => compress n H (schedule n fun k => p.getD (64 * j + k) 0)) (initialHash n)

/-- `sha256(M)` (R241), on words of `SHA_WORD` = `n` bits, 32 in this hardware; for a message of 2^61 bytes or more by
log 20. -/
def sha256 (n : Nat) (m : List Byte) : List Byte := digest (hashBlocks n (padMessage m))

/-! ### Driving the block (R109, R241) -/

/-- The state after one more event, ahead of whatever is still to come. -/
def happen (s : State) (e : Event) : State :=
  match step { s with events := e :: s.events } with
  | .next t => t
  | .fault _ | .refused _ => s

/-- The state after a sequence of events. -/
def perform (s : State) (es : List Event) : State := es.foldl happen s

/-- What the latest read returned: its data, 0 on a bus error (R62). -/
def State.readData (s : State) : Word32 := (s.resp.bind Response.readData).getD 0

/-- The words of TXT that hold a byte of the block at `off`; what lies outside TXT cannot be written (log 19). -/
def blockWords (p : Config.Params) (off : Nat) : List Nat :=
  (List.range (p.txtSize / 4)).filter fun k => decide (off < 4 * k + 4 ∧ 4 * k < off + 64)

/-- The byte the Host puts at `TXT[a]`: the block's, and 0 beside the block (log 19). -/
def blockByte (off : Nat) (b : Nat → Byte) (a : Nat) : Byte := if off ≤ a ∧ a < off + 64 then b (a - off) else 0

/-- "Write P_j into TXT at some offset off_j" (R241), by whole bus words (R68). -/
def hostPutBlock (p : Config.Params) (off : Nat) (b : Nat → Byte) : List Event :=
  (blockWords p off).flatMap fun k =>
    hostLtxt k (blockByte off b (4 * k)) (blockByte off b (4 * k + 1)) (blockByte off b (4 * k + 2))
      (blockByte off b (4 * k + 3))

/-- `cmd ...; wait`: the last event is the poll that reads STATUS after the completion. -/
def hostRun (i : Instr) (polls : Nat) : List Event := hostCmd i ++ hostWait polls

/-- One turn of R241's loop: the block to TXT, `li Rk, off_j; cmd SHABLK Rk; wait`. -/
def hostBlock (p : Config.Params) (rk : Reg) (off : Nat) (b : Nat → Byte) (polls : Nat) : List Event :=
  hostPutBlock p off b ++ hostLi rk (BitVec.ofNat maxWord off) ++ hostRun (.shablk rk) polls

/-- What the Host chooses when it hashes: the register `Rk`, the offset `off_j` of each block, and how often it polls
before each completion. -/
structure HashPlan where
  rk : Reg
  place : Nat → Nat
  polls : Nat → Nat

/-- R241's loop over `n` blocks of the padded message from block `j` on. It says whether it reached the end: it stops
when `STATUS.ERR` (bit 2) reads 1. -/
def hostBlocks (plan : HashPlan) (padded : List Byte) : (n j : Nat) → State → Bool × State
  | 0, _, s => (true, s)
  | n + 1, j, s =>
    let t := perform s (hostBlock s.params plan.rk (plan.place j) (fun k => padded.getD (64 * j + k) 0) (plan.polls j))
    if t.readData.getLsbD 2 then (false, t) else hostBlocks plan padded n (j + 1) t

/-- `rd 0x0180 ... rd 0x0180 + 4*(n-1)`: the first `n` words of H (R207). -/
def hostReadHash (n : Nat) : List Event := (List.range n).flatMap fun i => hostRd (0x0180 + 4 * i)

/-- `sha256(M)` with the block (R241): the digest, or none when the Host stopped, and the state it leaves. -/
def hashWithBlock (plan : HashPlan) (m : List Byte) (s : State) : Option (List Byte) × State :=
  let padded := padMessage m
  let start := perform s (hostRun .shainit (plan.polls 0))
  let (reached, t) := hostBlocks plan padded (padded.length / 64) 0 start
  if reached then
    (some (digest (Vector.ofFn fun i => (perform t (hostReadHash (i.val + 1))).readData)), perform t (hostReadHash 8))
  else (none, t)

/-! ### Keypair assembly (R242 to R245) -/

/-- What key setup can report (R245). -/
inductive KeySetupError where
  /-- A resampling loop is exhausted. -/
  | keyGenerationFailure
  /-- MODINV completed with E_NOTCOPRIME. -/
  | arithmeticError
  deriving DecidableEq, Repr

/-- PublicKey `(e, n)` and PrivateKey `(d, n)` (R244), each field `WORD` bits wide (R7). -/
structure KeyPair where
  e : Word
  n : Word
  d : Word
  deriving DecidableEq, Repr

/-- What key setup works on: the block, and the Host's random source as the list of the candidates it will draw (R242;
log 18). -/
structure KeySetup where
  block : State
  source : List Word
  deriving DecidableEq, Repr

/-- A part of key setup: what it gives or reports, and what it leaves. -/
abbrev KeyProc (α : Type) := KeySetup → Except KeySetupError α × KeySetup

/-- What the Host chooses when it uses the block for key setup (log 18): the registers of its commands' operands and
result, and how often it polls before the completion of a command issued in a state. -/
structure KeyPlan where
  rs1 : Reg
  rs2 : Reg
  rd : Reg
  polls : State → Nat

/-- The registers exist, and the two operands have one each. -/
def KeyPlan.legal (plan : KeyPlan) (p : Config.Params) : Bool :=
  decide (plan.rs1 ≠ plan.rs2 ∧ plan.rs1.val < p.nreg ∧ plan.rs2.val < p.nreg ∧ plan.rd.val < p.nreg)

/-- `rd Ri.LO; rd Ri.HI` (R67, R109): the register's value. -/
def hostReadReg (i : Reg) (s : State) : Word × State :=
  let lo := perform s (hostRd (0x0100 + 8 * i.val))
  let hi := perform lo (hostRd (0x0104 + 8 * i.val))
  (joinHalves hi.readData lo.readData, hi)

/-- `li` for each operand, then `cmd ...; wait`: the latest answer is STATUS after the completion. -/
def issue (plan : KeyPlan) (operands : List (Reg × Word)) (i : Instr) (s : State) : State :=
  perform s ((operands.flatMap fun o => hostLi o.1 o.2) ++ hostRun i (plan.polls s))

/-- ISPRIME of `n` (R171, R242): 1 or 0. -/
def hostIsprime (plan : KeyPlan) (n : Word) (s : State) : Word × State :=
  hostReadReg plan.rd (issue plan [(plan.rs1, n)] (.isprime plan.rd plan.rs1) s)

/-- GCD of `a` and `b` (R131, R243). -/
def hostGcd (plan : KeyPlan) (a b : Word) (s : State) : Word × State :=
  hostReadReg plan.rd (issue plan [(plan.rs1, a), (plan.rs2, b)] (.gcd plan.rd plan.rs1 plan.rs2) s)

/-- MODINV of `e` modulo `t` (R135, R244). A completion with STATUS.ERRCODE = E_NOTCOPRIME is the ArithmeticError
(R245). -/
def hostModinv (plan : KeyPlan) (e t : Word) (s : State) : Except KeySetupError Word × State :=
  let u := issue plan [(plan.rs1, e), (plan.rs2, t)] (.modinv plan.rd plan.rs1 plan.rs2) s
  if u.readData.extractLsb' 8 4 = ErrCode.notcoprime.code then (.error .arithmeticError, u)
  else
    let r := hostReadReg plan.rd u
    (.ok r.1, r.2)

/-- Go on with what a part gives; stop with what it reports. -/
def KeyProc.andThen {α β : Type} (part : KeyProc α) (next : α → KeyProc β) : KeyProc β := fun k =>
  match part k with
  | (.error x, k') => (.error x, k')
  | (.ok a, k') => next a k'

/-- Draw the next candidate; a source that has run dry is a failure (log 18). -/
def drawCandidate : KeyProc Word := fun k =>
  match k.source with
  | [] => (.error .keyGenerationFailure, k)
  | c :: rest => (.ok c, { k with source := rest })

/-- One attempt: draw a candidate, and test it on the block if it lies in its range. It passes if the result is 1. -/
def tryCandidate (inRange : Word → Bool) (test : Word → State → Word × State) : KeyProc (Option Word) :=
  drawCandidate.andThen fun c k =>
    if inRange c then
      let r := test c k.block
      (.ok (if r.1 = 1 then some c else none), { k with block := r.2 })
    else (.ok none, k)

/-- One resampling loop: at most `cap` attempts, then KeyGenerationFailure (R245). -/
def resample (attempt : KeyProc (Option Word)) : (cap : Nat) → KeyProc Word
  | 0 => fun k => (.error .keyGenerationFailure, k)
  | cap + 1 => attempt.andThen fun c k =>
    match c with
    | some c => (.ok c, k)
    | none => resample attempt cap k

/-- `[PRIME_LO, PRIME_HI)` (R242). -/
def inPrimeRange (h : Config.HostParams) (c : Word) : Bool := decide (h.primeLo ≤ c.toNat ∧ c.toNat < h.primeHi)

/-- `[2, tot)` (R243). -/
def inExponentRange (tot c : Word) : Bool := decide (2 ≤ c.toNat ∧ c.toNat < tot.toNat)

/-- The loop of R242: candidates until ISPRIME gives 1. -/
def samplePrime (h : Config.HostParams) (plan : KeyPlan) : KeyProc Word :=
  resample (tryCandidate (inPrimeRange h) (hostIsprime plan)) h.retryCap

/-- The loop of R243 over the loop of R242, each with its own budget: primes until one differs from `p`. -/
def sampleOtherPrime (h : Config.HostParams) (plan : KeyPlan) (p : Word) : KeyProc Word :=
  resample ((samplePrime h plan).andThen fun c k => (.ok (if c = p then none else some c), k)) h.retryCap

/-- The loop of R243 for the exponent: candidates until GCD gives 1. -/
def sampleExponent (h : Config.HostParams) (plan : KeyPlan) (tot : Word) : KeyProc Word :=
  resample (tryCandidate (inExponentRange tot) fun e => hostGcd plan e tot) h.retryCap

/-- `tot = (p-1)*(q-1)`, which the Host computes itself (R243, R244). -/
def totient (p q : Word) : Word := (p - 1) * (q - 1)

/-- `n = p*q`, which the Host computes itself, in a key field of `WORD` bits (R7), and `d` by MODINV of `e` modulo
`tot` (R244, R245). -/
def assembleKey (plan : KeyPlan) (p q e : Word) : KeyProc KeyPair := fun k =>
  match hostModinv plan e (totient p q) k.block with
  | (.error x, t) => (.error x, { k with block := t })
  | (.ok d, t) => (.ok ⟨e, lowBits k.block.params.word (p * q), d⟩, { k with block := t })

/-- Key generation with the block, from a random source (R242 to R245). -/
def generateKeypair (h : Config.HostParams) (plan : KeyPlan) : KeyProc KeyPair :=
  (samplePrime h plan).andThen fun p =>
    (sampleOtherPrime h plan p).andThen fun q =>
      (sampleExponent h plan (totient p q)).andThen fun e => assembleKey plan p q e

/-- Key generation by this hardware's Host, with the open budget `RETRY_CAP` (R7, R245). -/
def hostKeypair (plan : KeyPlan) : KeyProc KeyPair := generateKeypair Config.host plan

end Sys2Proof.Machine
end

