-- ==== Sys2Proof/Safety.lean ====
section
/-! DEFINITION. What counts as a safe run, and the invariant of the block that the spec's whole-machine rules give. -/

namespace Sys2Proof.Machine

/-- A fault of the Host: the latest transaction got a bus error (60_exceptions.md R265). A safe run has none. -/
def State.hostFault (s : State) : Bool := s.resp == some .busError

/-- The block holds the reset values of R38; the rest is the port's and the model's own. -/
def State.atReset (s : State) : Prop :=
  s = { State.resetWith s.params with rst := s.rst, resp := s.resp, draws := s.draws, events := s.events }

/-- What holds between any two steps. -/
structure State.Inv (s : State) : Prop where
  /-- The parameters are ones that R7 allows. -/
  params_legal : s.params.legal = true
  /-- The memory is in its canonical form. -/
  mem_wf : s.mem.wf = true
  /-- Every cell lies in TXT or CT (R34, R35). -/
  mem_inBuffers : s.mem.inBuffers s.params = true
  /-- No byte of a buffer holds a bit that the build does not have (R7). -/
  mem_fits : s.mem.fits s.params = true
  /-- An operand register holds a value of `WORD` bits (R7, R20). -/
  regs_fit : ∀ i : Reg, s.x i = s.regs[i]
  /-- A SHA-256 state word has `SHA_WORD` bits (R7, R33). -/
  hash_fits : s.hashValue = s.hash
  /-- `cur` is visible as LASTCMD (R23). -/
  cur_eq_lastcmd : s.cur = s.lastcmd
  /-- While BUSY is 1, ERRCODE reads 0 (R27). -/
  busy_ok : s.busy = true → s.errcode = .ok
  /-- ERRINFO is 0 unless the code is E_ILLEGAL or E_RANGE (R31, R260). -/
  errinfo_zero : s.errcode ≠ .illegal → s.errcode ≠ .range → s.errinfo = 0
  /-- With E_ILLEGAL, ERRINFO is the rejected word, and it is illegal (R31, R104). -/
  errinfo_illegal : s.errcode = .illegal → s.errinfo = s.lastcmd ∧ 
    ∃ r, Sys2Proof.decode s.params.nreg s.lastcmd = .error r
  /-- With E_RANGE, ERRINFO is an index of TXT (R31, R182). -/
  errinfo_range : s.errcode = .range → s.errinfo.toNat < s.params.txtSize
  /-- While `rst` is 1, every state element has its reset value (R300). -/
  held_in_reset : s.rst = true → s.atReset

end Sys2Proof.Machine
end

