-- ==== Sys2Proof/Certificates/Slice0/Obligations.lean ====
section
/-! DEFINITION. The statements for the provers. Each docstring names the rule of spec/ it formalises. -/

namespace Sys2Proof.Claims

open Sys2Proof.Machine

/-- An error completion (R262): ERRCODE, ERRINFO, DONE and `busy` are written, and nothing else. -/
def failed (s : State) (e : ErrCode) (info : Word32) : State :=
  { s with errcode := e, errinfo := info, done := true, busy := false }

/-- `t` is the success of a register command that wrote `n` to `x[rd]`: no other register, no H word, no byte of TXT
or CT, and no flag but those of completion differs from `s`. -/
def WroteRegister (s t : State) (rd : Reg) (n : Nat) : Prop :=
  (t.x rd).toNat = n ∧ (∀ j, j ≠ rd → t.x j = s.x j) ∧
    t = { s with regs := t.regs, errcode := .ok, errinfo := 0, done := true, busy := false }

/-- The next event is the Engine's turn, and `es` is what comes after it. -/
def EngineNext (s : State) (es : List Event) : Prop := s.events = .engine :: es ∨ (s.events = [] ∧ es = [])

/-- The next event is an aligned 32-bit write of `v` at offset `a`, and `es` is what comes after it. -/
def WriteNext (s : State) (a : Nat) (v : Word32) (es : List Event) : Prop :=
  s.events = .bus ⟨BitVec.ofNat 14 a, true, v, 4⟩ :: es

/-- The next event is an aligned 32-bit read at offset `a`, whatever the request's write data says. -/
def ReadNext (s : State) (a : Nat) (es : List Event) : Prop :=
  ∃ v, s.events = .bus ⟨BitVec.ofNat 14 a, false, v, 4⟩ :: es

/-- The next event puts the reset pin to 1. -/
def ResetNext (s : State) : Prop := ∃ es, s.events = .rst true :: es

/-- The register numbers a command writes (R21). -/
def destinations : Instr → List Nat
  | .gcd rd _ _ | .modinv rd _ _ | .modmul rd _ _ _ | .modexp rd _ _ _ | .isprime rd _ => [rd.val]
  | .egcd rd _ _ => [rd.val, rd.val + 1, rd.val + 2]
  | .enc _ _ _ | .dec _ _ _ | .shainit | .shablk _ => []

/-- The iterative form of the extended Euclid algorithm (R134): the pairs `(r0, r1), (s0, s1), (t0, t1)`, replacing
each pair `(u, v)` by `(v, u - q*v)` with `q = r0 div r1` until `r1 = 0`, at most `k` times. -/
def egcdIterative : Nat → Nat × Nat → Int × Int → Int × Int → Nat × Int × Int
  | 0, r, s, t => (r.1, s.1, t.1)
  | k + 1, r, s, t =>
    if r.2 = 0 then (r.1, s.1, t.1)
    else
      let q := r.1 / r.2
      egcdIterative k (r.2, r.1 - q * r.2) (s.2, s.1 - q * s.2) (t.2, t.1 - q * t.2)

/-- The words R104 calls illegal in a build with `nreg` registers: an unassigned opcode, a nonzero `resv`, a nonzero
field the opcode does not use, or a register that does not exist: EGCD's `rd+2`, which is 16 or 17 for `rd` = 14 or 15,
or, with fewer than 16 registers, any register a field names (D3; which words these are is log 9). -/
def IllegalWord (nreg : Nat) (w : Word32) : Prop :=
  let op := (w.extractLsb 7 0).toNat
  let rd := (w.extractLsb 11 8).toNat
  let rs1 := (w.extractLsb 15 12).toNat
  let rs2 := (w.extractLsb 19 16).toNat
  let rs3 := (w.extractLsb 23 20).toNat
  let resv := (w.extractLsb 31 24).toNat
  op = 0x00 ∨ (0x07 ≤ op ∧ op ≤ 0x0F) ∨ (0x12 ≤ op ∧ op ≤ 0x1F) ∨ 0x22 ≤ op ∨ resv ≠ 0 ∨
    (op ∈ [0x01, 0x02, 0x03] ∧ rs3 ≠ 0) ∨
    (op = 0x06 ∧ (rs2 ≠ 0 ∨ rs3 ≠ 0)) ∨
    (op ∈ [0x10, 0x11] ∧ rd ≠ 0) ∨
    (op = 0x20 ∧ (rd ≠ 0 ∨ rs1 ≠ 0 ∨ rs2 ≠ 0 ∨ rs3 ≠ 0)) ∨
    (op = 0x21 ∧ (rd ≠ 0 ∨ rs2 ≠ 0 ∨ rs3 ≠ 0)) ∨
    (op = 0x02 ∧ nreg ≤ rd + 2) ∨
    nreg ≤ rd ∨ nreg ≤ rs1 ∨ nreg ≤ rs2 ∨ nreg ≤ rs3

/-- The reserved offsets of the aperture (R63, R64), those of registers that the build lacks among them (log 9). -/
def ReservedOffset (p : Config.Params) (a : Nat) : Prop :=
  (0x0014 ≤ a ∧ a < 0x0100) ∨ (0x0100 + 8 * p.nreg ≤ a ∧ a < 0x0180) ∨ (0x01A0 ≤ a ∧ a < 0x1000) ∨
    (0x1000 + p.txtSize ≤ a ∧ a < 0x2000) ∨ (0x2000 + 8 * p.ctSize ≤ a ∧ a < 0x4000)

/-- The offsets of the two buffers in the aperture (R63). -/
def BufferWindow (p : Config.Params) (a : Nat) : Prop :=
  (0x1000 ≤ a ∧ a < 0x1000 + p.txtSize) ∨ (0x2000 ≤ a ∧ a < 0x2000 + 8 * p.ctSize)

/-- The data windows of the aperture (R63): `Ri`, `Hi`, TXT, CT. -/
def DataWindow (p : Config.Params) (a : Nat) : Prop :=
  (0x0100 ≤ a ∧ a < 0x0100 + 8 * p.nreg) ∨ (0x0180 ≤ a ∧ a < 0x01A0) ∨ BufferWindow p a

/-- The transactions that get a bus error (R62, R64, R66, R300). -/
def BusError (s : State) (r : Request) : Prop :=
  s.rst = true ∨ r.size ≠ 4 ∨ r.offset.toNat % 4 ≠ 0 ∨ ReservedOffset s.params r.offset.toNat ∨
    (s.busy = true ∧ (DataWindow s.params r.offset.toNat ∨ (r.offset.toNat = 0x000C ∧ r.write = true)))

end Sys2Proof.Claims

open Sys2Proof Sys2Proof.Machine Sys2Proof.Claims

/-! ### Reset and the invariant -/

/-- R38: the state right after reset. TXT and CT are unspecified: each byte is the free draw of that reset,
in the form of log 2. -/
def Obligations.ResetLeavesTheResetTable : Prop :=
  (∀ i, State.reset.x i = 0) ∧
    State.reset.hash.toList =
      [0x6a09e667#32, 0xbb67ae85#32, 0x3c6ef372#32, 0xa54ff53a#32, 0x510e527f#32, 0x9b05688c#32, 0x1f83d9ab#32,
        0x5be0cd19#32] ∧
    State.reset.busy = false ∧ State.reset.status = 0 ∧ State.reset.ctrl = 0 ∧ State.reset.errinfo = 0 ∧
    State.reset.lastcmd = 0 ∧ State.reset.cur = 0 ∧ State.reset.busRead .id = 0x43430001#32 ∧
    State.reset.irq = false ∧ ∀ a, State.reset.byteAt a = Config.drawByte State.reset.draws a

/-- The invariant of Safety.lean holds right after reset. -/
def Obligations.ResetMeetsInvariant : Prop := State.reset.Inv

/-- Every step keeps the invariant: canonical memory inside TXT and CT, no bit that the build lacks (log 9), `cur` =
LASTCMD (R23), ERRCODE and ERRINFO as R27, R31 and R260 say, and the reset values while `rst` is 1 (R300). -/
def Obligations.StepKeepsInvariant : Prop := ∀ s t : State, s.Inv → step s = .next t → t.Inv

/-! ### Encoding -/

/-- R107 and R105: assembling a well-formed command and decoding the word gives the command back, with every field at
every value that names a register. -/
def Obligations.DecodeOfEncode : Prop :=
  ∀ (nreg : Nat) (i : Instr), i.wf nreg = true → decode nreg (encode i) = .ok i

/-- R103 and R105: a word decodes to at most the one command whose assembled word it is. -/
def Obligations.EncodeOfDecode : Prop :=
  ∀ (nreg : Nat) (w : Word32) (i : Instr), decode nreg w = .ok i → encode i = w ∧ i.wf nreg = true

/-- R104, and D3 for fewer than 16 registers (log 9): the illegal words; the Engine accepts one like any other word, and
completes it with E_ILLEGAL, ERRINFO = the word, and nothing else. -/
def Obligations.IllegalWordsCompleteWithEIllegal : Prop :=
  ∀ w : Word32,
    (∀ nreg, 1 ≤ nreg → (IllegalWord nreg w ↔ ∃ e, decode nreg w = .error e)) ∧
      (∀ (s : State) (es : List Event), s.busy = false → s.rst = false → WriteNext s 0x000C w es →
        step s = .next { s.accept w with resp := some .accepted, events := es }) ∧
      ∀ (s : State) (es : List Event), s.params.legal = true → IllegalWord s.params.nreg w → s.cur = w →
        s.busy = true → s.rst = false → EngineNext s es →
        step s = .next (failed { s with events := es } .illegal w)

/-- Words of 95_test_vectors.md V-ENC-WORD decode to the commands they stand for. -/
def Obligations.SpecWordsDecode : Prop :=
  decode 16 0x00021301#32 = .ok (.gcd 3 1 2) ∧ decode 16 0x00021D02#32 = .ok (.egcd 13 1 2) ∧
    decode 16 0x00321405#32 = .ok (.modexp 4 1 2 3) ∧ decode 16 0x00001206#32 = .ok (.isprime 2 1) ∧
    decode 16 0x00321011#32 = .ok (.dec 1 2 3) ∧ decode 16 0x00000020#32 = .ok .shainit ∧
    decode 16 0x00001021#32 = .ok (.shablk 1)

/-! ### The Engine -/

/-- A step runs the decoded command: with the Engine's turn next and a command running, the step is `exec` of the
command `cur` decodes to, on the state whose events are those after the turn (R261). -/
def Obligations.StepRunsDecodedCommand : Prop :=
  ∀ (s : State) (es : List Event) (i : Instr), s.busy = true → s.rst = false → EngineNext s es →
    decode s.params.nreg s.cur = .ok i → step s = exec i { s with events := es }

/-- R261: the completion step always exists, ends the command, sets DONE, and writes ERRINFO = 0 on success; the
command latch, LASTCMD, CTRL and the ports are not touched. -/
def Obligations.EveryRunningCommandCompletes : Prop :=
  ∀ (s : State) (es : List Event), s.busy = true → s.rst = false → EngineNext s es →
    ∃ t, step s = .next t ∧ t.busy = false ∧ t.done = true ∧ (t.errcode = .ok → t.errinfo = 0) ∧ t.cur = s.cur ∧
      t.lastcmd = s.lastcmd ∧ t.ie = s.ie ∧ t.rst = s.rst ∧ t.resp = s.resp ∧ t.params = s.params ∧
      t.draws = s.draws ∧ t.events = es

/-- R262: a completion with an error writes ERRCODE, ERRINFO, DONE and `busy`, and nothing else. -/
def Obligations.ErrorCompletionIsAllOrNothing : Prop :=
  ∀ (s t : State) (es : List Event), s.busy = true → s.rst = false → EngineNext s es → step s = .next t →
    t.errcode ≠ .ok → t = failed { s with events := es } t.errcode t.errinfo

/-- R78 and R75: whatever transactions the Host issues while a command runs, the command's completion is that of the
operands, H and buffers it was accepted with; only CTRL.IE, DONE, TRUNC and the bus answer may differ. -/
def Obligations.CommandIsAtomicToTheHost : Prop :=
  ∀ (s : State) (i : Instr) (rs : List Request) (es : List Event), s.busy = true → s.rst = false →
    decode s.params.nreg s.cur = .ok i → s.events = rs.map .bus ++ .engine :: es →
    ∃ (s1 t : State), s1 = { s with ie := s1.ie, done := s1.done, trunc := s1.trunc, resp := s1.resp, events := es } ∧
      exec i s1 = .next t ∧ Sys2Proof.core.run (rs.length + 1) s = .next t

/-! ### The modular arithmetic unit -/

/-- R132: Euclid's algorithm, and it computes the greatest common divisor. -/
def Obligations.GcdFunctionIsEuclid : Prop :=
  ∀ a b : Nat, Machine.gcd a b = (if b = 0 then a else Machine.gcd b (a % b)) ∧ Machine.gcd a b = Nat.gcd a b

/-- R134: the classic recursion, Bezout's identity, the iterative form, and the bound that makes `tc_64` exact. -/
def Obligations.EgcdFunctionIsClassic : Prop :=
  ∀ a b : Nat,
    egcd a b = (if b = 0 then (a, 1, 0) else
      ((egcd b (a % b)).1, (egcd b (a % b)).2.2, (egcd b (a % b)).2.1 - (a / b : Nat) * (egcd b (a % b)).2.2)) ∧
    (egcd a b).1 = Nat.gcd a b ∧ (a : Int) * (egcd a b).2.1 + b * (egcd a b).2.2 = Nat.gcd a b ∧
    egcdIterative (b + 1) (a, b) (1, 0) (0, 1) = egcd a b ∧
    (a < 2 ^ 64 → b < 2 ^ 64 →
      -2 ^ 63 ≤ (egcd a b).2.1 ∧ (egcd a b).2.1 < 2 ^ 63 ∧ -2 ^ 63 ≤ (egcd a b).2.2 ∧ (egcd a b).2.2 < 2 ^ 63)

/-- R131: GCD, encoding and effect. -/
def Obligations.GcdCommand : Prop :=
  ∀ (s : State) (rd rs1 rs2 : Reg),
    decode 16 (packWord 0 0 rs2 rs1 rd 0x01#8) = .ok (.gcd rd rs1 rs2) ∧
      ∃ t, exec (.gcd rd rs1 rs2) s = .next t ∧
        WroteRegister s t rd (Nat.gcd (s.x rs1).toNat (s.x rs2).toNat)

/-- R133: EGCD, encoding, effect and error. When `rd+2` is a register, `rd <= 13` with `NREG` = 16 (log 9), the three
destinations hold the triple, the coefficients in two's complement of `WORD` bits, which is `tc_64` here, and nothing
else but the completion is written; otherwise, or with a nonzero `resv` or `rs3`, the word is illegal and ends with
E_ILLEGAL. -/
def Obligations.EgcdCommand : Prop :=
  ∀ (s : State) (rd rs1 rs2 : Reg),
    (rd.val ≤ 13 → decode 16 (packWord 0 0 rs2 rs1 rd 0x02#8) = .ok (.egcd rd rs1 rs2)) ∧
    (s.params.legal = true → rd.val + 2 < s.params.nreg →
      ∃ t, exec (.egcd rd rs1 rs2) s = .next t ∧
        (t.x rd).toNat = (egcd (s.x rs1).toNat (s.x rs2).toNat).1 ∧
        (∀ j : Reg, j.val = rd.val + 1 →
          ((t.x j).toNat : Int) = (egcd (s.x rs1).toNat (s.x rs2).toNat).2.1 % 2 ^ s.params.word) ∧
        (∀ j : Reg, j.val = rd.val + 2 →
          ((t.x j).toNat : Int) = (egcd (s.x rs1).toNat (s.x rs2).toNat).2.2 % 2 ^ s.params.word) ∧
        (∀ j : Reg, j.val < rd.val ∨ rd.val + 2 < j.val → t.x j = s.x j) ∧
        t = { s with regs := t.regs, errcode := .ok, errinfo := 0, done := true, busy := false }) ∧
    (∀ (resv : BitVec 8) (rs3 : Reg) (es : List Event), s.params.nreg ≤ rd.val + 2 ∨ resv ≠ 0 ∨ rs3.val ≠ 0 →
      s.cur = packWord resv rs3 rs2 rs1 rd 0x02#8 → s.busy = true → s.rst = false → EngineNext s es →
      step s = .next (failed { s with events := es } .illegal s.cur))

/-- R130 and R134: EGCD loses nothing. Read as signed numbers of `WORD` bits, the registers written meet Bezout's
identity with the operands. The rules say so of `tc_64`, with `WORD` = 64 as in this hardware; the two's complement of
fewer bits is the model's choice (log 9). -/
def Obligations.EgcdRegistersMeetBezout : Prop :=
  ∀ (s t : State) (rd j k rs1 rs2 : Reg), j.val = rd.val + 1 → k.val = rd.val + 2 →
    s.params.legal = true → k.val < s.params.nreg → exec (.egcd rd rs1 rs2) s = .next t →
    ((s.x rs1).toNat : Int) * ((t.x j).toNat : Int).bmod (2 ^ s.params.word) +
        ((s.x rs2).toNat : Int) * ((t.x k).toNat : Int).bmod (2 ^ s.params.word) = (t.x rd).toNat ∧
      (t.x rd).toNat = Nat.gcd (s.x rs1).toNat (s.x rs2).toNat

/-- R135: MODINV, encoding, effect and errors. -/
def Obligations.ModinvCommand : Prop :=
  ∀ (s : State) (rd rs1 rs2 : Reg),
    decode 16 (packWord 0 0 rs2 rs1 rd 0x03#8) = .ok (.modinv rd rs1 rs2) ∧
    ((s.x rs2).toNat ≠ 0 → Nat.gcd (s.x rs1).toNat (s.x rs2).toNat = 1 →
      ∃ t d, exec (.modinv rd rs1 rs2) s = .next t ∧ WroteRegister s t rd d ∧ d < (s.x rs2).toNat ∧
        (s.x rs1).toNat * d % (s.x rs2).toNat = 1 % (s.x rs2).toNat) ∧
    ((s.x rs2).toNat = 0 → exec (.modinv rd rs1 rs2) s = .next (failed s .zmod 0)) ∧
    ((s.x rs2).toNat ≠ 0 → Nat.gcd (s.x rs1).toNat (s.x rs2).toNat ≠ 1 →
      exec (.modinv rd rs1 rs2) s = .next (failed s .notcoprime 0))

/-- R137: MODMUL, encoding, effect and error. -/
def Obligations.ModmulCommand : Prop :=
  ∀ (s : State) (rd rs1 rs2 rs3 : Reg),
    decode 16 (packWord 0 rs3 rs2 rs1 rd 0x04#8) = .ok (.modmul rd rs1 rs2 rs3) ∧
    (s.params.legal = true → (s.x rs3).toNat ≠ 0 →
      ∃ t, exec (.modmul rd rs1 rs2 rs3) s = .next t ∧
        WroteRegister s t rd ((s.x rs1).toNat * (s.x rs2).toNat % (s.x rs3).toNat)) ∧
    ((s.x rs3).toNat = 0 → exec (.modmul rd rs1 rs2 rs3) s = .next (failed s .zmod 0))

/-- R139 and R138: MODEXP, encoding, effect and error; `0^0 = 1`. -/
def Obligations.ModexpCommand : Prop :=
  ∀ (s : State) (rd rs1 rs2 rs3 : Reg),
    decode 16 (packWord 0 rs3 rs2 rs1 rd 0x05#8) = .ok (.modexp rd rs1 rs2 rs3) ∧
    (s.params.legal = true → (s.x rs3).toNat ≠ 0 →
      ∃ t, exec (.modexp rd rs1 rs2 rs3) s = .next t ∧
        WroteRegister s t rd ((s.x rs1).toNat ^ (s.x rs2).toNat % (s.x rs3).toNat)) ∧
    ((s.x rs3).toNat = 0 → exec (.modexp rd rs1 rs2 rs3) s = .next (failed s .zmod 0))

/-- R171 and R170: ISPRIME writes 1 exactly when its operand is a prime number, else 0. -/
def Obligations.IsprimeCommand : Prop :=
  ∀ (s : State) (rd rs1 : Reg),
    decode 16 (packWord 0 0 0 rs1 rd 0x06#8) = .ok (.isprime rd rs1) ∧
      (s.params.legal = true → ∃ t n, exec (.isprime rd rs1) s = .next t ∧ WroteRegister s t rd n ∧
        (Nat.Prime (s.x rs1).toNat → n = 1) ∧ (¬ Nat.Prime (s.x rs1).toNat → n = 0))

/-! ### The RSA cipher core -/

/-- R182 and R181: ENC, encoding, effect and errors. It stores to `CT[0..len-1]`, aperture bytes 0x2000 to
0x2000 + 8*len - 1, and every other byte reads as before. -/
def Obligations.EncCommand : Prop :=
  ∀ (s : State) (rs1 rs2 rs3 : Reg) (len : Nat), len = (s.x rs3).toNat →
    decode 16 (packWord 0 rs3 rs2 rs1 0 0x10#8) = .ok (.enc rs1 rs2 rs3) ∧
    (s.params.legal = true → len ≤ s.params.txtSize → len ≤ s.params.ctSize → (s.x rs2).toNat ≠ 0 →
      (∀ i < len, (s.txt i).toNat < (s.x rs2).toNat) →
      ∃ t, exec (.enc rs1 rs2 rs3) s = .next t ∧
        (∀ i < len, (t.ct i).toNat = (s.txt i).toNat ^ (s.x rs1).toNat % (s.x rs2).toNat) ∧
        (∀ a, a < 0x2000 ∨ 0x2000 + 8 * len ≤ a → t.byteAt a = s.byteAt a) ∧
        t = { s with mem := t.mem, errcode := .ok, errinfo := 0, done := true, busy := false }) ∧
    (s.params.txtSize < len ∨ s.params.ctSize < len → exec (.enc rs1 rs2 rs3) s = .next (failed s .bounds 0)) ∧
    (len ≤ s.params.txtSize → len ≤ s.params.ctSize → (s.x rs2).toNat = 0 →
      exec (.enc rs1 rs2 rs3) s = .next (failed s .zmod 0)) ∧
    (∀ i < len, len ≤ s.params.txtSize → len ≤ s.params.ctSize → (s.x rs2).toNat ≠ 0 →
      (s.x rs2).toNat ≤ (s.txt i).toNat →
      (∀ j < i, (s.txt j).toNat < (s.x rs2).toNat) →
      exec (.enc rs1 rs2 rs3) s = .next (failed s .range (BitVec.ofNat 32 i)))

/-- R184, R185 and R181: DEC, encoding, effect and errors. It stores to `TXT[0..len-1]`, aperture bytes 0x1000 to
0x1000 + len - 1, sets TRUNC when some value is 256 or more, and never clears it. -/
def Obligations.DecCommand : Prop :=
  ∀ (s : State) (rs1 rs2 rs3 : Reg) (len : Nat), len = (s.x rs3).toNat →
    decode 16 (packWord 0 rs3 rs2 rs1 0 0x11#8) = .ok (.dec rs1 rs2 rs3) ∧
    (s.params.legal = true → len ≤ s.params.txtSize → len ≤ s.params.ctSize → (s.x rs2).toNat ≠ 0 →
      ∃ t, exec (.dec rs1 rs2 rs3) s = .next t ∧
        (∀ i < len, (t.txt i).toNat = (s.ct i).toNat ^ (s.x rs1).toNat % (s.x rs2).toNat % 256) ∧
        (t.trunc = true ↔ s.trunc = true ∨ ∃ i < len, 256 ≤ (s.ct i).toNat ^ (s.x rs1).toNat % (s.x rs2).toNat) ∧
        (∀ a, a < 0x1000 ∨ 0x1000 + len ≤ a → t.byteAt a = s.byteAt a) ∧
        t = { s with mem := t.mem, trunc := t.trunc, errcode := .ok, errinfo := 0, done := true, busy := false }) ∧
    (s.params.txtSize < len ∨ s.params.ctSize < len → exec (.dec rs1 rs2 rs3) s = .next (failed s .bounds 0)) ∧
    (len ≤ s.params.txtSize → len ≤ s.params.ctSize → (s.x rs2).toNat = 0 →
      exec (.dec rs1 rs2 rs3) s = .next (failed s .zmod 0))

/-- R186: with a key of R244 (`n = p*q`, `e*d = 1` modulo `(p-1)*(q-1)`) and a prefix of bytes below `n`, DEC of what
ENC wrote restores the prefix and leaves TRUNC as it was, whatever happened to TXT and to the registers in between. -/
def Obligations.DecryptAfterEncryptRestoresText : Prop :=
  ∀ (s t u v : State) (rs1 rs2 rs3 ks1 ks2 ks3 : Reg) (p q e d len : Nat),
    p.Prime → q.Prime → p ≠ q → e * d % ((p - 1) * (q - 1)) = 1 % ((p - 1) * (q - 1)) →
    s.params.legal = true → len ≤ s.params.txtSize → len ≤ s.params.ctSize →
    (s.x rs1).toNat = e → (s.x rs2).toNat = p * q → (s.x rs3).toNat = len →
    (∀ i < len, (s.txt i).toNat < p * q) →
    exec (.enc rs1 rs2 rs3) s = .next t →
    u.params = s.params → (u.x ks1).toNat = d → (u.x ks2).toNat = p * q → (u.x ks3).toNat = len →
    (∀ i < len, u.ct i = t.ct i) →
    exec (.dec ks1 ks2 ks3) u = .next v →
    (∀ i < len, v.txt i = s.txt i) ∧ v.trunc = u.trunc ∧ v.errcode = .ok

/-! ### SHA-256 -/

/-- R203: the functions of SHA-256, with `SHA_WORD` = 32 as in this hardware. -/
def Obligations.ShaFunctionsAreR203 : Prop :=
  ∀ x y z : Word32,
    choice x y z = (x &&& y) ^^^ (~~~x &&& z) ∧ majority x y z = (x &&& y) ^^^ (x &&& z) ^^^ (y &&& z) ∧
    bigSigma0 32 x = x.rotateRight 2 ^^^ x.rotateRight 13 ^^^ x.rotateRight 22 ∧
    bigSigma1 32 x = x.rotateRight 6 ^^^ x.rotateRight 11 ^^^ x.rotateRight 25 ∧
    smallSigma0 32 x = x.rotateRight 7 ^^^ x.rotateRight 18 ^^^ (x >>> 3) ∧
    smallSigma1 32 x = x.rotateRight 17 ^^^ x.rotateRight 19 ^^^ (x >>> 10)

/-- R211: SHAINIT, encoding and effect; 0x00000020 is the only legal word with its opcode. With fewer than 32 bits in a
state word it loads the low `SHA_WORD` bits (log 9). -/
def Obligations.ShainitCommand : Prop :=
  ∀ s : State, decode 16 0x00000020#32 = .ok .shainit ∧
    (∀ w : Word32, w.extractLsb 7 0 = 0x20#8 → w ≠ 0x00000020#32 → ∃ e, decode 16 w = .error e) ∧
    ∃ t, exec .shainit s = .next t ∧
      t.hash.toList =
        [0x6a09e667#32, 0xbb67ae85#32, 0x3c6ef372#32, 0xa54ff53a#32, 0x510e527f#32, 0x9b05688c#32, 0x1f83d9ab#32,
          0x5be0cd19#32].map (lowBits s.params.shaWord) ∧
      (∀ a, t.byteAt a = s.byteAt a) ∧
      t = { s with hash := t.hash, errcode := .ok, errinfo := 0, done := true, busy := false }

/-- R212 with R202, R204, R205 and R206: SHABLK, encoding, effect and error, and the 64 round constants. `W` is the
message schedule and `v k` the working variables after `k` rounds; every word has its low `n` bits, all 32 with
`SHA_WORD` = 32 as in this hardware, fewer by log 9. -/
def Obligations.ShablkCommand : Prop :=
  ∀ (s : State) (rs1 : Reg) (off n : Nat), off = (s.x rs1).toNat → n = s.params.shaWord →
    decode 16 (packWord 0 0 0 rs1 0 0x21#8) = .ok (.shablk rs1) ∧
    roundConstants =
      [0x428a2f98#32, 0x71374491#32, 0xb5c0fbcf#32, 0xe9b5dba5#32,
       0x3956c25b#32, 0x59f111f1#32, 0x923f82a4#32, 0xab1c5ed5#32] ++
      [0xd807aa98#32, 0x12835b01#32, 0x243185be#32, 0x550c7dc3#32,
       0x72be5d74#32, 0x80deb1fe#32, 0x9bdc06a7#32, 0xc19bf174#32] ++
      [0xe49b69c1#32, 0xefbe4786#32, 0x0fc19dc6#32, 0x240ca1cc#32,
       0x2de92c6f#32, 0x4a7484aa#32, 0x5cb0a9dc#32, 0x76f988da#32] ++
      [0x983e5152#32, 0xa831c66d#32, 0xb00327c8#32, 0xbf597fc7#32,
       0xc6e00bf3#32, 0xd5a79147#32, 0x06ca6351#32, 0x14292967#32] ++
      [0x27b70a85#32, 0x2e1b2138#32, 0x4d2c6dfc#32, 0x53380d13#32,
       0x650a7354#32, 0x766a0abb#32, 0x81c2c92e#32, 0x92722c85#32] ++
      [0xa2bfe8a1#32, 0xa81a664b#32, 0xc24b8b70#32, 0xc76c51a3#32,
       0xd192e819#32, 0xd6990624#32, 0xf40e3585#32, 0x106aa070#32] ++
      [0x19a4c116#32, 0x1e376c08#32, 0x2748774c#32, 0x34b0bcb5#32,
       0x391c0cb3#32, 0x4ed8aa4a#32, 0x5b9cca4f#32, 0x682e6ff3#32] ++
      [0x748f82ee#32, 0x78a5636f#32, 0x84c87814#32, 0x8cc70208#32,
       0x90befffa#32, 0xa4506ceb#32, 0xbef9a3f7#32, 0xc67178f2#32] ∧
    (off + 64 ≤ s.params.txtSize →
      ∃ (t : State) (W : Nat → Word32) (v : Nat → Working), exec (.shablk rs1) s = .next t ∧
        (∀ k < 16, W k = lowBits n (s.txt (off + 4 * k) ++ s.txt (off + 4 * k + 1) ++ s.txt (off + 4 * k + 2) ++
          s.txt (off + 4 * k + 3))) ∧
        (∀ k, 16 ≤ k → k < 64 →
          W k = lowBits n (smallSigma1 n (W (k - 2)) + W (k - 7) + smallSigma0 n (W (k - 15)) + W (k - 16))) ∧
        v 0 = ⟨s.hashValue[0], s.hashValue[1], s.hashValue[2], s.hashValue[3], s.hashValue[4], s.hashValue[5],
          s.hashValue[6], s.hashValue[7]⟩ ∧
        (∀ k < 64, v (k + 1) =
          let T1 := (v k).h + bigSigma1 n (v k).e + choice (v k).e (v k).f (v k).g + roundConstants.getD k 0 + W k
          let T2 := bigSigma0 n (v k).a + majority (v k).a (v k).b (v k).c
          ⟨lowBits n (T1 + T2), (v k).a, (v k).b, (v k).c, lowBits n ((v k).d + T1), (v k).e, (v k).f, (v k).g⟩) ∧
        t.hash = #v[lowBits n (s.hashValue[0] + (v 64).a), lowBits n (s.hashValue[1] + (v 64).b),
          lowBits n (s.hashValue[2] + (v 64).c), lowBits n (s.hashValue[3] + (v 64).d),
          lowBits n (s.hashValue[4] + (v 64).e), lowBits n (s.hashValue[5] + (v 64).f),
          lowBits n (s.hashValue[6] + (v 64).g), lowBits n (s.hashValue[7] + (v 64).h)] ∧
        (∀ a, t.byteAt a = s.byteAt a) ∧
        t = { s with hash := t.hash, errcode := .ok, errinfo := 0, done := true, busy := false }) ∧
    (s.params.txtSize < off + 64 → exec (.shablk rs1) s = .next (failed s .bounds 0))

/-- R241: one SHABLK takes the hash of the first `j` blocks of a padded message to that of the first `j + 1`, when the
Host has put block `j` into TXT at the offset it names. What a build with fewer than 32 bits in a state word computes is
the model's choice (log 9). -/
def Obligations.ShablkHashesOneMoreBlock : Prop :=
  ∀ (s t : State) (rs1 : Reg) (p : List Byte) (j : Nat), 64 * (j + 1) ≤ p.length →
    (s.x rs1).toNat + 64 ≤ s.params.txtSize →
    s.hash = hashBlocks s.params.shaWord (p.take (64 * j)) →
    (∀ k < 64, s.txt ((s.x rs1).toNat + k) = p.getD (64 * j + k) 0) →
    exec (.shablk rs1) s = .next t → t.hash = hashBlocks s.params.shaWord (p.take (64 * (j + 1)))

/-- R240: the padded message is a whole number of blocks, starts with the message and 0x80, then only zero bytes, then
the bit length in big-endian order, and no shorter padding does. R240 limits the message to below 2^61 bytes, as does
the clause about the length; that a longer one is padded as well is the model's choice (log 20). -/
def Obligations.PaddingIsR240 : Prop :=
  ∀ m : List Byte, (padMessage m).length % 64 = 0 ∧ (padMessage m).length < m.length + 1 + 8 + 64 ∧
    (padMessage m).take (m.length + 1) = m ++ [0x80#8] ∧
    (∀ k, m.length + 1 ≤ k → k + 8 < (padMessage m).length → (padMessage m)[k]? = some 0#8) ∧
    (m.length < 2 ^ 61 →
      ((padMessage m).drop ((padMessage m).length - 8)).foldl (fun n b => 256 * n + b.toNat) 0 = 8 * m.length)

/-- R207: the digest is the eight words, each big endian. -/
def Obligations.DigestIsBigEndian : Prop :=
  ∀ H : Vector Word32 8, (digest H).length = 32 ∧
    ∀ (i : Fin 8) (j : Fin 4), (digest H)[4 * i.val + j.val]? = some (H[i].extractLsb' (24 - 8 * j.val) 8)

/-! ### Frames -/

/-- The frame of the register commands (R21): GCD, EGCD, MODINV, MODMUL, MODEXP, ISPRIME write their destination
registers and the completion alone, and no byte of TXT or CT. -/
def Obligations.RegisterCommandsFrame : Prop :=
  ∀ (s t : State) (rd rs1 rs2 rs3 : Reg) (i : Instr),
    i ∈ [.gcd rd rs1 rs2, .egcd rd rs1 rs2, .modinv rd rs1 rs2, .modmul rd rs1 rs2 rs3, .modexp rd rs1 rs2 rs3,
      .isprime rd rs1] →
    exec i s = .next t →
    (∀ j : Reg, j.val ∉ destinations i → t.x j = s.x j) ∧ t.hash = s.hash ∧ (∀ a, t.byteAt a = s.byteAt a) ∧
      t.trunc = s.trunc ∧ t.ie = s.ie ∧ t.cur = s.cur ∧ t.lastcmd = s.lastcmd ∧ t.rst = s.rst ∧ t.resp = s.resp ∧
      t.params = s.params ∧ t.done = true ∧ t.busy = false

/-- The frame of the buffer commands (R21): ENC stores to the bytes of `CT[0..len-1]` and DEC to those of
`TXT[0..len-1]`, no other byte, no register, no H word; ENC never changes TRUNC. -/
def Obligations.BufferCommandsFrame : Prop :=
  ∀ (s t : State) (rs1 rs2 rs3 : Reg),
    (exec (.enc rs1 rs2 rs3) s = .next t →
      (∀ j, t.x j = s.x j) ∧ t.hash = s.hash ∧ t.trunc = s.trunc ∧ t.ie = s.ie ∧ t.cur = s.cur ∧
        t.lastcmd = s.lastcmd ∧ t.rst = s.rst ∧ t.resp = s.resp ∧ t.params = s.params ∧ t.done = true ∧
        t.busy = false ∧ ∀ a, a < ctOffset 0 ∨ ctOffset (s.x rs3).toNat ≤ a → t.byteAt a = s.byteAt a) ∧
    (exec (.dec rs1 rs2 rs3) s = .next t →
      (∀ j, t.x j = s.x j) ∧ t.hash = s.hash ∧ (s.trunc = true → t.trunc = true) ∧ t.ie = s.ie ∧ t.cur = s.cur ∧
        t.lastcmd = s.lastcmd ∧ t.rst = s.rst ∧ t.resp = s.resp ∧ t.params = s.params ∧ t.done = true ∧
        t.busy = false ∧ ∀ a, a < txtOffset 0 ∨ txtOffset (s.x rs3).toNat ≤ a → t.byteAt a = s.byteAt a)

/-- The frame of SHAINIT and SHABLK (R21): no register and no byte of TXT or CT. -/
def Obligations.HashCommandsFrame : Prop :=
  ∀ (s t : State) (rs1 : Reg) (i : Instr), i ∈ [.shainit, .shablk rs1] → exec i s = .next t →
    (∀ j, t.x j = s.x j) ∧ (∀ a, t.byteAt a = s.byteAt a) ∧ t.trunc = s.trunc ∧ t.ie = s.ie ∧ t.cur = s.cur ∧
      t.lastcmd = s.lastcmd ∧ t.rst = s.rst ∧ t.resp = s.resp ∧ t.params = s.params ∧ t.done = true ∧ t.busy = false

/-! ### The bus -/

/-- R70: a write to CMD while idle accepts the word, legal or not, and leaves DONE and TRUNC; an illegal word then
completes with E_ILLEGAL. While busy the write gets a bus error and is not a command. -/
def Obligations.CmdWriteAcceptsCommand : Prop :=
  ∀ (s : State) (w : Word32) (es : List Event), s.rst = false → WriteNext s 0x000C w es →
    (s.busy = false →
      step s = .next { s with busy := true, cur := w, lastcmd := w, errcode := .ok, errinfo := 0,
                              resp := some .accepted, events := es }) ∧
    (∀ e es', s.busy = false → decode s.params.nreg w = .error e → es = .engine :: es' →
      Sys2Proof.core.run 2 s = .next { s with busy := false, cur := w, lastcmd := w, errcode := .illegal, errinfo := w,
                                              done := true, resp := some .accepted, events := es' }) ∧
    (s.busy = true → step s = .next { s with resp := some .busError, events := es })

/-- R62, R64 and R66: exactly these transactions get a bus error, which changes no state and returns read data 0;
every other one is served. With fewer than 16 registers, that the offsets of the missing ones are reserved is the
model's reading (log 9). -/
def Obligations.BusErrorsChangeNothing : Prop :=
  (Response.busError).readData = some 0 ∧
    ∀ (s : State) (r : Request) (es : List Event), s.params.legal = true → s.events = .bus r :: es →
      (BusError s r → step s = .next { s with events := es, resp := some .busError }) ∧
      (¬ BusError s r → ∃ t, step s = .next t ∧ t.resp ≠ some .busError ∧ t.resp ≠ none)

/-- R72: no read has a side effect, whatever it reads and whether or not it is served. -/
def Obligations.ReadsHaveNoSideEffect : Prop :=
  ∀ (s : State) (r : Request) (es : List Event), s.events = .bus r :: es → r.write = false →
    ∃ a, step s = .next { s with events := es, resp := some a } ∧ a ≠ .accepted

/-- R24, R25, R27, R29, R30, R31 and R32: what the control registers read as, busy or not, with the code numbers of
R260. -/
def Obligations.ControlRegistersRead : Prop :=
  Config.hardware.idValue = 0x43430001#32 ∧
    (ErrCode.ok.code = 0#4 ∧ ErrCode.illegal.code = 1#4 ∧ ErrCode.bounds.code = 2#4 ∧ ErrCode.zmod.code = 3#4 ∧
      ErrCode.range.code = 4#4 ∧ ErrCode.notcoprime.code = 5#4) ∧
    ∀ (s : State) (es : List Event), s.rst = false →
    (ReadNext s 0x0000 es → step s = .next { s with events := es, resp := some (.data s.params.idValue) }) ∧
    (ReadNext s 0x000C es → step s = .next { s with events := es, resp := some (.data s.lastcmd) }) ∧
    (ReadNext s 0x0010 es → step s = .next { s with events := es, resp := some (.data s.errinfo) }) ∧
    (ReadNext s 0x0004 es → ∃ v, step s = .next { s with events := es, resp := some (.data v) } ∧
      v.getLsbD 0 = s.ie ∧ v.extractLsb 31 1 = 0) ∧
    (ReadNext s 0x0008 es → ∃ v, step s = .next { s with events := es, resp := some (.data v) } ∧
      v.getLsbD 0 = s.busy ∧ v.getLsbD 1 = s.done ∧ (v.getLsbD 2 = true ↔ s.errcode ≠ .ok) ∧ v.getLsbD 3 = s.trunc ∧
      v.extractLsb 7 4 = 0 ∧ v.extractLsb 11 8 = s.errcode.code ∧ v.extractLsb 31 12 = 0)

/-- R65, R24 and R30: what writes to the control registers do. STATUS clears DONE and TRUNC where the written bit is 1;
CTRL takes IE from bit 0; ID and ERRINFO ignore the write; each is served busy or not. -/
def Obligations.ControlRegistersWrite : Prop :=
  ∀ (s : State) (v : Word32) (es : List Event), s.rst = false →
    (WriteNext s 0x0008 v es → ∃ t, step s = .next t ∧ (t.done = true ↔ s.done = true ∧ v.getLsbD 1 = false) ∧
      (t.trunc = true ↔ s.trunc = true ∧ v.getLsbD 3 = false) ∧
      t = { s with done := t.done, trunc := t.trunc, events := es, resp := some .accepted }) ∧
    (WriteNext s 0x0004 v es →
      step s = .next { s with ie := v.getLsbD 0, events := es, resp := some .accepted }) ∧
    (WriteNext s 0x0000 v es → step s = .next { s with events := es, resp := some .accepted }) ∧
    (WriteNext s 0x0010 v es → step s = .next { s with events := es, resp := some .accepted })

/-- R33: the Host reads `Hi` while idle, and its writes are ignored. With `SHA_WORD` below 32 the bits that the build
lacks read 0 (log 9). -/
def Obligations.HashWindowIsReadOnly : Prop :=
  ∀ (s : State) (i : Fin 8) (v : Word32) (es : List Event), s.rst = false → s.busy = false →
    (ReadNext s (0x0180 + 4 * i.val) es → step s = .next { s with events := es, resp := some (.data s.hashValue[i]) }) ∧
    (WriteNext s (0x0180 + 4 * i.val) v es → step s = .next { s with events := es, resp := some .accepted })

/-- R67: the two halves of an operand register, read and written while idle; a write to one half leaves the other half
unchanged. With `WORD` = 64 the half written reads `v`; with fewer bits, those it has (log 9). -/
def Obligations.RegisterHalves : Prop :=
  ∀ (s : State) (i : Reg) (v : Word32) (es : List Event), i.val < s.params.nreg → s.rst = false → s.busy = false →
    (ReadNext s (0x0100 + 8 * i.val) es →
      step s = .next { s with events := es, resp := some (.data ((s.x i).extractLsb 31 0)) }) ∧
    (ReadNext s (0x0104 + 8 * i.val) es →
      step s = .next { s with events := es, resp := some (.data ((s.x i).extractLsb 63 32)) }) ∧
    (WriteNext s (0x0100 + 8 * i.val) v es → ∃ t, step s = .next t ∧
      ((t.x i).extractLsb 31 0).toNat = v.toNat % 2 ^ s.params.word ∧ (t.x i).extractLsb 63 32 = (s.x i).extractLsb 63 32 ∧
      (∀ j, j ≠ i → t.x j = s.x j) ∧ t = { s with regs := t.regs, events := es, resp := some .accepted }) ∧
    (WriteNext s (0x0104 + 8 * i.val) v es → ∃ t, step s = .next t ∧
      ((t.x i).extractLsb 63 32).toNat = v.toNat % 2 ^ (s.params.word - 32) ∧ (t.x i).extractLsb 31 0 = (s.x i).extractLsb 31 0 ∧
      (∀ j, j ≠ i → t.x j = s.x j) ∧ t = { s with regs := t.regs, events := es, resp := some .accepted })

/-- R68: the TXT window packs four bytes, the lowest-numbered in the least significant lane; a write replaces all four
and no other byte. -/
def Obligations.TxtWindow : Prop :=
  ∀ (s : State) (k : Nat) (v : Word32) (es : List Event), s.params.legal = true → 4 * k < s.params.txtSize →
    s.rst = false → s.busy = false →
    (ReadNext s (0x1000 + 4 * k) es → ∃ w : Word32,
      w = s.txt (4 * k + 3) ++ s.txt (4 * k + 2) ++ s.txt (4 * k + 1) ++ s.txt (4 * k) ∧
      step s = .next { s with events := es, resp := some (.data w) }) ∧
    (WriteNext s (0x1000 + 4 * k) v es → ∃ t, step s = .next t ∧
      t.txt (4 * k) = v.extractLsb 7 0 ∧ t.txt (4 * k + 1) = v.extractLsb 15 8 ∧
      t.txt (4 * k + 2) = v.extractLsb 23 16 ∧ t.txt (4 * k + 3) = v.extractLsb 31 24 ∧
      (∀ a, a < 0x1000 + 4 * k ∨ 0x1000 + 4 * k + 4 ≤ a → t.byteAt a = s.byteAt a) ∧
      t = { s with mem := t.mem, events := es, resp := some .accepted })

/-- R69: the CT window, low word at the lower offset; a write to one half leaves the other half and every other entry
unchanged. With `WORD` = 64 the half written reads `v`; with fewer bits, those it has (log 9). -/
def Obligations.CtWindow : Prop :=
  ∀ (s : State) (k : Nat) (v : Word32) (es : List Event), s.params.legal = true → k < s.params.ctSize →
    s.rst = false → s.busy = false →
    (ReadNext s (0x2000 + 8 * k) es →
      step s = .next { s with events := es, resp := some (.data ((s.ct k).extractLsb 31 0)) }) ∧
    (ReadNext s (0x2004 + 8 * k) es →
      step s = .next { s with events := es, resp := some (.data ((s.ct k).extractLsb 63 32)) }) ∧
    (WriteNext s (0x2000 + 8 * k) v es → ∃ t, step s = .next t ∧
      ((t.ct k).extractLsb 31 0).toNat = v.toNat % 2 ^ s.params.word ∧ (t.ct k).extractLsb 63 32 = (s.ct k).extractLsb 63 32 ∧
      (∀ a, a < 0x2000 + 8 * k ∨ 0x2000 + 8 * k + 4 ≤ a → t.byteAt a = s.byteAt a) ∧
      t = { s with mem := t.mem, events := es, resp := some .accepted }) ∧
    (WriteNext s (0x2004 + 8 * k) v es → ∃ t, step s = .next t ∧
      ((t.ct k).extractLsb 63 32).toNat = v.toNat % 2 ^ (s.params.word - 32) ∧ (t.ct k).extractLsb 31 0 = (s.ct k).extractLsb 31 0 ∧
      (∀ a, a < 0x2004 + 8 * k ∨ 0x2004 + 8 * k + 4 ≤ a → t.byteAt a = s.byteAt a) ∧
      t = { s with mem := t.mem, events := es, resp := some .accepted })

/-! ### Whole-machine rules -/

/-- R26: DONE is cleared only by a write of 1 to bit 1 of STATUS, or by reset. -/
def Obligations.DoneIsSticky : Prop :=
  ∀ s t : State, step s = .next t → s.done = true → t.done = false →
    (∃ v es, WriteNext s 0x0008 v es ∧ v.getLsbD 1 = true) ∨ ResetNext s

/-- R28: TRUNC is set only by the successful completion of a DEC with a value of 256 or more, and cleared only by a
write of 1 to bit 3 of STATUS, or by reset. -/
def Obligations.TruncChangesOnlyAsR28Says : Prop :=
  ∀ s t : State, s.params.legal = true → step s = .next t →
    (s.trunc = false → t.trunc = true → s.busy = true ∧ t.errcode = .ok ∧
      ∃ rs1 rs2 rs3, decode s.params.nreg s.cur = .ok (.dec rs1 rs2 rs3) ∧
        ∃ i < (s.x rs3).toNat, 256 ≤ (s.ct i).toNat ^ (s.x rs1).toNat % (s.x rs2).toNat) ∧
    (s.trunc = true → t.trunc = false →
      (∃ v es, WriteNext s 0x0008 v es ∧ v.getLsbD 3 = true) ∨ ResetNext s)

/-- R37 and R270: outside reset `irq` is the level `CTRL.IE & STATUS.DONE`. It is high after every completion while
IE = 1, success or error alike, and at once when IE is set while DONE is 1, and it goes low only by a write of 1 to
STATUS.DONE, a write of 0 to CTRL.IE, or reset. -/
def Obligations.IrqRisesAndStays : Prop :=
  (∀ s : State, s.rst = false → (s.irq = true ↔ s.ie = true ∧ s.done = true)) ∧
  ∀ s t : State, step s = .next t →
    (∀ es, s.busy = true → s.rst = false → s.ie = true → EngineNext s es → t.irq = true) ∧
    (∀ v es, s.rst = false → s.done = true → WriteNext s 0x0004 v es → v.getLsbD 0 = true → t.irq = true) ∧
    (s.irq = true → t.irq = false →
      (∃ v es, WriteNext s 0x0008 v es ∧ v.getLsbD 1 = true) ∨
        (∃ v es, WriteNext s 0x0004 v es ∧ v.getLsbD 0 = false) ∨ ResetNext s)

/-- R33: only SHAINIT and SHABLK, and reset, change the SHA-256 state. -/
def Obligations.HashChangesOnlyByShaCommands : Prop :=
  ∀ s t : State, step s = .next t → t.hash ≠ s.hash →
    (s.busy = true ∧ t.errcode = .ok ∧
      (decode s.params.nreg s.cur = .ok .shainit ∨ ∃ rs1, decode s.params.nreg s.cur = .ok (.shablk rs1))) ∨
      ResetNext s

/-- R20 and R21: an operand register changes only by a Host write to one of its halves while idle, by the success of a
command that names it as a destination, or by reset. -/
def Obligations.RegistersChangeOnlyAsR21Says : Prop :=
  ∀ (s t : State) (j : Reg), step s = .next t → t.x j ≠ s.x j →
    (s.busy = false ∧ ∃ v es, WriteNext s (0x0100 + 8 * j.val) v es ∨ WriteNext s (0x0104 + 8 * j.val) v es) ∨
      (s.busy = true ∧ t.errcode = .ok ∧ ∃ i, decode s.params.nreg s.cur = .ok i ∧ j.val ∈ destinations i) ∨
      ResetNext s

/-- R34 and R35: a byte of TXT or CT changes only by a Host write to its word while idle, by ENC (CT) or DEC (TXT)
below the length, or by reset. -/
def Obligations.BuffersChangeOnlyByTheirWriters : Prop :=
  ∀ (s t : State) (a : Nat), step s = .next t → t.byteAt a ≠ s.byteAt a →
    (s.busy = false ∧ ∃ b v es, WriteNext s b v es ∧ b ≤ a ∧ a < b + 4 ∧ BufferWindow s.params b) ∨
    (s.busy = true ∧ t.errcode = .ok ∧ ∃ rs1 rs2 rs3, decode s.params.nreg s.cur = .ok (.enc rs1 rs2 rs3) ∧
      0x2000 ≤ a ∧ a < 0x2000 + 8 * (s.x rs3).toNat) ∨
    (s.busy = true ∧ t.errcode = .ok ∧ ∃ rs1 rs2 rs3, decode s.params.nreg s.cur = .ok (.dec rs1 rs2 rs3) ∧
      0x1000 ≤ a ∧ a < 0x1000 + (s.x rs3).toNat) ∨ ResetNext s

/-- R66 and R303: while a command runs and the Engine has no turn, a transaction changes no register, no H word, no
buffer, not the command and not its record. -/
def Obligations.BusyLockout : Prop :=
  ∀ (s : State) (r : Request) (es : List Event), s.busy = true → s.events = .bus r :: es →
    ∃ t, step s = .next t ∧
      t = { s with ie := t.ie, done := t.done, trunc := t.trunc, resp := t.resp, events := es } ∧
      (r.offset.toNat ≠ 0x0004 ∨ r.write = false → t.ie = s.ie) ∧
      (r.offset.toNat ≠ 0x0008 ∨ r.write = false → t.done = s.done ∧ t.trunc = s.trunc)

/-- R300: putting `rst` to 1 gives every state element its reset value, abandons a running command, and makes TXT and CT
new draws, of the bits that the build has (log 9); putting it back to 0 changes nothing else. -/
def Obligations.ResetPin : Prop :=
  ∀ (s : State) (es : List Event),
    (s.events = .rst true :: es → ∃ t, step s = .next t ∧ t.rst = true ∧ t.irq = false ∧ t.busy = false ∧
      t.status = 0 ∧ t.ctrl = 0 ∧ t.errinfo = 0 ∧ t.lastcmd = 0 ∧ t.cur = 0 ∧ (∀ i, t.x i = 0) ∧
      t.hash = (State.resetWith s.params).hash ∧
      (∀ a, t.byteAt a = lowBits (byteBits s.params a) (Config.drawByte t.draws a)) ∧ t.draws ≠ s.draws ∧
      t.params = s.params ∧ t.events = es) ∧
    (s.events = .rst false :: es → step s = .next { s with rst := false, events := es })

/-- R300: while `rst` is 1 every transaction gets a bus error, `irq` is 0 and no command completes: until the pin moves,
a step changes the bus answer at most. -/
def Obligations.HeldInReset : Prop :=
  ∀ s t : State, s.rst = true → (∀ level es, s.events ≠ .rst level :: es) → step s = .next t →
    t.irq = false ∧ t = { s with resp := t.resp, events := t.events } ∧
      (∀ r es, s.events = .bus r :: es → t.resp = some .busError ∧ t.events = es)

/-- R242 to R245 with R171, R131 and R135: what the block gives the Host in key setup, for operands that fit a
register. ISPRIME reads back 1 exactly for a prime, GCD the greatest common divisor, MODINV the inverse, or its
completion with E_NOTCOPRIME the ArithmeticError. Each leaves an idle block, in which only the plan's registers, DONE,
LASTCMD, `cur`, the error record and the bus answer can differ. -/
def Obligations.KeySetupUsesTheBlock : Prop :=
  ∀ (plan : KeyPlan) (a b : Word) (s : State), s.params.legal = true → plan.legal s.params = true → s.busy = false →
    s.rst = false → a.toNat < 2 ^ s.params.word → b.toNat < 2 ^ s.params.word →
    ((hostIsprime plan a s).1 = 1 ↔ a.toNat.Prime) ∧
    (hostGcd plan a b s).1.toNat = Nat.gcd a.toNat b.toNat ∧
    (b ≠ 0 → Nat.gcd a.toNat b.toNat = 1 → ∃ d, (hostModinv plan a b s).1 = .ok d ∧ d.toNat < b.toNat ∧
      a.toNat * d.toNat % b.toNat = 1 % b.toNat) ∧
    (b ≠ 0 → Nat.gcd a.toNat b.toNat ≠ 1 → (hostModinv plan a b s).1 = .error .arithmeticError ∧
      (hostModinv plan a b s).2.errcode = .notcoprime) ∧
    ∀ t ∈ [(hostIsprime plan a s).2, (hostGcd plan a b s).2, (hostModinv plan a b s).2],
      t = { s with regs := t.regs, cur := t.cur, lastcmd := t.lastcmd, done := t.done, errcode := t.errcode,
                   errinfo := t.errinfo, resp := t.resp } ∧
      ∀ i, i ≠ plan.rs1 → i ≠ plan.rs2 → i ≠ plan.rd → t.x i = s.x i

/-- R242 to R245: on an idle block, key setup never meets the ArithmeticError, and a key it gives has the source's
invariant, for a prime range whose products fit an operand register (R244). The block is idle after it, whether or not a
key came, with H, TXT, CT and every register outside the plan as before. -/
def Obligations.GeneratedKeysAreRsaKeys : Prop :=
  ∀ (h : Config.HostParams) (plan : KeyPlan) (s : State) (source : List Word) (result : Except KeySetupError KeyPair)
    (left : KeySetup), h.legal s.params = true → s.params.legal = true → plan.legal s.params = true → s.busy = false →
    s.rst = false → generateKeypair h plan ⟨s, source⟩ = (result, left) →
    result ≠ .error .arithmeticError ∧
    (∀ k, result = .ok k →
      ∃ p q, p.Prime ∧ q.Prime ∧ p ≠ q ∧ h.primeLo ≤ p ∧ p < h.primeHi ∧ h.primeLo ≤ q ∧ q < h.primeHi ∧
        k.n.toNat = p * q ∧ 2 ≤ k.e.toNat ∧ k.e.toNat < (p - 1) * (q - 1) ∧
        Nat.gcd k.e.toNat ((p - 1) * (q - 1)) = 1 ∧ k.d.toNat < (p - 1) * (q - 1) ∧
        k.e.toNat * k.d.toNat % ((p - 1) * (q - 1)) = 1) ∧
    left.block.busy = false ∧ left.block.hash = s.hash ∧ (∀ a, left.block.byteAt a = s.byteAt a) ∧
    ∀ i, i ≠ plan.rs1 → i ≠ plan.rs2 → i ≠ plan.rd → left.block.x i = s.x i

/-- R245 with R242 and R243: on an idle block, each resampling loop takes the first candidate that passes among its
first `RETRY_CAP` attempts, and otherwise reports KeyGenerationFailure, for a range and a `tot` that fit a register.
An attempt at the second prime is a whole loop of R242 with its own budget. That the random source is a list, and that
its end is reported like the cap, is the model's choice (log 18). -/
def Obligations.ResamplingStopsAtRetryCap : Prop :=
  ∀ (h : Config.HostParams) (plan : KeyPlan) (s : State) (source rest : List Word) (p c tot : Word),
    h.legal s.params = true → s.params.legal = true → plan.legal s.params = true → s.busy = false → s.rst = false →
    tot.toNat < 2 ^ s.params.word →
    ((∃ t, samplePrime h plan ⟨s, source⟩ = (.ok c, ⟨t, rest⟩)) ↔
      h.primeLo ≤ c.toNat ∧ c.toNat < h.primeHi ∧ c.toNat.Prime ∧
      ∃ skipped, source = skipped ++ c :: rest ∧ skipped.length < h.retryCap ∧
        ∀ x ∈ skipped, ¬ (h.primeLo ≤ x.toNat ∧ x.toNat < h.primeHi ∧ x.toNat.Prime)) ∧
    ((samplePrime h plan ⟨s, source⟩).1 = .error .keyGenerationFailure ↔
      ∀ x ∈ source.take h.retryCap, ¬ (h.primeLo ≤ x.toNat ∧ x.toNat < h.primeHi ∧ x.toNat.Prime)) ∧
    ((∃ t, sampleExponent h plan tot ⟨s, source⟩ = (.ok c, ⟨t, rest⟩)) ↔
      2 ≤ c.toNat ∧ c.toNat < tot.toNat ∧ Nat.gcd c.toNat tot.toNat = 1 ∧
      ∃ skipped, source = skipped ++ c :: rest ∧ skipped.length < h.retryCap ∧
        ∀ x ∈ skipped, ¬ (2 ≤ x.toNat ∧ x.toNat < tot.toNat ∧ Nat.gcd x.toNat tot.toNat = 1)) ∧
    ((sampleExponent h plan tot ⟨s, source⟩).1 = .error .keyGenerationFailure ↔
      ∀ x ∈ source.take h.retryCap, ¬ (2 ≤ x.toNat ∧ x.toNat < tot.toNat ∧ Nat.gcd x.toNat tot.toNat = 1)) ∧
    ((∃ t, sampleOtherPrime h plan p ⟨s, source⟩ = (.ok c, ⟨t, rest⟩)) ↔ c ≠ p ∧
      ∃ (n : Nat) (left : Nat → List Word), n < h.retryCap ∧ left 0 = source ∧
        (∀ i < n, ∃ t, samplePrime h plan ⟨s, left i⟩ = (.ok p, ⟨t, left (i + 1)⟩)) ∧
        ∃ t, samplePrime h plan ⟨s, left n⟩ = (.ok c, ⟨t, rest⟩)) ∧
    (∀ x, (sampleOtherPrime h plan p ⟨s, source⟩).1 = .error x → x = .keyGenerationFailure)

/-! ### The Host's hashing procedure -/

/-- R241: driving an idle block by the procedure gives the digest of the message, wherever the Host puts each block in
TXT at an offset that a register holds, whichever register it uses and however often it polls; the procedure stops at
the first block whose offset is out of bounds, on STATUS.ERR. What it writes to TXT beside a block is the model's
choice (log 19), and so is the digest of a message of 2^61 bytes or more (log 20) and of every message with `SHA_WORD`
below 32 (log 9); it touches no byte of CT. -/
def Obligations.HashProcedureGivesTheDigest : Prop :=
  ∀ (plan : HashPlan) (m : List Byte) (s : State), s.params.legal = true → plan.rk.val < s.params.nreg →
    s.busy = false → s.rst = false →
    (∀ j, 64 * j < (padMessage m).length → plan.place j < 2 ^ s.params.word) →
    ((∀ j, 64 * j < (padMessage m).length → plan.place j + 64 ≤ s.params.txtSize) →
      (hashWithBlock plan m s).1 = some (sha256 s.params.shaWord m) ∧
        (hashWithBlock plan m s).2.hash = hashBlocks s.params.shaWord (padMessage m) ∧ (hashWithBlock plan m s).2.busy = false ∧
        (hashWithBlock plan m s).2.errcode = .ok ∧
        (∀ i, i ≠ plan.rk → (hashWithBlock plan m s).2.x i = s.x i) ∧
        (∀ a, 0x2000 ≤ a → (hashWithBlock plan m s).2.byteAt a = s.byteAt a)) ∧
    (∀ j, 64 * j < (padMessage m).length → (∀ i < j, plan.place i + 64 ≤ s.params.txtSize) →
      s.params.txtSize < plan.place j + 64 →
      (hashWithBlock plan m s).1 = none ∧ (hashWithBlock plan m s).2.errcode = .bounds)

/-! ### Parameters -/

/-- R7: the parameters are those of the build; no step changes them, and reset leaves this hardware's. -/
def Obligations.ParametersNeverChange : Prop :=
  State.reset.params = ⟨64, 128, 16, 32, 1024, 1024, 0x43430001#32⟩ ∧ ∀ s t : State, step s = .next t → t.params = s.params

/-- R130, R136 and R140: `PROD` bits hold the product of two operands without loss, so the remainder is that of the
exact product. -/
def Obligations.WideProductIsExact : Prop :=
  ∀ (s : State) (i j : Reg) (m : Nat), s.params.legal = true →
    wideProduct s.params.prod (s.x i).toNat (s.x j).toNat = (s.x i).toNat * (s.x j).toNat ∧
      mulmod s.params.prod (s.x i).toNat (s.x j).toNat m = (s.x i).toNat * (s.x j).toNat % m

/-- R7, R20, R33 and R35: with the parameters of the build, and in every state, an operand register and a ciphertext
entry hold a number of `WORD` bits and a SHA-256 state word one of `SHA_WORD` bits; a register holds the low `WORD`
bits of what is written to it. With `WORD` = 64 and `SHA_WORD` = 32, as in this hardware, that is every bit; what a
smaller build does is log 9. -/
def Obligations.ValuesHaveTheWidthsOfTheBuild : Prop :=
  ∀ (s : State) (i : Reg) (k : Nat) (j : Fin 8) (v : Word),
    (s.x i).toNat < 2 ^ s.params.word ∧ (s.ct k).toNat < 2 ^ s.params.word ∧
    s.hashValue[j].toNat < 2 ^ s.params.shaWord ∧ ((s.setX i v).x i).toNat = v.toNat % 2 ^ s.params.word ∧
    (s.params.word = 64 → s.x i = s.regs[i]) ∧ (s.params.shaWord = 32 → s.hashValue = s.hash)

/-- R20, R104 and D3: in a build with fewer registers the words that name a missing one are illegal, the rest decode
as in this hardware, and the offsets of a missing register get a bus error (which words and offsets these are is log
9). -/
def Obligations.FewerRegisters : Prop :=
  ∀ nreg, 1 ≤ nreg → nreg ≤ 16 →
    (∀ w i, decode nreg w = .ok i ↔ decode 16 w = .ok i ∧ ∀ r ∈ i.registers, r < nreg) ∧
    ∀ (s : State) (i : Reg) (r : Request) (es : List Event), s.params.nreg = nreg → nreg ≤ i.val →
      r.offset.toNat = 0x0100 + 8 * i.val ∨ r.offset.toNat = 0x0104 + 8 * i.val → s.events = .bus r :: es →
      step s = .next { s with events := es, resp := some .busError }
end

