-- ==== Sys2Proof/Laws/Arith.lean ====
section
/-! SUPPORT. What the arithmetic functions compute, in the terms of the integers. -/

namespace Sys2Proof.Machine

/-! ### gcd (R132) -/

theorem gcdLoop_eq (k a b : Nat) (h : b < k) : gcdLoop k a b = Nat.gcd a b := by
  induction k generalizing a b with
  | zero => omega
  | succ k ih =>
    simp only [gcdLoop]
    split
    · next hb => subst hb; simp
    · next hb =>
      have : a % b < b := Nat.mod_lt _ (by omega)
      rw [ih b (a % b) (by omega), Nat.gcd_comm, ← Nat.gcd_rec, Nat.gcd_comm]

/-- Euclid's algorithm computes the greatest common divisor. -/
theorem gcd_eq (a b : Nat) : gcd a b = Nat.gcd a b := gcdLoop_eq _ a b (Nat.lt_succ_self b)

/-! ### egcd (R134) -/

/-- The bound of the recursion does not matter once it exceeds the second argument. -/
theorem egcdLoop_eq_of_lt {k j a b : Nat} (hk : b < k) (hj : b < j) : egcdLoop k a b = egcdLoop j a b := by
  induction k generalizing a b j with
  | zero => omega
  | succ k ih =>
    match j, hj with
    | j + 1, hj =>
      simp only [egcdLoop]
      split
      · rfl
      · next hb =>
        have : a % b < b := Nat.mod_lt _ (by omega)
        rw [ih (j := j) (by omega) (by omega)]

/-- `egcd(a, 0) = (a, 1, 0)`. -/
@[simp] theorem egcd_zero (a : Nat) : egcd a 0 = (a, 1, 0) := rfl

/-- The recursion of R134. -/
theorem egcd_of_pos (a : Nat) {b : Nat} (hb : b ≠ 0) :
    egcd a b = ((egcd b (a % b)).1, (egcd b (a % b)).2.2,
      (egcd b (a % b)).2.1 - (a / b : Nat) * (egcd b (a % b)).2.2) := by
  have hlt : a % b < b := Nat.mod_lt _ (by omega)
  have h : egcdLoop b b (a % b) = egcd b (a % b) := egcdLoop_eq_of_lt hlt (Nat.lt_succ_self _)
  simp only [egcd, egcdLoop, if_neg hb] at *
  rw [h]

/-- The recursion of Euclid's algorithm, as an induction principle. -/
theorem euclid_induction {P : Nat → Nat → Prop} (zero : ∀ a, P a 0)
    (pos : ∀ a b, b ≠ 0 → P b (a % b) → P a b) (a b : Nat) : P a b := by
  induction b using Nat.strong_induction_on generalizing a with
  | _ b ih =>
    by_cases hb : b = 0
    · subst hb; exact zero a
    · exact pos a b hb (ih (a % b) (Nat.mod_lt _ (by omega)) b)

theorem egcd_fst (a b : Nat) : (egcd a b).1 = Nat.gcd a b := by
  induction a, b using euclid_induction with
  | zero a => simp
  | pos a b hb ih => rw [egcd_of_pos a hb]; simp only [ih]; rw [Nat.gcd_comm, ← Nat.gcd_rec, Nat.gcd_comm]

/-- Bezout's identity: `a*x + b*y = g`. -/
theorem egcd_bezout (a b : Nat) : (a : Int) * (egcd a b).2.1 + b * (egcd a b).2.2 = Nat.gcd a b := by
  induction a, b using euclid_induction with
  | zero a => simp
  | pos a b hb ih =>
    have hd : (a : Int) = b * (a / b : Nat) + (a % b : Nat) := by exact_mod_cast (Nat.div_add_mod a b).symm
    have hg : Nat.gcd b (a % b) = Nat.gcd a b := by rw [Nat.gcd_comm, ← Nat.gcd_rec, Nat.gcd_comm]
    rw [hg] at ih
    rw [egcd_of_pos a hb, ← ih]
    linear_combination (egcd b (a % b)).2.2 * hd

/-- When `b` divides `a`, the coefficients are 0 and 1. -/
theorem egcd_of_dvd {a b : Nat} (hb : b ≠ 0) (h : b ∣ a) : egcd a b = (b, 0, 1) := by
  rw [egcd_of_pos a hb, Nat.mod_eq_zero_of_dvd h]
  simp

/-- The bound of R134: `|x| <= b/(2g)` and `|y| <= a/(2g)` outside the trivial cases. -/
theorem egcd_bound {a b : Nat} (hb : b ≠ 0) (h : ¬ b ∣ a) :
    2 * (Nat.gcd a b : Int) * |(egcd a b).2.1| ≤ b ∧ 2 * (Nat.gcd a b : Int) * |(egcd a b).2.2| ≤ a := by
  induction a, b using euclid_induction with
  | zero a => exact absurd rfl hb
  | pos a b _ ih =>
    have hr : a % b ≠ 0 := fun e => h (Nat.dvd_of_mod_eq_zero e)
    have hlt : a % b < b := Nat.mod_lt _ (by omega)
    have hg : Nat.gcd b (a % b) = Nat.gcd a b := by rw [Nat.gcd_comm, ← Nat.gcd_rec, Nat.gcd_comm]
    have hd : (a : Int) = b * (a / b : Nat) + (a % b : Nat) := by exact_mod_cast (Nat.div_add_mod a b).symm
    have hq : (0 : Int) ≤ (a / b : Nat) := Int.natCast_nonneg _
    rw [egcd_of_pos a hb]
    simp only
    by_cases hdvd : a % b ∣ b
    · rw [egcd_of_dvd hr hdvd, ← hg, Nat.gcd_eq_right hdvd]
      obtain ⟨c, hc⟩ := hdvd
      have h2 : (2 : Int) * (a % b : Nat) ≤ b := by
        have : 2 ≤ c := by
          by_contra hc2
          have : c = 0 ∨ c = 1 := by omega
          rcases this with rfl | rfl <;> omega
        have := Nat.mul_le_mul_left (a % b) this
        have : 2 * (a % b) ≤ b := by rw [hc] at *; omega
        exact_mod_cast this
      constructor
      · simpa using h2
      · simp only [zero_sub, mul_one, abs_neg, abs_of_nonneg hq]
        have := mul_le_mul_of_nonneg_right h2 hq
        have hr0 : (0 : Int) ≤ (a % b : Nat) := Int.natCast_nonneg _
        linarith
    · obtain ⟨h1, h2⟩ := ih hr hdvd
      rw [hg] at h1 h2
      refine ⟨h2, ?_⟩
      have hg0 : (0 : Int) ≤ 2 * (Nat.gcd a b : Int) := by positivity
      have habs : |(egcd b (a % b)).2.1 - (a / b : Nat) * (egcd b (a % b)).2.2| ≤
          |(egcd b (a % b)).2.1| + (a / b : Nat) * |(egcd b (a % b)).2.2| := by
        refine (abs_sub _ _).trans ?_
        rw [abs_mul, abs_of_nonneg hq]
      have k1 := mul_le_mul_of_nonneg_left habs hg0
      have k2 := mul_le_mul_of_nonneg_left h2 hq
      nlinarith

/-- For operands of `w + 1` bits both coefficients fit the two's complement of as many (R134: 64). -/
theorem egcd_fits {w a b : Nat} (hw : 1 ≤ w) (ha : a < 2 ^ (w + 1)) (hb : b < 2 ^ (w + 1)) :
    (-2 ^ w ≤ (egcd a b).2.1 ∧ (egcd a b).2.1 < 2 ^ w) ∧ (-2 ^ w ≤ (egcd a b).2.2 ∧ (egcd a b).2.2 < 2 ^ w) := by
  have hp : (1 : Int) < 2 ^ w := by exact_mod_cast Nat.one_lt_two_pow (by omega)
  by_cases h0 : b = 0
  · subst h0; simp only [egcd_zero]; exact ⟨⟨by linarith, hp⟩, by linarith, by linarith⟩
  by_cases hdvd : b ∣ a
  · rw [egcd_of_dvd h0 hdvd]; exact ⟨⟨by linarith, by linarith⟩, by linarith, hp⟩
  obtain ⟨h1, h2⟩ := egcd_bound h0 hdvd
  have hg : (1 : Int) ≤ Nat.gcd a b := by
    have : 0 < Nat.gcd a b := Nat.gcd_pos_of_pos_right _ (by omega)
    exact_mod_cast this
  have k1 : |(egcd a b).2.1| ≤ (Nat.gcd a b : Int) * |(egcd a b).2.1| := le_mul_of_one_le_left (abs_nonneg _) hg
  have k2 : |(egcd a b).2.2| ≤ (Nat.gcd a b : Int) * |(egcd a b).2.2| := le_mul_of_one_le_left (abs_nonneg _) hg
  have ha' : (a : Int) < 2 * 2 ^ w := by rw [pow_succ] at ha; have := Int.ofNat_lt.2 ha; push_cast at this; linarith
  have hb' : (b : Int) < 2 * 2 ^ w := by rw [pow_succ] at hb; have := Int.ofNat_lt.2 hb; push_cast at this; linarith
  have m1 : |(egcd a b).2.1| < 2 ^ w := by nlinarith
  have m2 : |(egcd a b).2.2| < 2 ^ w := by nlinarith
  rw [abs_lt] at m1 m2
  exact ⟨⟨by linarith, m1.2⟩, ⟨by linarith, m2.2⟩⟩

/-! ### The inverse (R135) -/

theorem inverse_lt (e : Nat) {t : Nat} (ht : t ≠ 0) : inverse e t < t := by
  have h1 : (0 : Int) ≤ (egcd e t).2.1 % (t : Int) := Int.emod_nonneg _ (by exact_mod_cast ht)
  have h2 : (egcd e t).2.1 % (t : Int) < t := Int.emod_lt_of_pos _ (by omega)
  simp only [inverse]; omega

/-- `e*d mod t = 1 mod t` when `gcd(e, t) = 1`. -/
theorem inverse_spec {e t : Nat} (ht : t ≠ 0) (h : Nat.gcd e t = 1) : e * inverse e t % t = 1 % t := by
  have h1 : (0 : Int) ≤ (egcd e t).2.1 % (t : Int) := Int.emod_nonneg _ (by exact_mod_cast ht)
  have hb := egcd_bezout e t
  rw [h] at hb
  have key : ((e * inverse e t % t : Nat) : Int) = ((1 % t : Nat) : Int) := by
    push_cast [inverse, Int.toNat_of_nonneg h1]
    rw [Int.mul_emod, Int.emod_emod_of_dvd _ (dvd_refl _), ← Int.mul_emod, eq_sub_of_add_eq hb]
    push_cast
    rw [Int.sub_mul_emod_self_left]
  exact_mod_cast key

/-! ### The wide multiply (R130, R140) -/

/-- `PROD` bits hold the product of two `WORD`-bit values without loss, if there are twice as many (R140). -/
theorem wideProduct_eq {w prod a b : Nat} (hp : 2 * w ≤ prod) (ha : a < 2 ^ w) (hb : b < 2 ^ w) :
    wideProduct prod a b = a * b := by
  refine Nat.mod_eq_of_lt (lt_of_lt_of_le ?_ (Nat.pow_le_pow_right (by decide) hp))
  rw [two_mul, pow_add]
  exact Nat.mul_lt_mul'' ha hb

/-- The remainder of the exact product (R136). -/
theorem mulmod_eq {w prod a b : Nat} (hp : 2 * w ≤ prod) (ha : a < 2 ^ w) (hb : b < 2 ^ w) (m : Nat) :
    mulmod prod a b m = a * b % m := by
  rw [mulmod, wideProduct_eq hp ha hb]

theorem mulmod_lt (prod a b : Nat) {m : Nat} (hm : m ≠ 0) : mulmod prod a b m < m := Nat.mod_lt _ (by omega)

/-! ### modexp (R138) -/

theorem modexpLoop_eq {w prod : Nat} (hp : 2 * w ≤ prod) (j r b k : Nat) {m : Nat} (hmw : m ≤ 2 ^ w)
    (hk : k < 2 ^ j) (hr : r < m) (hb : b < m) : modexpLoop prod j r b k m = r * b ^ k % m := by
  induction j generalizing r b k with
  | zero =>
    obtain rfl : k = 0 := by simpa using hk
    simp [modexpLoop, Nat.mod_eq_of_lt hr]
  | succ j ih =>
    have hrb : mulmod prod r b m = r * b % m := mulmod_eq hp (by omega) (by omega) m
    have hbb : mulmod prod b b m = b * b % m := mulmod_eq hp (by omega) (by omega) m
    have lt : ∀ x, x % m < m := fun x => Nat.mod_lt _ (by omega)
    simp only [modexpLoop, hrb, hbb]
    split
    · next h0 => subst h0; simp [Nat.mod_eq_of_lt hr]
    · next h0 =>
      have hk2 : k / 2 < 2 ^ j := by rw [Nat.pow_succ] at hk; omega
      rw [ih _ _ _ hk2 (by split <;> simp [lt, hr]) (by split <;> simp [lt, hb])]
      have hsq : ∀ x : Nat, x * (if k / 2 = 0 then b else b * b % m) ^ (k / 2) % m = x * (b * b) ^ (k / 2) % m := by
        intro x
        split
        · next hz => simp [hz]
        · rw [Nat.mul_mod, ← Nat.pow_mod, ← Nat.mul_mod]
      rw [hsq, ← pow_two, ← pow_mul]
      split
      · next h1 =>
        have : k = 2 * (k / 2) + 1 := by omega
        conv_rhs => rw [this]
        rw [pow_succ, Nat.mul_mod, Nat.mod_mod, ← Nat.mul_mod]
        congr 1; ring
      · next h1 =>
        have : k = 2 * (k / 2) := by omega
        conv_rhs => rw [this]

theorem lt_two_pow_bitLength (k : Nat) : k < 2 ^ bitLength k := by
  unfold bitLength
  split
  · next h => subst h; simp
  · exact Nat.lt_log2_self

/-- "The result equals `base^exp mod m` for every input, with `0^0 = 1`" (R138), for a modulus that a register holds. -/
theorem modexp_eq {w prod : Nat} (hp : 2 * w ≤ prod) (base exp : Nat) {m : Nat} (hm : m ≠ 0)
    (hmw : m ≤ 2 ^ w) : modexp prod base exp m = base ^ exp % m := by
  have lt : ∀ x, x % m < m := fun x => Nat.mod_lt _ (by omega)
  rw [modexp, modexpLoop_eq hp _ _ _ _ hmw (lt_two_pow_bitLength exp) (lt 1) (lt base), Nat.mul_mod, Nat.mod_mod,
    ← Nat.pow_mod, ← Nat.mul_mod, one_mul]

theorem modexp_lt {w prod : Nat} (hp : 2 * w ≤ prod) (base exp : Nat) {m : Nat} (hm : m ≠ 0)
    (hmw : m ≤ 2 ^ w) : modexp prod base exp m < m := by
  rw [modexp_eq hp base exp hm hmw]; exact Nat.mod_lt _ (by omega)

/-! ### is_prime (R170) -/

theorem noDivisorFrom_eq_true_iff (k i n : Nat) (hk : n < i + k) (hi : 1 ≤ i) :
    noDivisorFrom k i n = true ↔ ∀ d, i ≤ d → d * d ≤ n → ¬ d ∣ n := by
  induction k generalizing i with
  | zero =>
    simp only [noDivisorFrom, true_iff]
    intro d hd hdd
    have : d ≤ d * d := Nat.le_mul_self d
    omega
  | succ k ih =>
    simp only [noDivisorFrom]
    split
    · next h =>
      simp only [true_iff]
      intro d hd hdd
      have : i * i ≤ d * d := Nat.mul_le_mul hd hd
      omega
    · next h =>
      split
      · next h0 =>
        simp only [Bool.false_eq_true, false_iff, not_forall, not_not]
        exact ⟨i, le_refl i, by omega, Nat.dvd_of_mod_eq_zero h0⟩
      · next h0 =>
        rw [ih (i + 1) (by omega) (by omega)]
        constructor
        · intro H d hd hdd
          rcases Nat.eq_or_lt_of_le hd with rfl | hlt
          · exact fun hdvd => h0 (Nat.mod_eq_zero_of_dvd hdvd)
          · exact H d hlt hdd
        · intro H d hd hdd; exact H d (by omega) hdd

/-- "The result is true exactly when `n` is a prime number" (R170). -/
theorem isPrime_iff (n : Nat) : isPrime n = true ↔ Nat.Prime n := by
  unfold isPrime
  split
  · next h => simp only [Bool.false_eq_true, false_iff]; intro hp; have := hp.two_le; omega
  · next h =>
    rw [noDivisorFrom_eq_true_iff n 2 n (by omega) (by omega), Nat.prime_def_le_sqrt]
    constructor
    · intro H
      exact ⟨by omega, fun d hd hs => H d hd (Nat.le_sqrt.1 hs)⟩
    · intro H d hd hdd
      exact H.2 d hd (Nat.le_sqrt.2 hdd)

end Sys2Proof.Machine
end

