-- ==== Sys2Proof/Laws/Width.lean ====
section
/-! SUPPORT. What keeping the low bits of a value does. -/

namespace Sys2Proof

theorem toNat_lowBits {w : Nat} (n : Nat) (v : BitVec w) : (lowBits n v).toNat = v.toNat % 2 ^ n := by
  rw [lowBits, BitVec.toNat_ofNat]
  exact Nat.mod_eq_of_lt (lt_of_le_of_lt (Nat.mod_le _ _) v.isLt)

@[simp] theorem getLsbD_lowBits {w : Nat} (n : Nat) (v : BitVec w) (i : Nat) :
    (lowBits n v).getLsbD i = (decide (i < n) && v.getLsbD i) := by
  simp only [BitVec.getLsbD, toNat_lowBits, Nat.testBit_mod_two_pow]

theorem toNat_lowBits_lt {w : Nat} (n : Nat) (v : BitVec w) : (lowBits n v).toNat < 2 ^ n := by
  rw [toNat_lowBits]; exact Nat.mod_lt _ (Nat.two_pow_pos n)

/-- A value that fits is kept whole. -/
theorem lowBits_eq_self {w n : Nat} {v : BitVec w} (h : v.toNat < 2 ^ n) : lowBits n v = v :=
  BitVec.eq_of_toNat_eq (by rw [toNat_lowBits, Nat.mod_eq_of_lt h])

/-- As many bits as the place has keep every value whole. -/
theorem lowBits_of_le {w n : Nat} (h : w ≤ n) (v : BitVec w) : lowBits n v = v :=
  lowBits_eq_self (lt_of_lt_of_le v.isLt (Nat.pow_le_pow_right (by decide) h))

@[simp] theorem lowBits_lowBits {w : Nat} (n : Nat) (v : BitVec w) : lowBits n (lowBits n v) = lowBits n v :=
  lowBits_eq_self (toNat_lowBits_lt n v)

/-- A number that fits `n` bits, kept in a place of `w`. -/
theorem toNat_lowBits_ofNat {w n k : Nat} (hw : k < 2 ^ w) (hn : k < 2 ^ n) :
    (lowBits n (BitVec.ofNat w k)).toNat = k := by
  rw [toNat_lowBits, BitVec.toNat_ofNat, Nat.mod_eq_of_lt hw, Nat.mod_eq_of_lt hn]

end Sys2Proof

namespace Sys2Proof.Machine

theorem fitHash_get (n : Nat) (H : Vector ShaWord 8) (i : Fin 8) : (fitHash n H)[i] = lowBits n H[i] := by
  match i with
  | 0 | 1 | 2 | 3 | 4 | 5 | 6 | 7 => rfl

@[simp] theorem fitHash_fitHash (n : Nat) (H : Vector ShaWord 8) : fitHash n (fitHash n H) = fitHash n H := by
  simp [fitHash]

@[simp] theorem fitHash_initialHash (n : Nat) : fitHash n (initialHash n) = initialHash n := fitHash_fitHash n _

end Sys2Proof.Machine
end

