-- ==== Sys2Proof/Laws/State.lean ====
section
/-! SUPPORT. One lemma per field per update of State, so that no later proof unfolds a record update. -/

namespace Sys2Proof.Machine

/-! ### setX -/

@[simp] theorem State.setX_params (s : State) (i : Reg) (v : Word) : (s.setX i v).params = s.params := rfl
@[simp] theorem State.setX_regs (s : State) (i : Reg) (v : Word) : 
    (s.setX i v).regs = s.regs.set i (lowBits s.params.word v) := rfl
@[simp] theorem State.setX_hash (s : State) (i : Reg) (v : Word) : (s.setX i v).hash = s.hash := rfl
@[simp] theorem State.setX_mem (s : State) (i : Reg) (v : Word) : (s.setX i v).mem = s.mem := rfl
@[simp] theorem State.setX_busy (s : State) (i : Reg) (v : Word) : (s.setX i v).busy = s.busy := rfl
@[simp] theorem State.setX_cur (s : State) (i : Reg) (v : Word) : (s.setX i v).cur = s.cur := rfl
@[simp] theorem State.setX_lastcmd (s : State) (i : Reg) (v : Word) : (s.setX i v).lastcmd = s.lastcmd := rfl
@[simp] theorem State.setX_done (s : State) (i : Reg) (v : Word) : (s.setX i v).done = s.done := rfl
@[simp] theorem State.setX_trunc (s : State) (i : Reg) (v : Word) : (s.setX i v).trunc = s.trunc := rfl
@[simp] theorem State.setX_errcode (s : State) (i : Reg) (v : Word) : (s.setX i v).errcode = s.errcode := rfl
@[simp] theorem State.setX_errinfo (s : State) (i : Reg) (v : Word) : (s.setX i v).errinfo = s.errinfo := rfl
@[simp] theorem State.setX_ie (s : State) (i : Reg) (v : Word) : (s.setX i v).ie = s.ie := rfl
@[simp] theorem State.setX_rst (s : State) (i : Reg) (v : Word) : (s.setX i v).rst = s.rst := rfl
@[simp] theorem State.setX_resp (s : State) (i : Reg) (v : Word) : (s.setX i v).resp = s.resp := rfl
@[simp] theorem State.setX_draws (s : State) (i : Reg) (v : Word) : (s.setX i v).draws = s.draws := rfl
@[simp] theorem State.setX_events (s : State) (i : Reg) (v : Word) : (s.setX i v).events = s.events := rfl

/-! ### writeCtrl -/

@[simp] theorem State.writeCtrl_params (s : State) (v : Word32) : (s.writeCtrl v).params = s.params := rfl
@[simp] theorem State.writeCtrl_regs (s : State) (v : Word32) : (s.writeCtrl v).regs = s.regs := rfl
@[simp] theorem State.writeCtrl_hash (s : State) (v : Word32) : (s.writeCtrl v).hash = s.hash := rfl
@[simp] theorem State.writeCtrl_mem (s : State) (v : Word32) : (s.writeCtrl v).mem = s.mem := rfl
@[simp] theorem State.writeCtrl_busy (s : State) (v : Word32) : (s.writeCtrl v).busy = s.busy := rfl
@[simp] theorem State.writeCtrl_cur (s : State) (v : Word32) : (s.writeCtrl v).cur = s.cur := rfl
@[simp] theorem State.writeCtrl_lastcmd (s : State) (v : Word32) : (s.writeCtrl v).lastcmd = s.lastcmd := rfl
@[simp] theorem State.writeCtrl_done (s : State) (v : Word32) : (s.writeCtrl v).done = s.done := rfl
@[simp] theorem State.writeCtrl_trunc (s : State) (v : Word32) : (s.writeCtrl v).trunc = s.trunc := rfl
@[simp] theorem State.writeCtrl_errcode (s : State) (v : Word32) : (s.writeCtrl v).errcode = s.errcode := rfl
@[simp] theorem State.writeCtrl_errinfo (s : State) (v : Word32) : (s.writeCtrl v).errinfo = s.errinfo := rfl
@[simp] theorem State.writeCtrl_ie (s : State) (v : Word32) : (s.writeCtrl v).ie = v.getLsbD 0 := rfl
@[simp] theorem State.writeCtrl_rst (s : State) (v : Word32) : (s.writeCtrl v).rst = s.rst := rfl
@[simp] theorem State.writeCtrl_resp (s : State) (v : Word32) : (s.writeCtrl v).resp = s.resp := rfl
@[simp] theorem State.writeCtrl_draws (s : State) (v : Word32) : (s.writeCtrl v).draws = s.draws := rfl
@[simp] theorem State.writeCtrl_events (s : State) (v : Word32) : (s.writeCtrl v).events = s.events := rfl

/-! ### writeStatus -/

@[simp] theorem State.writeStatus_params (s : State) (v : Word32) : (s.writeStatus v).params = s.params := rfl
@[simp] theorem State.writeStatus_regs (s : State) (v : Word32) : (s.writeStatus v).regs = s.regs := rfl
@[simp] theorem State.writeStatus_hash (s : State) (v : Word32) : (s.writeStatus v).hash = s.hash := rfl
@[simp] theorem State.writeStatus_mem (s : State) (v : Word32) : (s.writeStatus v).mem = s.mem := rfl
@[simp] theorem State.writeStatus_busy (s : State) (v : Word32) : (s.writeStatus v).busy = s.busy := rfl
@[simp] theorem State.writeStatus_cur (s : State) (v : Word32) : (s.writeStatus v).cur = s.cur := rfl
@[simp] theorem State.writeStatus_lastcmd (s : State) (v : Word32) : (s.writeStatus v).lastcmd = s.lastcmd := rfl
@[simp] theorem State.writeStatus_done (s : State) (v : Word32) : (s.writeStatus v).done = (s.done && !v.getLsbD 1) := rfl
@[simp] theorem State.writeStatus_trunc (s : State) (v : Word32) : (s.writeStatus v).trunc = (s.trunc && !v.getLsbD 3) := rfl
@[simp] theorem State.writeStatus_errcode (s : State) (v : Word32) : (s.writeStatus v).errcode = s.errcode := rfl
@[simp] theorem State.writeStatus_errinfo (s : State) (v : Word32) : (s.writeStatus v).errinfo = s.errinfo := rfl
@[simp] theorem State.writeStatus_ie (s : State) (v : Word32) : (s.writeStatus v).ie = s.ie := rfl
@[simp] theorem State.writeStatus_rst (s : State) (v : Word32) : (s.writeStatus v).rst = s.rst := rfl
@[simp] theorem State.writeStatus_resp (s : State) (v : Word32) : (s.writeStatus v).resp = s.resp := rfl
@[simp] theorem State.writeStatus_draws (s : State) (v : Word32) : (s.writeStatus v).draws = s.draws := rfl
@[simp] theorem State.writeStatus_events (s : State) (v : Word32) : (s.writeStatus v).events = s.events := rfl

/-! ### accept -/

@[simp] theorem State.accept_params (s : State) (w : Word32) : (s.accept w).params = s.params := rfl
@[simp] theorem State.accept_regs (s : State) (w : Word32) : (s.accept w).regs = s.regs := rfl
@[simp] theorem State.accept_hash (s : State) (w : Word32) : (s.accept w).hash = s.hash := rfl
@[simp] theorem State.accept_mem (s : State) (w : Word32) : (s.accept w).mem = s.mem := rfl
@[simp] theorem State.accept_busy (s : State) (w : Word32) : (s.accept w).busy = true := rfl
@[simp] theorem State.accept_cur (s : State) (w : Word32) : (s.accept w).cur = w := rfl
@[simp] theorem State.accept_lastcmd (s : State) (w : Word32) : (s.accept w).lastcmd = w := rfl
@[simp] theorem State.accept_done (s : State) (w : Word32) : (s.accept w).done = s.done := rfl
@[simp] theorem State.accept_trunc (s : State) (w : Word32) : (s.accept w).trunc = s.trunc := rfl
@[simp] theorem State.accept_errcode (s : State) (w : Word32) : (s.accept w).errcode = .ok := rfl
@[simp] theorem State.accept_errinfo (s : State) (w : Word32) : (s.accept w).errinfo = 0 := rfl
@[simp] theorem State.accept_ie (s : State) (w : Word32) : (s.accept w).ie = s.ie := rfl
@[simp] theorem State.accept_rst (s : State) (w : Word32) : (s.accept w).rst = s.rst := rfl
@[simp] theorem State.accept_resp (s : State) (w : Word32) : (s.accept w).resp = s.resp := rfl
@[simp] theorem State.accept_draws (s : State) (w : Word32) : (s.accept w).draws = s.draws := rfl
@[simp] theorem State.accept_events (s : State) (w : Word32) : (s.accept w).events = s.events := rfl

/-! ### complete -/

@[simp] theorem State.complete_params (s : State) (e : ErrCode) (info : Word32) : (s.complete e info).params = s.params := rfl
@[simp] theorem State.complete_regs (s : State) (e : ErrCode) (info : Word32) : (s.complete e info).regs = s.regs := rfl
@[simp] theorem State.complete_hash (s : State) (e : ErrCode) (info : Word32) : (s.complete e info).hash = s.hash := rfl
@[simp] theorem State.complete_mem (s : State) (e : ErrCode) (info : Word32) : (s.complete e info).mem = s.mem := rfl
@[simp] theorem State.complete_busy (s : State) (e : ErrCode) (info : Word32) : (s.complete e info).busy = false := rfl
@[simp] theorem State.complete_cur (s : State) (e : ErrCode) (info : Word32) : (s.complete e info).cur = s.cur := rfl
@[simp] theorem State.complete_lastcmd (s : State) (e : ErrCode) (info : Word32) : (s.complete e info).lastcmd = s.lastcmd := rfl
@[simp] theorem State.complete_done (s : State) (e : ErrCode) (info : Word32) : (s.complete e info).done = true := rfl
@[simp] theorem State.complete_trunc (s : State) (e : ErrCode) (info : Word32) : (s.complete e info).trunc = s.trunc := rfl
@[simp] theorem State.complete_errcode (s : State) (e : ErrCode) (info : Word32) : (s.complete e info).errcode = e := rfl
@[simp] theorem State.complete_errinfo (s : State) (e : ErrCode) (info : Word32) : (s.complete e info).errinfo = info := rfl
@[simp] theorem State.complete_ie (s : State) (e : ErrCode) (info : Word32) : (s.complete e info).ie = s.ie := rfl
@[simp] theorem State.complete_rst (s : State) (e : ErrCode) (info : Word32) : (s.complete e info).rst = s.rst := rfl
@[simp] theorem State.complete_resp (s : State) (e : ErrCode) (info : Word32) : (s.complete e info).resp = s.resp := rfl
@[simp] theorem State.complete_draws (s : State) (e : ErrCode) (info : Word32) : (s.complete e info).draws = s.draws := rfl
@[simp] theorem State.complete_events (s : State) (e : ErrCode) (info : Word32) : (s.complete e info).events = s.events := rfl

/-! ### respond -/

@[simp] theorem State.respond_params (s : State) (r : Response) : (s.respond r).params = s.params := rfl
@[simp] theorem State.respond_regs (s : State) (r : Response) : (s.respond r).regs = s.regs := rfl
@[simp] theorem State.respond_hash (s : State) (r : Response) : (s.respond r).hash = s.hash := rfl
@[simp] theorem State.respond_mem (s : State) (r : Response) : (s.respond r).mem = s.mem := rfl
@[simp] theorem State.respond_busy (s : State) (r : Response) : (s.respond r).busy = s.busy := rfl
@[simp] theorem State.respond_cur (s : State) (r : Response) : (s.respond r).cur = s.cur := rfl
@[simp] theorem State.respond_lastcmd (s : State) (r : Response) : (s.respond r).lastcmd = s.lastcmd := rfl
@[simp] theorem State.respond_done (s : State) (r : Response) : (s.respond r).done = s.done := rfl
@[simp] theorem State.respond_trunc (s : State) (r : Response) : (s.respond r).trunc = s.trunc := rfl
@[simp] theorem State.respond_errcode (s : State) (r : Response) : (s.respond r).errcode = s.errcode := rfl
@[simp] theorem State.respond_errinfo (s : State) (r : Response) : (s.respond r).errinfo = s.errinfo := rfl
@[simp] theorem State.respond_ie (s : State) (r : Response) : (s.respond r).ie = s.ie := rfl
@[simp] theorem State.respond_rst (s : State) (r : Response) : (s.respond r).rst = s.rst := rfl
@[simp] theorem State.respond_resp (s : State) (r : Response) : (s.respond r).resp = some r := rfl
@[simp] theorem State.respond_draws (s : State) (r : Response) : (s.respond r).draws = s.draws := rfl
@[simp] theorem State.respond_events (s : State) (r : Response) : (s.respond r).events = s.events := rfl

/-! ### assertReset -/

@[simp] theorem State.assertReset_params (s : State) : (s.assertReset).params = s.params := rfl
@[simp] theorem State.assertReset_regs (s : State) : (s.assertReset).regs = Vector.replicate maxRegs 0 := rfl
@[simp] theorem State.assertReset_hash (s : State) : (s.assertReset).hash = initialHash s.params.shaWord := rfl
@[simp] theorem State.assertReset_mem (s : State) : (s.assertReset).mem = [] := rfl
@[simp] theorem State.assertReset_busy (s : State) : (s.assertReset).busy = false := rfl
@[simp] theorem State.assertReset_cur (s : State) : (s.assertReset).cur = 0 := rfl
@[simp] theorem State.assertReset_lastcmd (s : State) : (s.assertReset).lastcmd = 0 := rfl
@[simp] theorem State.assertReset_done (s : State) : (s.assertReset).done = false := rfl
@[simp] theorem State.assertReset_trunc (s : State) : (s.assertReset).trunc = false := rfl
@[simp] theorem State.assertReset_errcode (s : State) : (s.assertReset).errcode = .ok := rfl
@[simp] theorem State.assertReset_errinfo (s : State) : (s.assertReset).errinfo = 0 := rfl
@[simp] theorem State.assertReset_ie (s : State) : (s.assertReset).ie = false := rfl
@[simp] theorem State.assertReset_rst (s : State) : (s.assertReset).rst = true := rfl
@[simp] theorem State.assertReset_resp (s : State) : (s.assertReset).resp = none := rfl
@[simp] theorem State.assertReset_draws (s : State) : (s.assertReset).draws = s.draws + 1 := rfl
@[simp] theorem State.assertReset_events (s : State) : (s.assertReset).events = s.events := rfl

/-! ### releaseReset -/

@[simp] theorem State.releaseReset_params (s : State) : (s.releaseReset).params = s.params := rfl
@[simp] theorem State.releaseReset_regs (s : State) : (s.releaseReset).regs = s.regs := rfl
@[simp] theorem State.releaseReset_hash (s : State) : (s.releaseReset).hash = s.hash := rfl
@[simp] theorem State.releaseReset_mem (s : State) : (s.releaseReset).mem = s.mem := rfl
@[simp] theorem State.releaseReset_busy (s : State) : (s.releaseReset).busy = s.busy := rfl
@[simp] theorem State.releaseReset_cur (s : State) : (s.releaseReset).cur = s.cur := rfl
@[simp] theorem State.releaseReset_lastcmd (s : State) : (s.releaseReset).lastcmd = s.lastcmd := rfl
@[simp] theorem State.releaseReset_done (s : State) : (s.releaseReset).done = s.done := rfl
@[simp] theorem State.releaseReset_trunc (s : State) : (s.releaseReset).trunc = s.trunc := rfl
@[simp] theorem State.releaseReset_errcode (s : State) : (s.releaseReset).errcode = s.errcode := rfl
@[simp] theorem State.releaseReset_errinfo (s : State) : (s.releaseReset).errinfo = s.errinfo := rfl
@[simp] theorem State.releaseReset_ie (s : State) : (s.releaseReset).ie = s.ie := rfl
@[simp] theorem State.releaseReset_rst (s : State) : (s.releaseReset).rst = false := rfl
@[simp] theorem State.releaseReset_resp (s : State) : (s.releaseReset).resp = s.resp := rfl
@[simp] theorem State.releaseReset_draws (s : State) : (s.releaseReset).draws = s.draws := rfl
@[simp] theorem State.releaseReset_events (s : State) : (s.releaseReset).events = s.events := rfl

/-! ### Derived updates -/

@[simp] theorem State.succeed_eq_complete (s : State) : s.succeed = s.complete .ok 0 := rfl
@[simp] theorem State.raise_eq_complete (s : State) (e : ErrCode) (info : Word32) : s.raise e info = s.complete e info := rfl
@[simp] theorem State.setRst_true (s : State) : s.setRst true = s.assertReset := rfl
@[simp] theorem State.setRst_false (s : State) : s.setRst false = s.releaseReset := rfl

/-! ### Reads -/

theorem State.x_eq (s : State) (i : Reg) : s.x i = lowBits s.params.word s.regs[i] := rfl

/-- A register holds the low `WORD` bits of what was written to it. -/
@[simp] theorem State.x_setX_same (s : State) (i : Reg) (v : Word) : (s.setX i v).x i = lowBits s.params.word v := by
  simp [State.x]

theorem State.x_setX_ne (s : State) {i j : Reg} (v : Word) (h : j ≠ i) : (s.setX i v).x j = s.x j := by
  have : i.val ≠ j.val := fun e => h (Fin.ext e.symm)
  simp [State.x, this]

theorem State.x_setX (s : State) (i j : Reg) (v : Word) : 
    (s.setX i v).x j = if j = i then lowBits s.params.word v else s.x j := by
  split
  · next h => subst h; simp
  · next h => exact State.x_setX_ne s v h

/-- An operand register holds a number of `WORD` bits (R20). -/
theorem State.x_toNat_lt (s : State) (i : Reg) : (s.x i).toNat < 2 ^ s.params.word := toNat_lowBits_lt _ _

/-- Writing back a register's own value, or another value of `WORD` bits, keeps it whole. -/
theorem State.lowBits_x (s : State) (i : Reg) : lowBits s.params.word (s.x i) = s.x i := lowBits_lowBits _ _

/-- The value in a register that a number of `WORD` bits was written to. -/
theorem State.toNat_x_setX {s : State} (i : Reg) {n : Nat} (h : n < 2 ^ s.params.word) (h64 : n < 2 ^ maxWord) :
    ((s.setX i (BitVec.ofNat maxWord n)).x i).toNat = n := by
  rw [State.x_setX_same, toNat_lowBits_ofNat h64 h]

/-- What a field-by-field equal pair of states share: the registers. -/
theorem State.x_congr {s t : State} (hp : s.params = t.params) (h : s.regs = t.regs) (i : Reg) : s.x i = t.x i := by
  simp [State.x, h, hp]

/-- A buffer byte depends on the build, the memory and the draws alone. -/
theorem State.byteAt_congr {s t : State} (hp : s.params = t.params) (hm : s.mem = t.mem) (hd : s.draws = t.draws)
    (a : Nat) : s.byteAt a = t.byteAt a := by simp [State.byteAt, hp, hm, hd]

/-- `TXT[k]` depends on the build, the memory and the draws alone. -/
theorem State.txt_congr {s t : State} (hp : s.params = t.params) (hm : s.mem = t.mem) (hd : s.draws = t.draws)
    (k : Nat) : s.txt k = t.txt k := State.byteAt_congr hp hm hd _

/-- `CT[k]` depends on the build, the memory and the draws alone. -/
theorem State.ct_congr {s t : State} (hp : s.params = t.params) (hm : s.mem = t.mem) (hd : s.draws = t.draws) (k : Nat) :
    s.ct k = t.ct k := by
  simp [State.ct, State.wordAt, State.byteAt_congr hp hm hd]

/-- A word of H has `SHA_WORD` bits (R33). -/
theorem State.hashValue_get (s : State) (i : Fin 8) : s.hashValue[i] = lowBits s.params.shaWord s.hash[i] :=
  fitHash_get _ _ _

@[simp] theorem regAbove_val {rd : Reg} {n : Nat} (h : rd.val + n < 16) : (regAbove rd n).val = rd.val + n := by
  simp [regAbove, Nat.mod_eq_of_lt h]

end Sys2Proof.Machine
end

