-- ==== Sys2Proof/Laws/Memory.lean ====
section
/-! SUPPORT. The laws of the buffers' memory: read after write, and every write keeps the canonical form. -/

namespace Sys2Proof.Machine

/-! ### One byte -/

@[simp] theorem Memory.read_nil (a : Nat) : Memory.read [] a = none := rfl

theorem Memory.read_cons (k : Nat) (b : Byte) (m : Memory) (a : Nat) :
    Memory.read ((k, b) :: m) a = if k = a then some b else Memory.read m a := rfl

/-- A read after a write gives the value written at that offset and the old value at every other. -/
theorem Memory.read_write (m : Memory) (a : Nat) (b : Byte) (c : Nat) :
    (m.write a b).read c = if c = a then some b else m.read c := by
  induction m with
  | nil => simp only [Memory.write, Memory.read_cons, Memory.read_nil, eq_comm]
  | cons p m ih =>
    obtain ⟨k, d⟩ := p
    simp only [Memory.write]
    split
    · simp only [Memory.read_cons, eq_comm]
    · split
      · next h =>
        subst h
        simp only [Memory.read_cons]
        by_cases hc : c = a
        · simp [hc]
        · simp [hc, Ne.symm hc]
      · next h =>
        simp only [Memory.read_cons, ih]
        by_cases hc : c = a
        · rw [if_neg (by omega), if_pos hc, if_pos hc]
        · simp [hc]

@[simp] theorem Memory.read_write_same (m : Memory) (a : Nat) (b : Byte) : (m.write a b).read a = some b := by
  simp [Memory.read_write]

theorem Memory.read_write_ne (m : Memory) {a c : Nat} (b : Byte) (h : c ≠ a) : (m.write a b).read c = m.read c := by
  simp [Memory.read_write, h]

/-! ### The canonical form -/

theorem Memory.above_cons (a k : Nat) (c : Byte) (m : Memory) : Memory.above a ((k, c) :: m) = decide (a < k) := rfl

theorem Memory.wf_cons (k : Nat) (c : Byte) (m : Memory) :
    Memory.wf ((k, c) :: m) = (Memory.above k m && Memory.wf m) := rfl

theorem Memory.above_write {a k : Nat} {m : Memory} {b : Byte} (hm : m.above k = true) (ha : k < a) :
    (m.write a b).above k = true := by
  match m with
  | [] => simpa [Memory.write, Memory.above] using ha
  | (j, c) :: m =>
    simp only [Memory.above_cons, decide_eq_true_eq] at hm
    simp only [Memory.write]
    split
    · simpa [Memory.above_cons] using ha
    · split <;> simp [Memory.above_cons, hm, ha]

/-- A write keeps the offsets strictly rising. -/
theorem Memory.wf_write {m : Memory} (h : m.wf = true) (a : Nat) (b : Byte) : (m.write a b).wf = true := by
  induction m with
  | nil => rfl
  | cons p m ih =>
    obtain ⟨k, c⟩ := p
    simp only [Memory.wf_cons, Bool.and_eq_true] at h
    simp only [Memory.write]
    split
    · next hk => simp [Memory.wf_cons, Memory.above_cons, hk, h.1, h.2]
    · split
      · next hk => subst hk; simp [Memory.wf_cons, h.1, h.2]
      · next h1 h2 =>
        simp [Memory.wf_cons, ih h.2, Memory.above_write h.1 (by omega : k < a)]

/-- A write inside the buffers keeps every cell inside them. -/
theorem Memory.inBuffers_write {p : Config.Params} {m : Memory} (h : m.inBuffers p = true) {a : Nat}
    (ha : (inTxt p a || inCt p a) = true) (b : Byte) : (m.write a b).inBuffers p = true := by
  induction m with
  | nil => simpa [Memory.write, Memory.inBuffers] using ha
  | cons q m ih =>
    obtain ⟨k, c⟩ := q
    simp only [Memory.inBuffers, List.all_cons, Bool.and_eq_true] at h ih
    simp only [Memory.write]
    split
    · simp [Memory.inBuffers, ha, h]
    · split
      · simp [Memory.inBuffers, ha, h.2]
      · simp only [Memory.inBuffers, List.all_cons, h.1, Bool.true_and]; exact ih h.2

/-- Two canonical memories that read alike are equal: equal contents are equal data. -/
theorem Memory.eq_of_read_eq {m n : Memory} (hm : m.wf = true) (hn : n.wf = true)
    (h : ∀ a, m.read a = n.read a) : m = n := by
  have none_above : ∀ (m : Memory) (k a : Nat), m.wf = true → m.above k = true → a ≤ k → m.read a = none := by
    intro m
    induction m with
    | nil => intros; rfl
    | cons p m ih =>
      intro k a hw hk ha
      obtain ⟨j, c⟩ := p
      simp only [Memory.wf_cons, Bool.and_eq_true] at hw
      simp only [Memory.above_cons, decide_eq_true_eq] at hk
      rw [Memory.read_cons, if_neg (by omega)]
      exact ih j a hw.2 hw.1 (by omega)
  induction m generalizing n with
  | nil =>
    match n with
    | [] => rfl
    | (k, c) :: n => have := h k; simp [Memory.read_cons] at this
  | cons p m ih =>
    obtain ⟨k, c⟩ := p
    match n with
    | [] => have := h k; simp [Memory.read_cons] at this
    | (j, d) :: n =>
      simp only [Memory.wf_cons, Bool.and_eq_true] at hm hn
      have hkj : k = j := by
        rcases Nat.lt_trichotomy k j with hlt | heq | hgt
        · have := h k
          rw [Memory.read_cons, if_pos rfl, Memory.read_cons, if_neg (by omega),
            none_above n j k hn.2 hn.1 (by omega)] at this
          simp at this
        · exact heq
        · have := h j
          rw [Memory.read_cons, if_neg (by omega), Memory.read_cons, if_pos rfl,
            none_above m k j hm.2 hm.1 (by omega)] at this
          simp at this
      subst hkj
      have hcd := h k
      simp only [Memory.read_cons, if_true, Option.some.injEq] at hcd
      subst hcd
      rw [ih hm.2 hn.2]
      intro a
      have ha := h a
      simp only [Memory.read_cons] at ha
      by_cases hak : k = a
      · subst hak
        rw [none_above m k k hm.2 hm.1 (Nat.le_refl _), none_above n k k hn.2 hn.1 (Nat.le_refl _)]
      · simpa [hak] using ha

/-! ### Bytes of a buffer, words, TXT bytes and CT entries -/

theorem Memory.read_store (p : Config.Params) (m : Memory) (a : Nat) (b : Byte) (c : Nat) :
    (m.store p a b).read c = if c = a then some (lowBits (byteBits p a) b) else m.read c := Memory.read_write _ _ _ _

/-- A byte written inside the widths of the build keeps every cell inside them. -/
theorem Memory.fits_write {p : Config.Params} {m : Memory} (h : m.fits p = true) {a : Nat} {b : Byte}
    (hb : b.toNat < 2 ^ byteBits p a) : (m.write a b).fits p = true := by
  induction m with
  | nil => simpa [Memory.write, Memory.fits] using hb
  | cons q m ih =>
    obtain ⟨k, c⟩ := q
    simp only [Memory.fits, List.all_cons, Bool.and_eq_true] at h ih
    simp only [Memory.write]
    split
    · simp [Memory.fits, hb, h]
    · split
      · simp [Memory.fits, hb, h.2]
      · simp only [Memory.fits, List.all_cons, h.1, Bool.true_and]; exact ih h.2

/-- What a word write leaves at each offset. -/
theorem Memory.read_writeWord (p : Config.Params) (m : Memory) (a : Nat) (v : Word32) (c : Nat) :
    (m.writeWord p a v).read c =
      if c = a + 3 then some (lowBits (byteBits p (a + 3)) (v.extractLsb' 24 8))
      else if c = a + 2 then some (lowBits (byteBits p (a + 2)) (v.extractLsb' 16 8))
      else if c = a + 1 then some (lowBits (byteBits p (a + 1)) (v.extractLsb' 8 8))
      else if c = a then some (lowBits (byteBits p a) (v.extractLsb' 0 8)) else m.read c := by
  simp only [Memory.writeWord, Memory.read_store]

theorem Memory.read_writeWord_outside (p : Config.Params) (m : Memory) {a c : Nat} (v : Word32) (h : c < a ∨ a + 4 ≤ c) :
    (m.writeWord p a v).read c = m.read c := by
  rw [Memory.read_writeWord, if_neg (by omega), if_neg (by omega), if_neg (by omega), if_neg (by omega)]

theorem Memory.wf_writeWord {m : Memory} (h : m.wf = true) (p : Config.Params) (a : Nat) (v : Word32) :
    (m.writeWord p a v).wf = true :=
  Memory.wf_write (Memory.wf_write (Memory.wf_write (Memory.wf_write h _ _) _ _) _ _) _ _

theorem Memory.inBuffers_writeWord {p : Config.Params} {m : Memory} (h : m.inBuffers p = true) {a : Nat}
    (ha : ∀ j < 4, (inTxt p (a + j) || inCt p (a + j)) = true) (v : Word32) : (m.writeWord p a v).inBuffers p = true :=
  Memory.inBuffers_write (Memory.inBuffers_write (Memory.inBuffers_write (Memory.inBuffers_write h (ha 0 (by omega)) _)
    (ha 1 (by omega)) _) (ha 2 (by omega)) _) (ha 3 (by omega)) _

theorem Memory.fits_store {p : Config.Params} {m : Memory} (h : m.fits p = true) (a : Nat) (b : Byte) :
    (m.store p a b).fits p = true := Memory.fits_write h (toNat_lowBits_lt _ _)

theorem Memory.fits_writeWord {p : Config.Params} {m : Memory} (h : m.fits p = true) (a : Nat) (v : Word32) :
    (m.writeWord p a v).fits p = true :=
  Memory.fits_store (Memory.fits_store (Memory.fits_store (Memory.fits_store h _ _) _ _) _ _) _ _

theorem Memory.wf_setTxt {m : Memory} (h : m.wf = true) (p : Config.Params) (k : Nat) (b : Byte) :
    (m.setTxt p k b).wf = true := Memory.wf_write h _ _

theorem Memory.wf_setCt {m : Memory} (h : m.wf = true) (p : Config.Params) (k : Nat) (v : Word) :
    (m.setCt p k v).wf = true :=
  Memory.wf_writeWord (Memory.wf_writeWord h _ _ _) _ _ _

theorem Memory.fits_setTxt {p : Config.Params} {m : Memory} (h : m.fits p = true) (k : Nat) (b : Byte) :
    (m.setTxt p k b).fits p = true := Memory.fits_store h _ _

theorem Memory.fits_setCt {p : Config.Params} {m : Memory} (h : m.fits p = true) (k : Nat) (v : Word) :
    (m.setCt p k v).fits p = true :=
  Memory.fits_writeWord (Memory.fits_writeWord h _ _) _ _

theorem inTxt_txtOffset {p : Config.Params} {k : Nat} (h : k < p.txtSize) : inTxt p (txtOffset k) = true := by
  exact decide_eq_true (by simp only [txtOffset]; omega)

theorem inCt_ctOffset {p : Config.Params} {k j : Nat} (h : k < p.ctSize) (hj : j < 8) :
    inCt p (ctOffset k + j) = true := by
  exact decide_eq_true (by simp only [ctOffset]; omega)

theorem Memory.inBuffers_setTxt {p : Config.Params} {m : Memory} (h : m.inBuffers p = true) {k : Nat}
    (hk : k < p.txtSize) (b : Byte) : (m.setTxt p k b).inBuffers p = true :=
  Memory.inBuffers_write h (by simp [inTxt_txtOffset hk]) _

theorem Memory.inBuffers_setCt {p : Config.Params} {m : Memory} (h : m.inBuffers p = true) {k : Nat}
    (hk : k < p.ctSize) (v : Word) : (m.setCt p k v).inBuffers p = true := by
  refine Memory.inBuffers_writeWord (Memory.inBuffers_writeWord h ?_ _) ?_ _
  · intro j hj; simp [inCt_ctOffset hk (by omega : j < 8)]
  · intro j hj; rw [Nat.add_assoc]; simp [inCt_ctOffset hk (by omega : 4 + j < 8)]

theorem Memory.read_setCt_outside (p : Config.Params) (m : Memory) (k : Nat) (v : Word) {c : Nat}
    (h : c < ctOffset k ∨ ctOffset k + 8 ≤ c) : (m.setCt p k v).read c = m.read c := by
  rw [Memory.setCt, Memory.read_writeWord_outside _ _ _ (by omega), Memory.read_writeWord_outside _ _ _ (by omega)]

/-! ### The bits of a byte -/

/-- A byte of TXT has all its bits. -/
theorem lowBits_byteBits_txt {p : Config.Params} {a : Nat} (h : a < 0x2000) (b : Byte) : lowBits (byteBits p a) b = b :=
  lowBits_of_le (by rw [byteBits, if_pos (by simpa [Config.ctBase] using h)]) b

theorem byteBits_ctOffset (p : Config.Params) (k : Nat) {j : Nat} (hj : j < 8) :
    byteBits p (ctOffset k + j) = p.word - 8 * j := by
  have h : ctOffset k + j = 0x2000 + 8 * k + j := rfl
  rw [byteBits, if_neg (by rw [h, Config.ctBase]; omega), h, show (0x2000 + 8 * k + j) % 8 = j by omega]

/-- Every byte of a buffer is read in the width of the build. -/
theorem State.lowBits_byteAt (s : State) (a : Nat) : lowBits (byteBits s.params a) (s.byteAt a) = s.byteAt a :=
  lowBits_lowBits _ _

/-! ### Putting a word's bytes together -/

/-- Four bytes taken from a word make it again. -/
theorem bytes_append_eq (v : Word32) :
    v.extractLsb' 24 8 ++ v.extractLsb' 16 8 ++ v.extractLsb' 8 8 ++ v.extractLsb' 0 8 = v := by
  apply BitVec.eq_of_getLsbD_eq
  intro i hi
  simp only [BitVec.getLsbD_append, BitVec.getLsbD_extractLsb']
  rcases Nat.lt_or_ge i 8 with h | h
  · simp [h]
  rcases Nat.lt_or_ge i 16 with h2 | h2
  · simp [Nat.not_lt.mpr h, show i - 8 < 8 by omega, show 8 + (i - 8) = i by omega]
  rcases Nat.lt_or_ge i 24 with h3 | h3
  · simp [Nat.not_lt.mpr h, show ¬ i - 8 < 8 by omega, show i - 8 - 8 < 8 by omega,
      show 16 + (i - 8 - 8) = i by omega]
  · simp [Nat.not_lt.mpr h, show ¬ i - 8 < 8 by omega, show ¬ i - 8 - 8 < 8 by omega,
      show i - 8 - 8 - 8 < 8 by omega, show 24 + (i - 8 - 8 - 8) = i by omega]

/-- Four bytes read back from the word they make. -/
theorem append_bytes (b0 b1 b2 b3 : Byte) :
    (b3 ++ b2 ++ b1 ++ b0).extractLsb' 0 8 = b0 ∧ (b3 ++ b2 ++ b1 ++ b0).extractLsb' 8 8 = b1 ∧
      (b3 ++ b2 ++ b1 ++ b0).extractLsb' 16 8 = b2 ∧ (b3 ++ b2 ++ b1 ++ b0).extractLsb' 24 8 = b3 := by
  refine ⟨?_, ?_, ?_, ?_⟩ <;>
    (apply BitVec.eq_of_getLsbD_eq; intro n hn; simp only [BitVec.getLsbD_append, BitVec.getLsbD_extractLsb'])
  · simp [hn]
  · simp [hn, show ¬ 8 + n < 8 by omega, show 8 + n - 8 = n by omega]
  · simp [hn, show ¬ 16 + n < 8 by omega, show ¬ 16 + n - 8 < 8 by omega, show 16 + n - 8 - 8 = n by omega]
  · simp [hn, show ¬ 24 + n < 8 by omega, show ¬ 24 + n - 8 < 8 by omega, show ¬ 24 + n - 8 - 8 < 8 by omega,
      show 24 + n - 8 - 8 - 8 = n by omega]

/-- The two halves of a 64-bit value make it again. -/
@[simp] theorem joinHalves_halves (v : Word) : joinHalves (highHalf v) (lowHalf v) = v := by
  apply BitVec.eq_of_getLsbD_eq
  intro i (hi : i < 64)
  simp only [joinHalves, highHalf, lowHalf, BitVec.getLsbD_append, BitVec.getLsbD_extractLsb']
  rcases Nat.lt_or_ge i 32 with h | h
  · simp [h]
  · simp [Nat.not_lt.mpr h, show i - 32 < 32 by omega, show 32 + (i - 32) = i by omega]

@[simp] theorem lowHalf_joinHalves (hi lo : Word32) : lowHalf (joinHalves hi lo) = lo := by
  apply BitVec.eq_of_getLsbD_eq
  intro i h
  simp only [joinHalves, lowHalf, BitVec.getLsbD_extractLsb', h, BitVec.getLsbD_append, Nat.zero_add, if_true,
    decide_true, Bool.true_and]

@[simp] theorem highHalf_joinHalves (hi lo : Word32) : highHalf (joinHalves hi lo) = hi := by
  apply BitVec.eq_of_getLsbD_eq
  intro i h
  simp only [joinHalves, highHalf, BitVec.getLsbD_extractLsb', h, BitVec.getLsbD_append, decide_true, Bool.true_and,
    show ¬ 32 + i < 32 by omega, if_false, show 32 + i - 32 = i by omega]

/-- A bit of a bus word is a bit of one of its bytes (R68). -/
theorem State.getLsbD_wordAt (s : State) (a : Nat) {i : Nat} (h : i < 32) :
    (s.wordAt a).getLsbD i = (s.byteAt (a + i / 8)).getLsbD (i % 8) := by
  simp only [State.wordAt, BitVec.getLsbD_append]
  rcases Nat.lt_or_ge i 8 with h1 | h1
  · simp [h1, Nat.div_eq_of_lt h1, Nat.mod_eq_of_lt h1]
  rcases Nat.lt_or_ge i 16 with h2 | h2
  · simp [Nat.not_lt.mpr h1, show i - 8 < 8 by omega, show i / 8 = 1 by omega, show i % 8 = i - 8 by omega]
  rcases Nat.lt_or_ge i 24 with h3 | h3
  · simp [Nat.not_lt.mpr h1, show ¬ i - 8 < 8 by omega, show i - 8 - 8 < 8 by omega, show i / 8 = 2 by omega,
      show i % 8 = i - 8 - 8 by omega]
  · simp [Nat.not_lt.mpr h1, show ¬ i - 8 < 8 by omega, show ¬ i - 8 - 8 < 8 by omega, show i / 8 = 3 by omega,
      show i % 8 = i - 8 - 8 - 8 by omega]

/-- A bit of a ciphertext entry is a bit of one of its bytes (R69). -/
theorem State.getLsbD_ct (s : State) (k : Nat) {i : Nat} (h : i < 64) :
    (s.ct k).getLsbD i = (s.byteAt (ctOffset k + i / 8)).getLsbD (i % 8) := by
  simp only [State.ct, joinHalves, BitVec.getLsbD_append]
  rcases Nat.lt_or_ge i 32 with h1 | h1
  · rw [if_pos h1, State.getLsbD_wordAt s _ h1]
  · rw [if_neg (by omega), State.getLsbD_wordAt s _ (by omega), Nat.add_assoc, show 4 + (i - 32) / 8 = i / 8 by omega,
      show (i - 32) % 8 = i % 8 by omega]

/-- A ciphertext entry holds a number of `WORD` bits (R7). -/
theorem State.lowBits_ct (s : State) (k : Nat) : lowBits s.params.word (s.ct k) = s.ct k := by
  apply BitVec.eq_of_getLsbD_eq
  intro i (hi : i < 64)
  rw [getLsbD_lowBits, State.getLsbD_ct s k hi, ← State.lowBits_byteAt, getLsbD_lowBits,
    byteBits_ctOffset _ _ (by omega)]
  by_cases h : i < s.params.word
  · simp [h]
  · simp [h, show ¬ i % 8 < s.params.word - 8 * (i / 8) by omega]

theorem State.ct_toNat_lt (s : State) (k : Nat) : (s.ct k).toNat < 2 ^ s.params.word := by
  rw [← State.lowBits_ct]; exact toNat_lowBits_lt _ _

/-- A byte after a word write, at an offset of the word. -/
theorem State.byteAt_writeWord (s : State) (a : Nat) (v : Word32) {j : Nat} (hj : j < 4) :
    ({ s with mem := s.mem.writeWord s.params a v } : State).byteAt (a + j) =
      lowBits (byteBits s.params (a + j)) (v.extractLsb' (8 * j) 8) := by
  simp only [State.byteAt, Memory.read_writeWord]
  have : j = 0 ∨ j = 1 ∨ j = 2 ∨ j = 3 := by omega
  rcases this with rfl | rfl | rfl | rfl <;> simp

theorem State.byteAt_writeWord_ne (s : State) {a c : Nat} (v : Word32) (h : c < a ∨ a + 4 ≤ c) :
    ({ s with mem := s.mem.writeWord s.params a v } : State).byteAt c = s.byteAt c := by
  simp only [State.byteAt, Memory.read_writeWord_outside _ _ _ h]

/-- A bus word of TXT reads back as it was written (R68). -/
theorem State.wordAt_writeWord (s : State) {a : Nat} (ha : a + 4 ≤ 0x2000) (v : Word32) :
    ({ s with mem := s.mem.writeWord s.params a v } : State).wordAt a = v := by
  apply BitVec.eq_of_getLsbD_eq
  intro i hi
  rw [State.getLsbD_wordAt _ _ hi, State.byteAt_writeWord s a v (by omega), lowBits_byteBits_txt (by omega),
    BitVec.getLsbD_extractLsb', Nat.div_add_mod]
  simp [Nat.mod_lt]

theorem State.wordAt_writeWord_ne (s : State) {a c : Nat} (v : Word32) (h : c + 4 ≤ a ∨ a + 4 ≤ c) :
    ({ s with mem := s.mem.writeWord s.params a v } : State).wordAt c = s.wordAt c := by
  simp only [State.wordAt]
  rw [State.byteAt_writeWord_ne s v (by omega), State.byteAt_writeWord_ne s v (by omega),
    State.byteAt_writeWord_ne s v (by omega), State.byteAt_writeWord_ne s v (by omega)]

/-- Both halves of a ciphertext entry, after one of them is written: its low `WORD` bits (R69, R7). -/
theorem State.ct_writeWord (s : State) (k : Nat) (v : Word32) :
    ({ s with mem := s.mem.writeWord s.params (ctOffset k) v } : State).ct k =
        lowBits s.params.word (joinHalves (highHalf (s.ct k)) v) ∧
      ({ s with mem := s.mem.writeWord s.params (ctOffset k + 4) v } : State).ct k =
        lowBits s.params.word (joinHalves v (lowHalf (s.ct k))) := by
  constructor <;> (apply BitVec.eq_of_getLsbD_eq; intro i hi; have hi : i < 64 := hi)
  · rw [State.getLsbD_ct _ _ hi, getLsbD_lowBits, joinHalves, BitVec.getLsbD_append]
    rcases Nat.lt_or_ge i 32 with h | h
    · rw [State.byteAt_writeWord s _ v (by omega), getLsbD_lowBits, byteBits_ctOffset _ _ (by omega),
        BitVec.getLsbD_extractLsb', Nat.div_add_mod, if_pos h]
      by_cases hw : i < s.params.word
      · simp [hw, show i % 8 < s.params.word - 8 * (i / 8) by omega, Nat.mod_lt]
      · simp [hw, show ¬ i % 8 < s.params.word - 8 * (i / 8) by omega]
    · rw [State.byteAt_writeWord_ne s v (by omega), ← State.getLsbD_ct s k hi, if_neg (by omega), highHalf,
        BitVec.getLsbD_extractLsb', ← State.lowBits_ct s k, getLsbD_lowBits, getLsbD_lowBits,
        show 32 + (i - 32) = i by omega]
      simp [show i - 32 < 32 by omega]
  · rw [State.getLsbD_ct _ _ hi, getLsbD_lowBits, joinHalves, BitVec.getLsbD_append]
    rcases Nat.lt_or_ge i 32 with h | h
    · rw [State.byteAt_writeWord_ne s v (by omega), ← State.getLsbD_ct s k hi, if_pos h, lowHalf,
        BitVec.getLsbD_extractLsb', ← State.lowBits_ct s k, getLsbD_lowBits, getLsbD_lowBits, Nat.zero_add]
      simp [h]
    · rw [show ctOffset k + i / 8 = ctOffset k + 4 + (i / 8 - 4) by omega, State.byteAt_writeWord s _ v (by omega),
        getLsbD_lowBits, show ctOffset k + 4 + (i / 8 - 4) = ctOffset k + i / 8 by omega,
        byteBits_ctOffset _ _ (by omega), BitVec.getLsbD_extractLsb', if_neg (by omega),
        show 8 * (i / 8 - 4) + i % 8 = i - 32 by omega]
      by_cases hw : i < s.params.word
      · simp [hw, show i % 8 < s.params.word - 8 * (i / 8) by omega, Nat.mod_lt]
      · simp [hw, show ¬ i % 8 < s.params.word - 8 * (i / 8) by omega]

/-- The low half of the low bits (R67, R69). -/
theorem lowHalf_lowBits (n : Nat) (hi lo : Word32) : lowHalf (lowBits n (joinHalves hi lo)) = lowBits n lo := by
  apply BitVec.eq_of_getLsbD_eq
  intro i h
  simp only [lowHalf, joinHalves, BitVec.getLsbD_extractLsb', getLsbD_lowBits, BitVec.getLsbD_append, Nat.zero_add]
  simp [h]

/-- The high half of the low bits (R67, R69). -/
theorem highHalf_lowBits (n : Nat) (hi lo : Word32) :
    highHalf (lowBits n (joinHalves hi lo)) = lowBits (n - 32) hi := by
  apply BitVec.eq_of_getLsbD_eq
  intro i h
  simp only [highHalf, joinHalves, BitVec.getLsbD_extractLsb', getLsbD_lowBits, BitVec.getLsbD_append]
  rw [if_neg (by omega), show 32 + i - 32 = i by omega]
  by_cases hn : 32 + i < n
  · simp [h, hn, show i < n - 32 by omega]
  · simp [hn, show ¬ i < n - 32 by omega]

/-- Each half of a value of `n` bits stays as it is when the other is written (R67, R69). -/
theorem halves_lowBits {n : Nat} {v : Word} (h : lowBits n v = v) (w : Word32) :
    highHalf (lowBits n (joinHalves (highHalf v) w)) = highHalf v ∧
      lowHalf (lowBits n (joinHalves w (lowHalf v))) = lowHalf v := by
  have e : lowBits n (joinHalves (highHalf v) (lowHalf v)) = v := by rw [joinHalves_halves, h]
  constructor
  · rw [highHalf_lowBits, ← highHalf_lowBits n _ (lowHalf v), e]
  · rw [lowHalf_lowBits, ← lowHalf_lowBits n (highHalf v), e]

/-- Halves of the low bits, joined with a new half: the low bits all the same (R67, R69). -/
theorem lowBits_joinHalves_lowBits (n : Nat) (hi lo hi' : Word32) :
    lowBits n (joinHalves hi' (lowHalf (lowBits n (joinHalves hi lo)))) = lowBits n (joinHalves hi' lo) := by
  apply BitVec.eq_of_getLsbD_eq
  intro i (h64 : i < 64)
  simp only [getLsbD_lowBits, joinHalves, lowHalf, BitVec.getLsbD_append, BitVec.getLsbD_extractLsb', Nat.zero_add]
  by_cases hn : i < n
  · rcases Nat.lt_or_ge i 32 with h | h
    · simp [hn, h]
    · simp [hn, Nat.not_lt.mpr h]
  · simp [hn]

/-- `CT[k]` reads back as it was written, in `WORD` bits (R69, R7). -/
theorem State.ct_setCt_same (s : State) (k : Nat) (v : Word) :
    ({ s with mem := s.mem.setCt s.params k v } : State).ct k = lowBits s.params.word v := by
  have hi := (State.ct_writeWord { s with mem := s.mem.writeWord s.params (ctOffset k) (lowHalf v) } k (highHalf v)).2
  have lo := (State.ct_writeWord s k (lowHalf v)).1
  simp only [Memory.setCt]
  rw [hi, lo, lowBits_joinHalves_lowBits, joinHalves_halves]

/-- Another entry keeps its value. -/
theorem State.ct_setCt_ne (s : State) {k j : Nat} (v : Word) (h : j ≠ k) :
    ({ s with mem := s.mem.setCt s.params k v } : State).ct j = s.ct j := by
  apply BitVec.eq_of_getLsbD_eq
  intro i (hi : i < 64)
  rw [State.getLsbD_ct _ _ hi, State.getLsbD_ct _ _ hi]
  simp only [State.byteAt]
  rw [Memory.read_setCt_outside _ _ _ _ (by simp only [ctOffset]; omega)]

/-- TXT and CT do not overlap: writing an entry of CT leaves TXT alone. -/
theorem State.txt_setCt (s : State) {i : Nat} (hi : i < 4096) (k : Nat) (v : Word) :
    ({ s with mem := s.mem.setCt s.params k v } : State).txt i = s.txt i := by
  simp only [State.txt, State.byteAt]
  rw [Memory.read_setCt_outside]
  simp only [txtOffset, ctOffset, Config.txtBase, Config.ctBase] at *; omega

theorem State.txt_setTxt (s : State) {k : Nat} (hk : k < 4096) (b : Byte) (i : Nat) :
    ({ s with mem := s.mem.setTxt s.params k b } : State).txt i = if i = k then b else s.txt i := by
  simp only [State.txt, State.byteAt, Memory.setTxt, Memory.read_store, txtOffset, Nat.add_left_cancel_iff]
  split
  · next h =>
    subst h
    rw [Option.getD_some, lowBits_lowBits]
    exact lowBits_byteBits_txt (by simp only [Config.txtBase]; omega) b
  · rfl

end Sys2Proof.Machine
end

