-- ==== Sys2Proof/Laws/Bus.lean ====
section
/-! SUPPORT. The address map window by window, and what serving one transaction can do. -/

namespace Sys2Proof.Machine

/-! ### The address map (R63) -/

theorem target_regLow {p : Config.Params} {i : Reg} (h : i.val < p.nreg) :
    target p (0x0100 + 8 * i.val) = .regLow i := by
  have hi : i.val < 16 := i.isLt
  unfold target
  rw [if_neg (by omega), if_neg (by omega), if_neg (by omega), if_neg (by omega), if_neg (by omega), if_pos (by omega),
    if_pos (by omega), show (0x0100 + 8 * i.val - 0x0100) / 8 = i.val by omega, Fin.ofNat_val_eq_self]

theorem target_regHigh {p : Config.Params} {i : Reg} (h : i.val < p.nreg) :
    target p (0x0104 + 8 * i.val) = .regHigh i := by
  have hi : i.val < 16 := i.isLt
  unfold target
  rw [if_neg (by omega), if_neg (by omega), if_neg (by omega), if_neg (by omega), if_neg (by omega), if_pos (by omega),
    if_neg (by omega), show (0x0104 + 8 * i.val - 0x0100) / 8 = i.val by omega, Fin.ofNat_val_eq_self]

theorem target_hash (p : Config.Params) (i : Fin 8) : target p (0x0180 + 4 * i.val) = .hash i := by
  have hi := i.isLt
  unfold target
  rw [if_neg (by omega), if_neg (by omega), if_neg (by omega), if_neg (by omega), if_neg (by omega), if_neg (by omega),
    if_pos (by omega), show (0x0180 + 4 * i.val - 0x0180) / 4 = i.val by omega, Fin.ofNat_val_eq_self]

theorem Params.legal_iff (p : Config.Params) :
    p.legal = true ↔ p.txtSize % 64 = 0 ∧ (64 ≤ p.txtSize ∧ p.txtSize ≤ 4096) ∧ (1 ≤ p.ctSize ∧ p.ctSize ≤ 1024) ∧
      (1 ≤ p.nreg ∧ p.nreg ≤ 16) ∧ 2 * p.word ≤ p.prod ∧ (2 ≤ p.word ∧ p.word ≤ 64) ∧
      25 < p.shaWord ∧ p.shaWord ≤ 32 := by
  simp [Config.Params.legal, and_assoc]

/-- `PROD` bits hold the product of two register values (R130, R140). -/
theorem Params.legal_prod {p : Config.Params} (h : p.legal = true) : 2 * p.word ≤ p.prod := by
  have := (Params.legal_iff p).1 h
  omega

theorem inTxt_iff (p : Config.Params) (a : Nat) : inTxt p a = true ↔ 0x1000 ≤ a ∧ a < 0x1000 + p.txtSize :=
  decide_eq_true_iff

theorem inCt_iff (p : Config.Params) (a : Nat) : inCt p a = true ↔ 0x2000 ≤ a ∧ a < 0x2000 + 8 * p.ctSize :=
  decide_eq_true_iff

theorem target_buffer {p : Config.Params} {a : Nat} (h : inTxt p a = true ∨ inCt p a = true) : target p a = .buffer a := by
  have h' := h
  rw [inTxt_iff, inCt_iff] at h'
  unfold target
  rw [if_neg (by omega), if_neg (by omega), if_neg (by omega), if_neg (by omega), if_neg (by omega), if_neg (by omega),
    if_neg (by omega), if_pos (by simpa using h)]

/-- A target is a buffer word only at an offset of TXT or CT, and it is that offset's. -/
theorem target_eq_buffer {p : Config.Params} {a b : Nat} (h : target p a = .buffer b) :
    a = b ∧ (inTxt p a = true ∨ inCt p a = true) := by
  unfold target at h
  split at h; · cases h
  split at h; · cases h
  split at h; · cases h
  split at h; · cases h
  split at h; · cases h
  split at h
  · split at h <;> cases h
  split at h; · cases h
  split at h
  · next hb => injection h with h; exact ⟨h, by simpa using hb⟩
  · cases h

/-- CMD is at offset 0x000C alone. -/
theorem target_eq_cmd {p : Config.Params} {a : Nat} : target p a = .cmd ↔ a = 0x000C := by
  constructor
  · intro h
    unfold target at h
    split_ifs at h
    assumption
  · rintro rfl; rfl

/-- STATUS is at offset 0x0008 alone. -/
theorem target_eq_status {p : Config.Params} {a : Nat} : target p a = .status ↔ a = 0x0008 := by
  constructor
  · intro h
    unfold target at h
    split_ifs at h
    assumption
  · rintro rfl; rfl

/-- CTRL is at offset 0x0004 alone. -/
theorem target_eq_ctrl {p : Config.Params} {a : Nat} : target p a = .ctrl ↔ a = 0x0004 := by
  constructor
  · intro h
    unfold target at h
    split_ifs at h
    assumption
  · rintro rfl; rfl

/-- `Ri.LO` is at offset 0x0100 + 8*i alone, among the aligned offsets, and only if the build has the register. -/
theorem target_eq_regLow {p : Config.Params} {a : Nat} {i : Reg} (h4 : a % 4 = 0) :
    target p a = .regLow i ↔ a = 0x0100 + 8 * i.val ∧ i.val < p.nreg := by
  constructor
  · intro h
    unfold target at h
    split_ifs at h
    injection h with h
    subst h
    simp only [Fin.val_ofNat, maxRegs]
    omega
  · rintro ⟨rfl, h⟩
    exact target_regLow h

/-- `Ri.HI` is at offset 0x0104 + 8*i alone, among the aligned offsets, and only if the build has the register. -/
theorem target_eq_regHigh {p : Config.Params} {a : Nat} {i : Reg} (h4 : a % 4 = 0) :
    target p a = .regHigh i ↔ a = 0x0104 + 8 * i.val ∧ i.val < p.nreg := by
  constructor
  · intro h
    unfold target at h
    split_ifs at h
    injection h with h
    subst h
    simp only [Fin.val_ofNat, maxRegs]
    omega
  · rintro ⟨rfl, h⟩
    exact target_regHigh h

/-- The reserved offsets of R63, for an offset of the aperture. -/
theorem target_eq_reserved {p : Config.Params} {a : Nat} (hp : p.legal = true) (h : a < 0x4000) :
    target p a = .reserved ↔ (0x0014 ≤ a ∧ a < 0x0100) ∨ (0x0100 + 8 * p.nreg ≤ a ∧ a < 0x0180) ∨ (0x01A0 ≤ a ∧ a < 0x1000) ∨
      (0x1000 + p.txtSize ≤ a ∧ a < 0x2000) ∨ 0x2000 + 8 * p.ctSize ≤ a ∨ (a < 0x0014 ∧ a % 4 ≠ 0) := by
  have hl := (Params.legal_iff p).1 hp
  have hb : (inTxt p a || inCt p a) = true ↔
      (0x1000 ≤ a ∧ a < 0x1000 + p.txtSize) ∨ (0x2000 ≤ a ∧ a < 0x2000 + 8 * p.ctSize) := by
    rw [Bool.or_eq_true, inTxt_iff, inCt_iff]
  unfold target
  split; · simp; omega
  split; · simp; omega
  split; · simp; omega
  split; · simp; omega
  split; · simp; omega
  split
  · split <;> simp <;> omega
  split; · simp; omega
  split
  · next hx => rw [hb] at hx; simp; omega
  · next hx => rw [hb] at hx; simp; omega

/-! ### Serving a transaction -/

/-- A refused request changes nothing but the answer (R62, R64, R66). -/
theorem State.serve_refused {s : State} {r : Request} (h : s.refuses r = true) : s.serve r = s.respond .busError := by
  simp [State.serve, h]

/-- A read that is served changes nothing but the answer (R72). -/
theorem State.serve_read {s : State} {r : Request} (h : s.refuses r = false) (hw : r.write = false) :
    s.serve r = s.respond (.data (s.busRead (r.target s.params))) := by
  simp [State.serve, h, hw]

/-- A write that is served. -/
theorem State.serve_write {s : State} {r : Request} (h : s.refuses r = false) (hw : r.write = true) :
    s.serve r = (s.busWrite r.wdata (r.target s.params)).respond .accepted := by
  simp [State.serve, h, hw]

/-- What serving one transaction can do: an answer alone, or an answer and one write that was not refused. -/
theorem State.serve_cases (s : State) (r : Request) :
    (∃ a, s.serve r = s.respond a) ∨
      (s.refuses r = false ∧ r.write = true ∧ s.serve r = (s.busWrite r.wdata (r.target s.params)).respond .accepted) := by
  by_cases h : s.refuses r = true
  · exact .inl ⟨_, State.serve_refused h⟩
  · rw [Bool.not_eq_true] at h
    by_cases hw : r.write = true
    · exact .inr ⟨h, hw, State.serve_write h hw⟩
    · exact .inl ⟨_, State.serve_read h (by simpa using hw)⟩

/-- What a request that is not refused satisfies. -/
theorem State.refuses_eq_false {s : State} {r : Request} (h : s.refuses r = false) :
    s.rst = false ∧ r.aligned = true ∧ r.target s.params ≠ .reserved ∧
      (s.busy = true → (r.target s.params).lockedWhileBusy r.write = false) := by
  simp only [State.refuses, Bool.or_eq_false_iff, Bool.not_eq_false', beq_eq_false_iff_ne, Bool.and_eq_false_iff] at h
  refine ⟨h.1.1.1, h.1.1.2, h.1.2, fun hb => ?_⟩
  rcases h.2 with h2 | h2
  · rw [hb] at h2; cases h2
  · exact h2

/-- What a bus write can do while a command runs: CTRL and STATUS alone (R66). -/
theorem State.busWrite_busy {s : State} {v : Word32} {t : Target} (h : t.lockedWhileBusy true = false) :
    s.busWrite v t = s ∨ s.busWrite v t = s.writeCtrl v ∨ s.busWrite v t = s.writeStatus v := by
  cases t <;> simp_all [Target.lockedWhileBusy, Target.isDataWindow, State.busWrite]

/-- While a command runs, a transaction leaves all but CTRL.IE, DONE, TRUNC and the answer alone (R66, R78). -/
theorem State.serve_busy {s : State} (hb : s.busy = true) (r : Request) :
    s.serve r = { s with ie := (s.serve r).ie, done := (s.serve r).done, trunc := (s.serve r).trunc,
                         resp := (s.serve r).resp } := by
  rcases s.serve_cases r with ⟨a, h⟩ | ⟨hr, hw, h⟩
  · rw [h]; rfl
  · have hl := (State.refuses_eq_false hr).2.2.2 hb
    rw [hw] at hl
    rcases State.busWrite_busy (s := s) (v := r.wdata) hl with e | e | e <;> rw [h, e] <;> rfl

end Sys2Proof.Machine
end

