-- ==== Sys2Proof/Laws/Decode.lean ====
section
/-! SUPPORT. The fields of a packed word, and which row a packed word matches. -/

namespace Sys2Proof

/-! ### Fields of a packed word (R101) -/

variable (resv : BitVec 8) (rs3 rs2 rs1 rd : Reg) (op : BitVec 8)

/-- A bit of a packed word, field by field. -/
theorem getLsbD_packWord (i : Nat) :
    (packWord resv rs3 rs2 rs1 rd op).getLsbD i =
      if i < 8 then op.getLsbD i
      else if i < 12 then (BitVec.ofFin rd : BitVec 4).getLsbD (i - 8)
      else if i < 16 then (BitVec.ofFin rs1 : BitVec 4).getLsbD (i - 12)
      else if i < 20 then (BitVec.ofFin rs2 : BitVec 4).getLsbD (i - 16)
      else if i < 24 then (BitVec.ofFin rs3 : BitVec 4).getLsbD (i - 20)
      else resv.getLsbD (i - 24) := by
  simp only [packWord, BitVec.getLsbD_append]
  repeat' split
  all_goals first
    | rfl
    | omega

@[simp] theorem opField_packWord : opField (packWord resv rs3 rs2 rs1 rd op) = op := by
  apply BitVec.eq_of_getLsbD_eq
  intro i hi
  simp [opField, getLsbD_packWord, hi]

theorem extract_packWord_rd : (packWord resv rs3 rs2 rs1 rd op).extractLsb' 8 4 = BitVec.ofFin rd := by
  apply BitVec.eq_of_getLsbD_eq
  intro i hi
  simp [getLsbD_packWord, hi, show ¬ 8 + i < 8 by omega, show 8 + i < 12 by omega]

theorem extract_packWord_rs1 : (packWord resv rs3 rs2 rs1 rd op).extractLsb' 12 4 = BitVec.ofFin rs1 := by
  apply BitVec.eq_of_getLsbD_eq
  intro i hi
  simp [getLsbD_packWord, hi, show ¬ 12 + i < 8 by omega, show ¬ 12 + i < 12 by omega,
    show 12 + i < 16 by omega]

theorem extract_packWord_rs2 : (packWord resv rs3 rs2 rs1 rd op).extractLsb' 16 4 = BitVec.ofFin rs2 := by
  apply BitVec.eq_of_getLsbD_eq
  intro i hi
  simp [getLsbD_packWord, hi, show ¬ 16 + i < 8 by omega, show ¬ 16 + i < 12 by omega,
    show ¬ 16 + i < 16 by omega, show 16 + i < 20 by omega]

theorem extract_packWord_rs3 : (packWord resv rs3 rs2 rs1 rd op).extractLsb' 20 4 = BitVec.ofFin rs3 := by
  apply BitVec.eq_of_getLsbD_eq
  intro i hi
  simp [getLsbD_packWord, hi, show ¬ 20 + i < 8 by omega, show ¬ 20 + i < 12 by omega,
    show ¬ 20 + i < 16 by omega, show ¬ 20 + i < 20 by omega, show 20 + i < 24 by omega]

@[simp] theorem rdField_packWord : rdField (packWord resv rs3 rs2 rs1 rd op) = rd := by
  rw [rdField, extract_packWord_rd]

@[simp] theorem rs1Field_packWord : rs1Field (packWord resv rs3 rs2 rs1 rd op) = rs1 := by
  rw [rs1Field, extract_packWord_rs1]

@[simp] theorem rs2Field_packWord : rs2Field (packWord resv rs3 rs2 rs1 rd op) = rs2 := by
  rw [rs2Field, extract_packWord_rs2]

@[simp] theorem rs3Field_packWord : rs3Field (packWord resv rs3 rs2 rs1 rd op) = rs3 := by
  rw [rs3Field, extract_packWord_rs3]

@[simp] theorem resvField_packWord : resvField (packWord resv rs3 rs2 rs1 rd op) = resv := by
  apply BitVec.eq_of_getLsbD_eq
  intro i hi
  simp [resvField, getLsbD_packWord, hi, show ¬ 24 + i < 8 by omega,
    show ¬ 24 + i < 12 by omega, show ¬ 24 + i < 16 by omega, show ¬ 24 + i < 20 by omega, show ¬ 24 + i < 24 by omega]

end Sys2Proof

namespace Sys2Proof

/-- Every word is its fields packed (R101). -/
theorem packWord_fields (w : Word32) :
    packWord (resvField w) (rs3Field w) (rs2Field w) (rs1Field w) (rdField w) (opField w) = w := by
  apply BitVec.eq_of_getLsbD_eq
  intro i hi
  simp only [getLsbD_packWord, resvField, rs3Field, rs2Field, rs1Field, rdField, opField, BitVec.ofFin_toFin,
    BitVec.getLsbD_extractLsb']
  repeat' split
  all_goals first
    | (simp only [Nat.zero_add, decide_eq_true (show i < 8 by omega), Bool.true_and])
    | (simp only [decide_eq_true (show i - 8 < 4 by omega), show 8 + (i - 8) = i by omega, Bool.true_and])
    | (simp only [decide_eq_true (show i - 12 < 4 by omega), show 12 + (i - 12) = i by omega, Bool.true_and])
    | (simp only [decide_eq_true (show i - 16 < 4 by omega), show 16 + (i - 16) = i by omega, Bool.true_and])
    | (simp only [decide_eq_true (show i - 20 < 4 by omega), show 20 + (i - 20) = i by omega, Bool.true_and])
    | (simp only [decide_eq_true (show i - 24 < 8 by omega), show 24 + (i - 24) = i by omega, Bool.true_and])

/-- Two packed words are equal only if their fields are. -/
theorem packWord_inj {resv resv' : BitVec 8} {rs3 rs2 rs1 rd rs3' rs2' rs1' rd' : Reg} {op op' : BitVec 8}
    (h : packWord resv rs3 rs2 rs1 rd op = packWord resv' rs3' rs2' rs1' rd' op') :
    resv = resv' ∧ rs3 = rs3' ∧ rs2 = rs2' ∧ rs1 = rs1' ∧ rd = rd' ∧ op = op' := by
  refine ⟨?_, ?_, ?_, ?_, ?_, ?_⟩
  · simpa using congrArg resvField h
  · simpa using congrArg rs3Field h
  · simpa using congrArg rs2Field h
  · simpa using congrArg rs1Field h
  · simpa using congrArg rdField h
  · simpa using congrArg opField h

/-- Masking a packed word masks its fields. -/
theorem packWord_and (resv resv' : BitVec 8) (rs3 rs2 rs1 rd rs3' rs2' rs1' rd' : Reg) (op op' : BitVec 8) :
    packWord resv rs3 rs2 rs1 rd op &&& packWord resv' rs3' rs2' rs1' rd' op' =
      packWord (resv &&& resv') (rs3 &&& rs3') (rs2 &&& rs2') (rs1 &&& rs1') (rd &&& rd') (op &&& op') := by
  have h : ∀ a b : Reg, (BitVec.ofFin (a &&& b) : BitVec 4) = BitVec.ofFin a &&& BitVec.ofFin b := by decide +kernel
  apply BitVec.eq_of_getLsbD_eq
  intro i hi
  simp only [BitVec.getLsbD_and, getLsbD_packWord, h]
  repeat' split
  all_goals rfl

/-- A mask and a pattern written as fields: the word matches when each masked field is the pattern's. -/
theorem and_packWord_eq_iff (w : Word32) (resv resv' : BitVec 8) (rs3 rs2 rs1 rd rs3' rs2' rs1' rd' : Reg)
    (op op' : BitVec 8) :
    w &&& packWord resv rs3 rs2 rs1 rd op = packWord resv' rs3' rs2' rs1' rd' op' ↔
      resvField w &&& resv = resv' ∧ rs3Field w &&& rs3 = rs3' ∧ rs2Field w &&& rs2 = rs2' ∧
        rs1Field w &&& rs1 = rs1' ∧ rdField w &&& rd = rd' ∧ opField w &&& op = op' := by
  constructor
  · intro h
    rw [← packWord_fields w, packWord_and] at h
    simpa using packWord_inj h
  · rintro ⟨h1, h2, h3, h4, h5, h6⟩
    rw [← packWord_fields w, packWord_and, ← h1, ← h2, ← h3, ← h4, ← h5, ← h6]

/-! ### Each row, by fields (R103: "A field not listed under 'fields used' must be 0") -/

theorem reg_and_zero (r : Reg) : r &&& 0 = 0 := by revert r; decide
theorem reg_and_max (r : Reg) : r &&& 15 = r := by revert r; decide
theorem field_and_max (b : BitVec 8) : b &&& 255 = b := by revert b; decide +kernel

/-- The row's mask and match, field by field: the opcode, `resv` = 0 and the fields the row does not use = 0. -/
theorem matchesWord_iff (m : Mnemonic) (w : Word32) :
    m.matchesWord w = true ↔
      opField w = m.opcode ∧ resvField w = 0 ∧
        match m with
        | .GCD | .EGCD | .MODINV => rs3Field w = 0
        | .MODMUL | .MODEXP => True
        | .ISPRIME => rs3Field w = 0 ∧ rs2Field w = 0
        | .ENC | .DEC => rdField w = 0
        | .SHAINIT => rs3Field w = 0 ∧ rs2Field w = 0 ∧ rs1Field w = 0 ∧ rdField w = 0
        | .SHABLK => rs3Field w = 0 ∧ rs2Field w = 0 ∧ rdField w = 0 := by
  have h1 : 0xFFF000FF#32 = packWord 255 15 0 0 0 255 := by decide
  have h2 : 0xFF0000FF#32 = packWord 255 0 0 0 0 255 := by decide
  have h3 : 0xFFFF00FF#32 = packWord 255 15 15 0 0 255 := by decide
  have h4 : 0xFF000FFF#32 = packWord 255 0 0 0 15 255 := by decide
  have h5 : 0xFFFFFFFF#32 = packWord 255 15 15 15 15 255 := by decide
  have h6 : 0xFFFF0FFF#32 = packWord 255 15 15 0 15 255 := by decide
  have hp : m.pattern = packWord 0 0 0 0 0 m.opcode := by cases m <;> decide
  simp only [Mnemonic.matchesWord, beq_iff_eq, hp]
  cases m <;>
    simp only [Mnemonic.mask, h1, h2, h3, h4, h5, h6, and_packWord_eq_iff, reg_and_zero, reg_and_max, field_and_max,
      true_and, and_true] <;>
    tauto

/-- Opcodes tell rows apart (R103). -/
theorem Mnemonic.opcode_inj {m n : Mnemonic} (h : m.opcode = n.opcode) : m = n := by
  cases m <;> cases n <;> first | rfl | exact absurd h (by decide)

/-- A word matches at most one row (R103). -/
theorem matchesWord_unique {m n : Mnemonic} {w : Word32} (hm : m.matchesWord w = true) (hn : n.matchesWord w = true) :
    m = n :=
  Mnemonic.opcode_inj (((matchesWord_iff m w).1 hm).1.symm.trans ((matchesWord_iff n w).1 hn).1)

theorem Mnemonic.mem_all (m : Mnemonic) : m ∈ Mnemonic.all := by cases m <;> decide

/-- The table search finds the row that matches. -/
theorem find_row_iff (w : Word32) (m : Mnemonic) :
    Mnemonic.all.find? (·.matchesWord w) = some m ↔ m.matchesWord w = true := by
  constructor
  · intro h; exact List.find?_some (p := fun m : Mnemonic => m.matchesWord w) h
  · intro h
    cases hf : Mnemonic.all.find? (·.matchesWord w) with
    | none => exact absurd h (by simpa using List.find?_eq_none.1 hf m m.mem_all)
    | some n => rw [matchesWord_unique (List.find?_some (p := fun m : Mnemonic => m.matchesWord w) hf) h]

/-- What decoding answers for a word that matches a row (R105). -/
theorem decode_of_matches {nreg : Nat} {m : Mnemonic} {w : Word32} (h : m.matchesWord w = true) :
    decode nreg w = if (m.instr w).wf nreg then .ok (m.instr w) else .error .noSuchRegister := by
  simp only [decode, (find_row_iff w m).2 h]

/-- Decoding answers a command only through a row of the table (R105). -/
theorem decode_ok_cases {nreg : Nat} {w : Word32} {i : Instr} (h : decode nreg w = .ok i) :
    ∃ m : Mnemonic, m.matchesWord w = true ∧ i.wf nreg = true ∧ i = m.instr w := by
  cases hf : Mnemonic.all.find? (·.matchesWord w) with
  | none => simp [decode, hf] at h
  | some m =>
    have hm := (find_row_iff w m).1 hf
    rw [decode_of_matches hm] at h
    split at h
    · next hc =>
      injection h with h
      subst h
      exact ⟨m, hm, hc, rfl⟩
    · cases h

/-- A row's command belongs to that row. -/
@[simp] theorem row_instr (m : Mnemonic) (w : Word32) : (m.instr w).row = m := by cases m <;> rfl

/-- A decoded command is well formed (R103, D3). -/
theorem wf_of_decode {nreg : Nat} {w : Word32} {i : Instr} (h : decode nreg w = .ok i) : i.wf nreg = true :=
  let ⟨_, _, hw, _⟩ := decode_ok_cases h
  hw

theorem Instr.wf_iff (nreg : Nat) (i : Instr) : i.wf nreg = true ↔ ∀ r ∈ i.registers, r < nreg := by
  simp [Instr.wf]

/-- With fewer registers no more words are legal (D3). -/
theorem decode_mono {n k : Nat} (hnk : n ≤ k) {w : Word32} {i : Instr} (h : decode n w = .ok i) : decode k w = .ok i := by
  obtain ⟨m, hm, hw, rfl⟩ := decode_ok_cases h
  rw [Instr.wf_iff] at hw
  rw [decode_of_matches hm, if_pos ((Instr.wf_iff ..).2 fun r hr => lt_of_lt_of_le (hw r hr) hnk)]

end Sys2Proof
end

