-- ==== Sys2Proof/Laws/Rsa.lean ====
section
/-! SUPPORT. What the two buffer loops of ENC and DEC leave, for any values written. -/

namespace Sys2Proof.Machine

/-- The memory after writing `f i` to `CT[i]` for every `i < len`. -/
def Memory.fillCt (p : Config.Params) (m : Memory) (f : Nat → Word) (len : Nat) : Memory :=
  (List.range len).foldl (fun m i => m.setCt p i (f i)) m

/-- The memory after writing `f i` to `TXT[i]` for every `i < len`. -/
def Memory.fillTxt (p : Config.Params) (m : Memory) (f : Nat → Byte) (len : Nat) : Memory :=
  (List.range len).foldl (fun m i => m.setTxt p i (f i)) m

theorem State.encryptPrefix_eq (s : State) (e n len : Nat) :
    s.encryptPrefix e n len = s.mem.fillCt s.params (s.encryptedAt e n) len := rfl

theorem State.decryptPrefix_eq (s : State) (d n len : Nat) :
    s.decryptPrefix d n len = s.mem.fillTxt s.params (fun i => BitVec.ofNat 8 (s.decryptedAt d n i)) len := rfl

@[simp] theorem Memory.fillCt_zero (p : Config.Params) (m : Memory) (f : Nat → Word) : m.fillCt p f 0 = m := rfl

theorem Memory.fillCt_succ (p : Config.Params) (m : Memory) (f : Nat → Word) (len : Nat) :
    m.fillCt p f (len + 1) = (m.fillCt p f len).setCt p len (f len) := by
  simp [Memory.fillCt, List.range_succ]

@[simp] theorem Memory.fillTxt_zero (p : Config.Params) (m : Memory) (f : Nat → Byte) : m.fillTxt p f 0 = m := rfl

theorem Memory.fillTxt_succ (p : Config.Params) (m : Memory) (f : Nat → Byte) (len : Nat) :
    m.fillTxt p f (len + 1) = (m.fillTxt p f len).setTxt p len (f len) := by
  simp [Memory.fillTxt, List.range_succ]

/-- What every entry write keeps, the loop keeps. -/
theorem Memory.fillCt_induction {p : Config.Params} {P : Memory → Prop} {m : Memory} (h : P m) (f : Nat → Word) {len : Nat}
    (step : ∀ m, P m → ∀ i < len, ∀ v, P (m.setCt p i v)) : P (m.fillCt p f len) := by
  induction len with
  | zero => exact h
  | succ len ih =>
    rw [Memory.fillCt_succ]
    exact step _ (ih fun m hm i hi v => step m hm i (by omega) v) len (by omega) _

/-- What every byte write keeps, the loop keeps. -/
theorem Memory.fillTxt_induction {p : Config.Params} {P : Memory → Prop} {m : Memory} (h : P m) (f : Nat → Byte)
    {len : Nat} (step : ∀ m, P m → ∀ i < len, ∀ b, P (m.setTxt p i b)) : P (m.fillTxt p f len) := by
  induction len with
  | zero => exact h
  | succ len ih =>
    rw [Memory.fillTxt_succ]
    exact step _ (ih fun m hm i hi v => step m hm i (by omega) v) len (by omega) _

theorem Memory.wf_fillCt {m : Memory} (h : m.wf = true) (p : Config.Params) (f : Nat → Word) (len : Nat) :
    (m.fillCt p f len).wf = true := Memory.fillCt_induction (P := fun m => m.wf = true) h f fun _ hm _ _ _ => Memory.wf_setCt hm _ _ _

theorem Memory.wf_fillTxt {m : Memory} (h : m.wf = true) (p : Config.Params) (f : Nat → Byte) (len : Nat) :
    (m.fillTxt p f len).wf = true := Memory.fillTxt_induction (P := fun m => m.wf = true) h f fun _ hm _ _ _ => Memory.wf_setTxt hm _ _ _

theorem Memory.fits_fillCt {p : Config.Params} {m : Memory} (h : m.fits p = true) (f : Nat → Word) (len : Nat) :
    (m.fillCt p f len).fits p = true := Memory.fillCt_induction (P := fun m => m.fits p = true) h f fun _ hm _ _ _ => Memory.fits_setCt hm _ _

theorem Memory.fits_fillTxt {p : Config.Params} {m : Memory} (h : m.fits p = true) (f : Nat → Byte) (len : Nat) :
    (m.fillTxt p f len).fits p = true := Memory.fillTxt_induction (P := fun m => m.fits p = true) h f fun _ hm _ _ _ => Memory.fits_setTxt hm _ _

theorem Memory.inBuffers_fillCt {p : Config.Params} {m : Memory} (h : m.inBuffers p = true) (f : Nat → Word) {len : Nat}
    (hl : len ≤ p.ctSize) : (m.fillCt p f len).inBuffers p = true :=
  Memory.fillCt_induction (P := fun m => m.inBuffers p = true) h f fun _ hm _ hi _ => Memory.inBuffers_setCt hm (by omega) _

theorem Memory.inBuffers_fillTxt {p : Config.Params} {m : Memory} (h : m.inBuffers p = true) (f : Nat → Byte) {len : Nat}
    (hl : len ≤ p.txtSize) : (m.fillTxt p f len).inBuffers p = true :=
  Memory.fillTxt_induction (P := fun m => m.inBuffers p = true) h f fun _ hm _ hi _ => Memory.inBuffers_setTxt hm (by omega) _

/-- Outside `CT[0..len-1]` nothing changes. -/
theorem Memory.read_fillCt_outside (p : Config.Params) (m : Memory) (f : Nat → Word) (len : Nat) {a : Nat}
    (h : a < ctOffset 0 ∨ ctOffset len ≤ a) : (m.fillCt p f len).read a = m.read a := by
  refine Memory.fillCt_induction (P := fun n => n.read a = m.read a) rfl f fun n hn i hi v => ?_
  rw [Memory.read_setCt_outside _ _ _ _ (by simp only [ctOffset] at *; omega), hn]

/-- Outside `TXT[0..len-1]` nothing changes. -/
theorem Memory.read_fillTxt_outside (p : Config.Params) (m : Memory) (f : Nat → Byte) (len : Nat) {a : Nat}
    (h : a < txtOffset 0 ∨ txtOffset len ≤ a) : (m.fillTxt p f len).read a = m.read a := by
  refine Memory.fillTxt_induction (P := fun n => n.read a = m.read a) rfl f fun n hn i hi v => ?_
  rw [Memory.setTxt, Memory.read_store, if_neg (by simp only [txtOffset] at *; omega), hn]

/-- Every entry below `len` holds the value written to it, in `WORD` bits. -/
theorem State.ct_fillCt (s : State) (f : Nat → Word) (len : Nat) {i : Nat} (h : i < len) :
    ({ s with mem := s.mem.fillCt s.params f len } : State).ct i = lowBits s.params.word (f i) := by
  induction len with
  | zero => omega
  | succ len ih =>
    rw [Memory.fillCt_succ]
    have hs := State.ct_setCt_same { s with mem := s.mem.fillCt s.params f len } len (f len)
    by_cases hi : i = len
    · subst hi; exact hs
    · exact (State.ct_setCt_ne { s with mem := s.mem.fillCt s.params f len } (f len) hi).trans (ih (by omega))

/-- Every byte below `len` holds the value written to it. -/
theorem State.txt_fillTxt (s : State) (f : Nat → Byte) {len : Nat} (hl : len ≤ 4096) {i : Nat} (h : i < len) :
    ({ s with mem := s.mem.fillTxt s.params f len } : State).txt i = f i := by
  induction len with
  | zero => omega
  | succ len ih =>
    rw [Memory.fillTxt_succ]
    have hs := State.txt_setTxt { s with mem := s.mem.fillTxt s.params f len } (k := len) (by omega) (f len) i
    refine hs.trans ?_
    split
    · next hi => rw [hi]
    · next hi => exact ih (by omega) (by omega)

/-- The check of R182 finds no byte: every byte of the prefix is below `n`. -/
theorem State.firstOutOfRange_eq_none_iff (s : State) (n len : Nat) :
    s.firstOutOfRange n len = none ↔ ∀ i < len, (s.txt i).toNat < n := by
  simp [State.firstOutOfRange]

/-- The check of R182 finds the lowest index whose byte is not below `n`. -/
theorem State.firstOutOfRange_eq_some_iff (s : State) (n len i : Nat) :
    s.firstOutOfRange n len = some i ↔ i < len ∧ n ≤ (s.txt i).toNat ∧ ∀ j < i, (s.txt j).toNat < n := by
  simp only [State.firstOutOfRange, List.find?_range_eq_some, decide_eq_true_eq, List.mem_range]
  constructor
  · rintro ⟨h1, h2, h3⟩
    exact ⟨h2, h1, fun j hj => by simpa using h3 j hj⟩
  · rintro ⟨h1, h2, h3⟩
    exact ⟨h2, h1, fun j hj => by simpa using h3 j hj⟩

/-- R184's flag: some decrypted value does not fit a byte. -/
theorem State.decryptsWide_iff (s : State) (d n len : Nat) :
    s.decryptsWide d n len = true ↔ ∃ i < len, 256 ≤ s.decryptedAt d n i := by
  simp [State.decryptsWide]

end Sys2Proof.Machine
end

