-- ==== Sys2Proof/Laws/Sha256.lean ====
section
/-! SUPPORT. The message schedule and the rounds as the recurrences of 43_sha256.md. -/

namespace Sys2Proof.Machine

theorem firstWords_length (n : Nat) (b : Nat → Byte) : (firstWords n b).length = 16 := by simp [firstWords]

@[simp] theorem roundConstants_length : roundConstants.length = 64 := by decide

theorem expandSchedule_length (n more : Nat) (w : List Word32) : (expandSchedule n more w).length = w.length + more := by
  induction more generalizing w with
  | zero => rfl
  | succ more ih => rw [expandSchedule, ih]; simp; omega

/-- Expansion keeps the words it started from. -/
theorem expandSchedule_getD_lt (n more : Nat) (w : List Word32) {t : Nat} (h : t < w.length) :
    (expandSchedule n more w).getD t 0 = w.getD t 0 := by
  induction more generalizing w with
  | zero => rfl
  | succ more ih =>
    rw [expandSchedule, ih _ (by simp; omega)]
    simp only [List.getD_eq_getElem?_getD, List.getElem?_append_left h]

/-- The recurrence of R205, for every word that expansion adds. -/
theorem expandSchedule_recurrence (n more : Nat) (w : List Word32) (hw : 16 ≤ w.length) {t : Nat} (h1 : w.length ≤ t)
    (h2 : t < w.length + more) :
    (expandSchedule n more w).getD t 0 =
      lowBits n (smallSigma1 n ((expandSchedule n more w).getD (t - 2) 0) + (expandSchedule n more w).getD (t - 7) 0 +
        smallSigma0 n ((expandSchedule n more w).getD (t - 15) 0) + (expandSchedule n more w).getD (t - 16) 0) := by
  induction more generalizing w with
  | zero => omega
  | succ more ih =>
    have hl : (w ++ [nextWord n w]).length = w.length + 1 := by simp
    by_cases ht : t = w.length
    · subst ht
      have keep : ∀ j, j < w.length → (expandSchedule n (more + 1) w).getD j 0 = w.getD j 0 :=
        fun j hj => expandSchedule_getD_lt _ _ _ hj
      have hlast : (expandSchedule n (more + 1) w).getD w.length 0 = nextWord n w := by
        rw [expandSchedule, expandSchedule_getD_lt _ _ _ (by simp)]
        simp [List.getD_eq_getElem?_getD]
      rw [hlast, keep _ (by omega), keep _ (by omega), keep _ (by omega), keep _ (by omega), nextWord]
    · rw [expandSchedule]
      exact ih _ (by omega) (by omega) (by omega)

@[simp] theorem schedule_length (n : Nat) (b : Nat → Byte) : (schedule n b).length = 64 := by
  simp [schedule, expandSchedule_length, firstWords_length]

/-- `W[t]` for `t < 16` (R204). -/
theorem schedule_first (n : Nat) (b : Nat → Byte) {t : Nat} (h : t < 16) : (schedule n b).getD t 0 = blockWord n b t := by
  rw [schedule, expandSchedule_getD_lt _ _ _ (by rw [firstWords_length]; exact h)]
  simp [firstWords, List.getD_eq_getElem?_getD, h]

/-- `W[t]` for `16 <= t < 64` (R205). -/
theorem schedule_recurrence (n : Nat) (b : Nat → Byte) {t : Nat} (h1 : 16 ≤ t) (h2 : t < 64) :
    (schedule n b).getD t 0 =
      lowBits n (smallSigma1 n ((schedule n b).getD (t - 2) 0) + (schedule n b).getD (t - 7) 0 +
        smallSigma0 n ((schedule n b).getD (t - 15) 0) + (schedule n b).getD (t - 16) 0) :=
  expandSchedule_recurrence n 48 (firstWords n b) (by rw [firstWords_length]) (by rw [firstWords_length]; exact h1)
    (by rw [firstWords_length]; exact h2)

/-- The schedule depends on the 64 bytes of the block alone. -/
theorem schedule_congr (n : Nat) {b c : Nat → Byte} (h : ∀ k < 64, b k = c k) : schedule n b = schedule n c := by
  have : firstWords n b = firstWords n c := by
    simp only [firstWords]
    apply List.map_congr_left
    intro t ht
    rw [List.mem_range] at ht
    simp [blockWord, h (4 * t) (by omega), h (4 * t + 1) (by omega), h (4 * t + 2) (by omega), h (4 * t + 3) (by omega)]
  rw [schedule, schedule, this]

/-- The working variables after the first `t` rounds. -/
def workingAfter (n : Nat) (v : Working) (w : List Word32) (t : Nat) : Working :=
  ((roundConstants.zip w).take t).foldl (fun v p => shaRound n v p.1 p.2) v

@[simp] theorem workingAfter_zero (n : Nat) (v : Working) (w : List Word32) : workingAfter n v w 0 = v := by
  simp [workingAfter]

/-- One more round (R206). -/
theorem workingAfter_succ (n : Nat) (v : Working) {w : List Word32} (hw : w.length = 64) {t : Nat} (h : t < 64) :
    workingAfter n v w (t + 1) = shaRound n (workingAfter n v w t) (roundConstants.getD t 0) (w.getD t 0) := by
  have hz : t < (roundConstants.zip w).length := by simp [hw, h]
  have hk : t < roundConstants.length := by simpa using h
  have hw' : t < w.length := by omega
  simp only [workingAfter, List.take_add_one, List.foldl_append, List.getElem?_eq_getElem hz, List.getElem_zip,
    Option.toList_some, List.foldl_cons, List.foldl_nil, List.getD_eq_getElem?_getD, List.getElem?_eq_getElem hk,
    List.getElem?_eq_getElem hw', Option.getD_some]

/-- After 64 rounds the compressor's own rounds are done. -/
theorem workingAfter_all (n : Nat) (v : Working) {w : List Word32} (hw : w.length = 64) : workingAfter n v w 64 = shaRounds n v w := by
  rw [workingAfter, List.take_of_length_le (by simp [hw]), shaRounds]

/-- A compression gives words of `n` bits. -/
@[simp] theorem fitHash_compress (n : Nat) (H : Vector ShaWord 8) (w : List ShaWord) :
    fitHash n (compress n H w) = compress n H w := fitHash_fitHash n _

end Sys2Proof.Machine
end

