-- ==== Sys2Proof/Laws/Exec.lean ====
section
/-! SUPPORT. What the execution of a command can do, said once: it always answers a next state, which is either an
error completion of the state before, or a success that changed registers, H, the buffers and TRUNC at most. -/

namespace Sys2Proof.Machine

/-- The error completion of the state before (R262), with the `info` that R260 gives the code. -/
inductive Raised (s : State) : State → Prop where
  | illegal : Raised s (s.raise .illegal s.cur)
  | bounds : Raised s (s.raise .bounds 0)
  | zmod : Raised s (s.raise .zmod 0)
  | range (i : Nat) (h : i < s.params.txtSize) : Raised s (s.raise .range (BitVec.ofNat 32 i))
  | notcoprime : Raised s (s.raise .notcoprime 0)

/-- A success: the destinations of the command are written, the completion follows (R261). -/
structure Succeeded (s u : State) : Prop where
  frame : u = { s with regs := u.regs, hash := u.hash, mem := u.mem, trunc := u.trunc }
  wf : s.mem.wf = true → u.mem.wf = true
  inBuffers : s.mem.inBuffers s.params = true → u.mem.inBuffers s.params = true
  fits : s.mem.fits s.params = true → u.mem.fits s.params = true
  regs_fit : (∀ i : Reg, lowBits s.params.word s.regs[i] = s.regs[i]) →
    ∀ i : Reg, lowBits s.params.word u.regs[i] = u.regs[i]
  hash_fits : s.hashValue = s.hash → fitHash s.params.shaWord u.hash = u.hash

theorem Succeeded.setX {s u : State} (h : Succeeded s u) (i : Reg) (v : Word) : Succeeded s (u.setX i v) where
  frame := by
    have := h.frame
    simp only [State.setX]
    rw [this]
  wf := h.wf
  inBuffers := h.inBuffers
  fits := h.fits
  regs_fit := by
    intro hs j
    have hp : u.params = s.params := by rw [h.frame]
    have := State.x_setX u i j v
    by_cases hj : j = i
    · subst hj; simp [hp]
    · have hv : i.val ≠ j.val := fun e => hj (Fin.ext e.symm)
      simpa [hv] using h.regs_fit hs j
  hash_fits := h.hash_fits

theorem Succeeded.refl (s : State) : Succeeded s s := ⟨rfl, id, id, id, id, id⟩

/-- A success that writes H alone. -/
theorem Succeeded.setHash (s : State) {H : Vector ShaWord 8} (h : fitHash s.params.shaWord H = H) :
    Succeeded s { s with hash := H } := ⟨rfl, id, id, id, id, fun _ => h⟩

/-- A success that writes the buffers and TRUNC alone. -/
theorem Succeeded.setBuffers (s : State) {m : Memory} (b : Bool) (hw : s.mem.wf = true → m.wf = true)
    (hi : s.mem.inBuffers s.params = true → m.inBuffers s.params = true)
    (hf : s.mem.fits s.params = true → m.fits s.params = true) :
    Succeeded s { s with mem := m, trunc := b } := ⟨rfl, hw, hi, hf, id, id⟩

theorem State.lenOutOfBounds_iff (s : State) (len : Nat) :
    s.lenOutOfBounds len = true ↔ s.params.txtSize < len ∨ s.params.ctSize < len := by
  simp [State.lenOutOfBounds]

theorem State.blockOutOfBounds_iff (s : State) (off : Nat) :
    s.blockOutOfBounds off = true ↔ s.params.txtSize < off + 64 := by
  simp [State.blockOutOfBounds]

/-- Every command answers a next state: an error completion or a success. -/
theorem exec_cases (i : Instr) (s : State) :
    ∃ t, exec i s = .next t ∧ (Raised s t ∨ ∃ u, Succeeded s u ∧ t = u.succeed) := by
  cases i with
  | gcd rd rs1 rs2 => exact ⟨_, rfl, .inr ⟨_, (Succeeded.refl s).setX _ _, rfl⟩⟩
  | egcd rd rs1 rs2 =>
    simp only [exec, execEgcd]
    split
    · exact ⟨_, rfl, .inl .illegal⟩
    · exact ⟨_, rfl, .inr ⟨_, (((Succeeded.refl s).setX _ _).setX _ _).setX _ _, rfl⟩⟩
  | modinv rd rs1 rs2 =>
    simp only [exec, execModinv]
    split
    · exact ⟨_, rfl, .inl .zmod⟩
    · split
      · exact ⟨_, rfl, .inl .notcoprime⟩
      · exact ⟨_, rfl, .inr ⟨_, (Succeeded.refl s).setX _ _, rfl⟩⟩
  | modmul rd rs1 rs2 rs3 =>
    simp only [exec, execModmul]
    split
    · exact ⟨_, rfl, .inl .zmod⟩
    · exact ⟨_, rfl, .inr ⟨_, (Succeeded.refl s).setX _ _, rfl⟩⟩
  | modexp rd rs1 rs2 rs3 =>
    simp only [exec, execModexp]
    split
    · exact ⟨_, rfl, .inl .zmod⟩
    · exact ⟨_, rfl, .inr ⟨_, (Succeeded.refl s).setX _ _, rfl⟩⟩
  | isprime rd rs1 => exact ⟨_, rfl, .inr ⟨_, (Succeeded.refl s).setX _ _, rfl⟩⟩
  | enc rs1 rs2 rs3 =>
    simp only [exec, execEnc]
    split
    · exact ⟨_, rfl, .inl .bounds⟩
    next hb =>
    have hlen : (s.x rs3).toNat ≤ s.params.txtSize ∧ (s.x rs3).toNat ≤ s.params.ctSize := by
      simpa [State.lenOutOfBounds_iff, not_or] using hb
    split
    · exact ⟨_, rfl, .inl .zmod⟩
    split
    · next i hi =>
      exact ⟨_, rfl, .inl (.range i (lt_of_lt_of_le ((State.firstOutOfRange_eq_some_iff ..).1 hi).1 hlen.1))⟩
    · exact ⟨_, rfl, .inr ⟨_, Succeeded.setBuffers s s.trunc (fun h => Memory.wf_fillCt h _ _ _)
        (fun h => Memory.inBuffers_fillCt h _ hlen.2) fun h => Memory.fits_fillCt h _ _, rfl⟩⟩
  | dec rs1 rs2 rs3 =>
    simp only [exec, execDec]
    split
    · exact ⟨_, rfl, .inl .bounds⟩
    next hb =>
    have hlen : (s.x rs3).toNat ≤ s.params.txtSize ∧ (s.x rs3).toNat ≤ s.params.ctSize := by
      simpa [State.lenOutOfBounds_iff, not_or] using hb
    split
    · exact ⟨_, rfl, .inl .zmod⟩
    · exact ⟨_, rfl, .inr ⟨_, Succeeded.setBuffers s _ (fun h => Memory.wf_fillTxt h _ _ _)
        (fun h => Memory.inBuffers_fillTxt h _ hlen.1) fun h => Memory.fits_fillTxt h _ _, rfl⟩⟩
  | shainit => exact ⟨_, rfl, .inr ⟨_, Succeeded.setHash s (fitHash_initialHash _), rfl⟩⟩
  | shablk rs1 =>
    simp only [exec, execShablk]
    split
    · exact ⟨_, rfl, .inl .bounds⟩
    · exact ⟨_, rfl, .inr ⟨_, Succeeded.setHash s (fitHash_compress _ _ _), rfl⟩⟩

/-- An error completion writes ERRCODE, ERRINFO, DONE and `busy` alone (R262). -/
theorem Raised.eq_complete {s t : State} (h : Raised s t) : t = s.complete t.errcode t.errinfo := by
  cases h <;> rfl

theorem Raised.errcode_ne_ok {s t : State} (h : Raised s t) : t.errcode ≠ .ok := by
  cases h <;> simp

end Sys2Proof.Machine
end

