-- ==== Sys2Proof/Laws/Step.lean ====
section
/-! SUPPORT. What a step can do, said once. -/

namespace Sys2Proof.Machine

/-- A transaction is served (R75). -/
theorem step_bus {s : State} {r : Request} {es : List Event} (h : s.events = .bus r :: es) :
    step s = .next (({ s with events := es } : State).serve r) := by
  simp only [step, takeTurn, h, handleEvent]

/-- The reset pin takes a level (R300). -/
theorem step_rst {s : State} {level : Bool} {es : List Event} (h : s.events = .rst level :: es) :
    step s = .next (({ s with events := es } : State).setRst level) := by
  simp only [step, takeTurn, h, handleEvent]

/-- The Engine's turn, by an event. -/
theorem step_engine {s : State} {es : List Event} (h : s.events = .engine :: es) :
    step s = engineTurn { s with events := es } := by
  simp only [step, takeTurn, h, handleEvent]

/-- With nothing more to come it is the Engine's turn. -/
theorem step_nil {s : State} (h : s.events = []) : step s = engineTurn s := by
  simp only [step, takeTurn, h]

/-- An idle Engine, or one held in reset, has no step (R261, R300). -/
theorem engineTurn_idle {s : State} (h : s.busy = false ∨ s.rst = true) : engineTurn s = .next s := by
  rcases h with h | h <;> simp [engineTurn, h]

/-- A running command completes: the decoded command, or E_ILLEGAL (R104, R261). -/
theorem engineTurn_busy {s : State} (hb : s.busy = true) (hr : s.rst = false) : engineTurn s = completeCurrent s := by
  simp [engineTurn, hb, hr]

/-- With a command running and the pin at 0, the Engine's turn is the completion, whatever comes after it. -/
theorem step_completes {s : State} {es : List Event} (hb : s.busy = true) (hr : s.rst = false)
    (h : s.events = .engine :: es ∨ s.events = [] ∧ es = []) : step s = completeCurrent { s with events := es } := by
  rcases h with h | ⟨h, rfl⟩
  · rw [step_engine h, engineTurn_busy (s := { s with events := es }) hb hr]
  · rw [step_nil h, engineTurn_busy hb hr, ← h]

theorem completeCurrent_ok {s : State} {i : Instr} (h : Sys2Proof.decode s.params.nreg s.cur = .ok i) :
    completeCurrent s = exec i s := by
  simp only [completeCurrent, h]

theorem completeCurrent_error {s : State} {e : Illegal} (h : Sys2Proof.decode s.params.nreg s.cur = .error e) :
    completeCurrent s = .next (s.raise .illegal s.cur) := by
  simp only [completeCurrent, h]

/-- What completion can do. -/
theorem completeCurrent_cases (s : State) :
    ∃ t, completeCurrent s = .next t ∧
      ((∃ e, Sys2Proof.decode s.params.nreg s.cur = .error e ∧ t = s.raise .illegal s.cur) ∨
        ∃ i, Sys2Proof.decode s.params.nreg s.cur = .ok i ∧ exec i s = .next t) := by
  cases h : Sys2Proof.decode s.params.nreg s.cur with
  | error e => exact ⟨_, completeCurrent_error h, .inl ⟨e, rfl, rfl⟩⟩
  | ok i =>
    obtain ⟨t, ht, -⟩ := exec_cases i s
    exact ⟨t, by rw [completeCurrent_ok h, ht], .inr ⟨i, rfl, ht⟩⟩

/-- What the Engine's turn can do. -/
theorem engineTurn_cases (s : State) :
    (engineTurn s = .next s) ∨
      (s.busy = true ∧ s.rst = false ∧ ∃ t, engineTurn s = .next t ∧ completeCurrent s = .next t) := by
  by_cases h : s.busy = true ∧ s.rst = false
  · obtain ⟨t, ht, -⟩ := completeCurrent_cases s
    exact .inr ⟨h.1, h.2, t, by rw [engineTurn_busy h.1 h.2, ht], ht⟩
  · refine .inl (engineTurn_idle ?_)
    cases hb : s.busy <;> cases hr : s.rst <;> simp_all

/-- What a step can do: serve a transaction, move the reset pin, or give the Engine its turn. It always answers a next
state. -/
theorem step_cases (s : State) :
    ∃ t, step s = .next t ∧
      ((∃ r es, s.events = .bus r :: es ∧ t = ({ s with events := es } : State).serve r) ∨
        (∃ level es, s.events = .rst level :: es ∧ t = ({ s with events := es } : State).setRst level) ∨
        (∃ es, (s.events = .engine :: es ∨ s.events = [] ∧ es = []) ∧ engineTurn { s with events := es } = .next t)) := by
  match h : s.events with
  | [] =>
    have e : ({ s with events := [] } : State) = s := by rw [← h]
    rcases engineTurn_cases s with ht | ⟨-, -, t, ht, -⟩
    · exact ⟨s, by rw [step_nil h, ht], .inr (.inr ⟨[], .inr ⟨rfl, rfl⟩, by rw [e, ht]⟩)⟩
    · exact ⟨t, by rw [step_nil h, ht], .inr (.inr ⟨[], .inr ⟨rfl, rfl⟩, by rw [e, ht]⟩)⟩
  | .bus r :: es => exact ⟨_, step_bus h, .inl ⟨r, es, rfl, rfl⟩⟩
  | .rst level :: es => exact ⟨_, step_rst h, .inr (.inl ⟨level, es, rfl, rfl⟩)⟩
  | .engine :: es =>
    rcases engineTurn_cases { s with events := es } with ht | ⟨-, -, t, ht, -⟩
    · exact ⟨_, by rw [step_engine h, ht], .inr (.inr ⟨es, .inl rfl, ht⟩)⟩
    · exact ⟨t, by rw [step_engine h, ht], .inr (.inr ⟨es, .inl rfl, ht⟩)⟩

/-- A run takes its first step. -/
theorem core_run_next {s t : State} (h : step s = .next t) (k : Nat) :
    Sys2Proof.core.run (k + 1) s = Sys2Proof.core.run k t := by
  have h' : Sys2Proof.core.step s = .next t := h
  simp only [Host.Core.run, h']

/-- What completion keeps, success or error (R261). -/
theorem completeCurrent_frame {s t : State} (h : completeCurrent s = .next t) :
    t = { s with regs := t.regs, hash := t.hash, mem := t.mem, trunc := t.trunc, errcode := t.errcode,
                 errinfo := t.errinfo, done := true, busy := false } := by
  obtain ⟨t', ht', hc⟩ := completeCurrent_cases s
  rw [h] at ht'
  injection ht' with ht'
  subst ht'
  rcases hc with ⟨e, he, rfl⟩ | ⟨i, hd, hx⟩
  · rfl
  · obtain ⟨t', ht', hc⟩ := exec_cases i s
    rw [hx] at ht'
    injection ht' with ht'
    subst ht'
    rcases hc with hc | ⟨u, hu, rfl⟩
    · conv_lhs => rw [hc.eq_complete]
      conv_rhs => rw [hc.eq_complete]
      rfl
    · conv_lhs => rw [hu.frame]
      rfl

/-- An invariant needs one lemma for each thing a step can do. -/
theorem step_induction {P : State → State → Prop} {s t : State} (h : step s = .next t)
    (bus : ∀ r es, s.events = .bus r :: es → P s (({ s with events := es } : State).serve r))
    (rst : ∀ level es, s.events = .rst level :: es → P s (({ s with events := es } : State).setRst level))
    (idle : ∀ es, (s.events = .engine :: es ∨ s.events = [] ∧ es = []) → P s { s with events := es })
    (complete : ∀ es t, (s.events = .engine :: es ∨ s.events = [] ∧ es = []) → s.busy = true → s.rst = false →
      completeCurrent { s with events := es } = .next t → P s t) : P s t := by
  obtain ⟨t', ht', hc⟩ := step_cases s
  rw [h] at ht'
  injection ht' with ht'
  subst ht'
  rcases hc with ⟨r, es, he, rfl⟩ | ⟨level, es, he, rfl⟩ | ⟨es, he, ht⟩
  · exact bus r es he
  · exact rst level es he
  · rcases engineTurn_cases { s with events := es } with hi | ⟨hb, hr, u, hu, hcu⟩
    · rw [ht] at hi
      injection hi with hi
      subst hi
      exact idle es he
    · rw [ht] at hu
      injection hu with hu
      subst hu
      exact complete es _ he hb hr hcu

end Sys2Proof.Machine
end

