-- ==== Sys2Proof/Laws/HostProc.lean ====
section
/-! SUPPORT. The Host's procedures, one lemma per function. -/

namespace Sys2Proof.Machine

/-- Block `j` of a padded message is compressed into the hash of the blocks before it (R241). -/
theorem hashBlocks_take_succ (n : Nat) (p : List Byte) (j : Nat) (hl : 64 * (j + 1) ≤ p.length) :
    hashBlocks n (p.take (64 * (j + 1))) =
      compress n (hashBlocks n (p.take (64 * j))) (schedule n fun k => p.getD (64 * j + k) 0) := by
  have hlen : ∀ i, i ≤ j + 1 → (p.take (64 * i)).length / 64 = i := by
    intro i hi
    rw [List.length_take]
    omega
  have hget : ∀ i, ∀ k < 64 * i, (p.take (64 * i)).getD k 0 = p.getD k 0 := by
    intro i k hk
    simp only [List.getD_eq_getElem?_getD, List.getElem?_take, hk, if_true]
  have hfold : ∀ m, m ≤ j + 1 → hashBlocks n (p.take (64 * m)) =
      (List.range m).foldl (fun H i => compress n H (schedule n fun k => p.getD (64 * i + k) 0)) (initialHash n) := by
    intro m hm
    unfold hashBlocks
    rw [hlen m hm]
    refine List.foldl_ext _ _ _ fun H i hi => ?_
    have hi := List.mem_range.1 hi
    rw [schedule_congr n fun k hk => hget m (64 * i + k) (by omega)]
  rw [hfold j (by omega), hfold (j + 1) (le_refl _), List.range_succ, List.foldl_append, List.foldl_cons, List.foldl_nil]

/-- The hash of whole blocks has words of `n` bits. -/
theorem fitHash_hashBlocks (n : Nat) (p : List Byte) : fitHash n (hashBlocks n p) = hashBlocks n p := by
  unfold hashBlocks
  generalize p.length / 64 = m
  induction m with
  | zero => exact fitHash_initialHash n
  | succ m _ => rw [List.range_succ, List.foldl_append]; exact fitHash_compress _ _ _

/-! ### Driving the block -/

theorem perform_append (s : State) (es fs : List Event) : perform s (es ++ fs) = perform (perform s es) fs :=
  List.foldl_append

theorem happen_bus (s : State) (r : Request) : happen s (.bus r) = s.serve r := by
  simp only [happen, step_bus (s := { s with events := .bus r :: s.events }) rfl]

/-- The Engine's turn ends in what the current command leaves. -/
theorem happen_engine {s t : State} (hb : s.busy = true) (hr : s.rst = false) (h : completeCurrent s = .next t) :
    happen s .engine = t := by
  simp only [happen, step_completes (s := { s with events := .engine :: s.events }) (es := s.events) hb hr (.inl rfl)]
  change (match completeCurrent s with | .next t => t | .fault _ => s | .refused _ => s) = t
  rw [h]

theorem offset_toNat {off : Nat} (h : off < 0x4000) : (BitVec.ofNat 14 off).toNat = off := by
  rw [BitVec.toNat_ofNat]; exact Nat.mod_eq_of_lt (by omega)

/-- `wr` on an idle block. -/
theorem perform_wr {s : State} {off : Nat} (v : Word32) (hr : s.rst = false) (hb : s.busy = false) (h4 : off % 4 = 0)
    (hlt : off < 0x4000) (ht : target s.params off ≠ .reserved) :
    perform s (hostWr off v) = (s.busWrite v (target s.params off)).respond .accepted := by
  simp only [hostWr, perform, List.foldl_cons, List.foldl_nil, happen_bus]
  rw [State.serve_write _ rfl]
  · simp only [Request.target, offset_toNat hlt]
  · simp [State.refuses, Request.aligned, Request.target, offset_toNat hlt, hr, hb, h4, ht]

/-- `rd` of an offset that may be read now. -/
theorem perform_rd {s : State} {off : Nat} (hr : s.rst = false) (h4 : off % 4 = 0) (hlt : off < 0x4000)
    (ht : target s.params off ≠ .reserved)
    (hl : s.busy = false ∨ (target s.params off).lockedWhileBusy false = false) :
    perform s (hostRd off) = s.respond (.data (s.busRead (target s.params off))) := by
  simp only [hostRd, perform, List.foldl_cons, List.foldl_nil, happen_bus]
  rw [State.serve_read _ rfl]
  · simp only [Request.target, offset_toNat hlt]
  · rcases hl with hl | hl <;> simp [State.refuses, Request.aligned, Request.target, offset_toNat hlt, hr, h4, ht, hl]

/-- Polls of STATUS change nothing but the latest answer. -/
theorem perform_polls {s : State} (hr : s.rst = false) (n : Nat) :
    ∃ r, perform s (List.replicate n (hostRd 0x0008)).flatten = { s with resp := r } := by
  induction n generalizing s with
  | zero => exact ⟨s.resp, rfl⟩
  | succ n ih =>
    rw [List.replicate_succ, List.flatten_cons, perform_append,
      perform_rd hr (by decide) (by decide) (by simp [target]) (.inr rfl)]
    exact ih hr

/-- `cmd ...; wait` on an idle block: the command's effect on the state that accepted it, then its STATUS. -/
theorem perform_run {s : State} {i : Instr} (hr : s.rst = false) (hb : s.busy = false)
    (hd : decode s.params.nreg (encode i) = .ok i) (n : Nat) :
    ∃ r u, exec i { s.accept (encode i) with resp := r } = .next u ∧
      (u.rst = false → perform s (hostRun i n) = u.respond (.data u.status)) := by
  obtain ⟨r, hp⟩ := perform_polls (s := (s.accept (encode i)).respond .accepted) hr n
  obtain ⟨u, hu, -⟩ := exec_cases i { s.accept (encode i) with resp := r }
  refine ⟨r, u, hu, fun hur => ?_⟩
  rw [hostRun, hostCmd, hostWait, perform_append, perform_wr _ hr hb (by decide) (by decide) (by simp [target]),
    perform_append, perform_append]
  change perform (perform (perform ((s.accept (encode i)).respond .accepted) _) _) _ = _
  rw [hp]
  have hturn : perform { (s.accept (encode i)).respond .accepted with resp := r } [.engine] = u := by
    refine happen_engine rfl hr ?_
    rw [completeCurrent_ok (by exact hd)]
    exact hu
  rw [hturn, perform_rd hur (by decide) (by decide) (by simp [target]) (.inr rfl)]
  rfl

/-- `li Ri, V` on an idle block. -/
theorem perform_li {s : State} (hr : s.rst = false) (hb : s.busy = false) {i : Reg} (hi : i.val < s.params.nreg)
    (v : Word) : perform s (hostLi i v) = (s.setX i v).respond .accepted := by
  have hlt : i.val < 16 := i.isLt
  have hlow := target_regLow hi
  have hhigh := target_regHigh hi
  rw [hostLi, perform_append, perform_wr _ hr hb (by omega) (by omega) (by simp [hlow]), hlow]
  simp only [State.busWrite, State.setXLow]
  rw [perform_wr _ (by exact hr) (by exact hb) (by omega) (by omega) (by exact fun h => nomatch hhigh.symm.trans h)]
  change (State.busWrite _ _ (target s.params _)).respond _ = _
  rw [hhigh]
  simp only [State.busWrite, State.setXHigh]
  have hx : State.x ((s.setX i (joinHalves (highHalf (s.x i)) (lowHalf v))).respond .accepted) i =
      lowBits s.params.word (joinHalves (highHalf (s.x i)) (lowHalf v)) := State.x_setX_same _ _ _
  have hj := lowBits_joinHalves_lowBits s.params.word (highHalf (s.x i)) (lowHalf v) (highHalf v)
  rw [joinHalves_halves] at hj
  rw [hx]
  simp [State.setX, State.respond, hj]

/-- Words of TXT written by `ltxt` on an idle block: their bytes are the block's, every other byte stays. -/
theorem perform_ltxt {b : Nat → Byte} {off : Nat} (ks : List Nat) {s : State} (hr : s.rst = false) (hb : s.busy = false)
    (hp : s.params.legal = true) (hks : ∀ k ∈ ks, 4 * k < s.params.txtSize) :
    ∃ m r, perform s (ks.flatMap fun k =>
        hostLtxt k (blockByte off b (4 * k)) (blockByte off b (4 * k + 1)) (blockByte off b (4 * k + 2))
          (blockByte off b (4 * k + 3))) = { s with mem := m, resp := r } ∧
      (∀ i, State.txt { s with mem := m } i = if i / 4 ∈ ks then blockByte off b i else s.txt i) ∧
      ∀ a, 0x2000 ≤ a → State.byteAt { s with mem := m } a = s.byteAt a := by
  induction ks generalizing s with
  | nil => exact ⟨s.mem, s.resp, rfl, fun i => by simp, fun a _ => rfl⟩
  | cons k ks ih =>
    have hl := (Params.legal_iff _).1 hp
    have hk := hks k (by simp)
    have ht : target s.params (0x1000 + 4 * k) = .buffer (0x1000 + 4 * k) :=
      target_buffer (.inl (by rw [inTxt_iff]; omega))
    rw [List.flatMap_cons, perform_append, hostLtxt, perform_wr _ hr hb (by omega) (by omega) (by simp [ht]), ht]
    obtain ⟨v0, v1, v2, v3⟩ := append_bytes (blockByte off b (4 * k)) (blockByte off b (4 * k + 1))
      (blockByte off b (4 * k + 2)) (blockByte off b (4 * k + 3))
    generalize blockByte off b (4 * k + 3) ++ blockByte off b (4 * k + 2) ++ blockByte off b (4 * k + 1) ++
      blockByte off b (4 * k) = v at *
    obtain ⟨m, r, hrun, htxt, hct⟩ := ih (s := (s.busWrite v (.buffer (0x1000 + 4 * k))).respond .accepted) hr hb hp
      (fun j hj => hks j (by simp [hj]))
    refine ⟨m, r, hrun, fun i => (htxt i).trans ?_, fun a ha => (hct a ha).trans ?_⟩
    · by_cases hi : i / 4 ∈ ks
      · simp [hi]
      · simp only [hi, if_false, List.mem_cons, or_false]
        by_cases hik : i / 4 = k
        · rw [if_pos hik]
          have hw := State.byteAt_writeWord s (0x1000 + 4 * k) v (j := i % 4) (by omega)
          rw [lowBits_byteBits_txt (by omega), show 0x1000 + 4 * k + i % 4 = 0x1000 + i by omega] at hw
          refine Eq.trans hw ?_
          have hcases : i = 4 * k ∨ i = 4 * k + 1 ∨ i = 4 * k + 2 ∨ i = 4 * k + 3 := by omega
          rcases hcases with rfl | rfl | rfl | rfl
          · rw [show 4 * k % 4 = 0 by omega]; exact v0
          · rw [show (4 * k + 1) % 4 = 1 by omega]; exact v1
          · rw [show (4 * k + 2) % 4 = 2 by omega]; exact v2
          · rw [show (4 * k + 3) % 4 = 3 by omega]; exact v3
        · rw [if_neg hik]
          exact State.byteAt_writeWord_ne s v (by simp only [txtOffset, Config.txtBase]; omega)
    · exact State.byteAt_writeWord_ne s v (by omega)

/-- Putting a block in TXT: the block's bytes where TXT has them, nothing but TXT and the answer changed. -/
theorem perform_putBlock {s : State} (hr : s.rst = false) (hb : s.busy = false) (hp : s.params.legal = true) (off : Nat)
    (b : Nat → Byte) :
    ∃ m r, perform s (hostPutBlock s.params off b) = { s with mem := m, resp := r } ∧
      (∀ k < 64, off + 64 ≤ s.params.txtSize → State.txt { s with mem := m } (off + k) = b k) ∧
      ∀ a, 0x2000 ≤ a → State.byteAt { s with mem := m } a = s.byteAt a := by
  have hl := (Params.legal_iff _).1 hp
  obtain ⟨m, r, hrun, htxt, hct⟩ := perform_ltxt (b := b) (off := off) (blockWords s.params off) hr hb hp (by
    intro k hk
    simp only [blockWords, List.mem_filter, List.mem_range] at hk
    omega)
  refine ⟨m, r, hrun, fun k hk hoff => (htxt _).trans ?_, hct⟩
  have hm : (off + k) / 4 ∈ blockWords s.params off := by
    simp only [blockWords, List.mem_filter, List.mem_range, decide_eq_true_iff]
    omega
  rw [if_pos hm, blockByte, if_pos (by omega), Nat.add_sub_cancel_left]

/-- Reading the first `n` words of H leaves the last of them as the answer. -/
theorem perform_readHash {s : State} (hr : s.rst = false) (hb : s.busy = false) (n : Nat) (hn : n ≤ 8) :
    ∃ r, perform s (hostReadHash n) = { s with resp := r } ∧
      ∀ i : Fin 8, i.val + 1 = n → perform s (hostReadHash n) = s.respond (.data s.hashValue[i]) := by
  induction n with
  | zero => exact ⟨s.resp, rfl, by simp⟩
  | succ n ih =>
    obtain ⟨r, hx, -⟩ := ih (by omega)
    have happ : hostReadHash (n + 1) = hostReadHash n ++ hostRd (0x0180 + 4 * n) := by
      simp [hostReadHash, List.range_succ]
    have h8 := target_hash s.params ⟨n, by omega⟩
    dsimp only at h8
    have hlast : perform s (hostReadHash (n + 1)) = s.respond (.data (s.hashValue[(⟨n, by omega⟩ : Fin 8)])) := by
      rw [happ, perform_append, hx,
        perform_rd (by exact hr) (by omega) (by omega) (by simp [h8]) (.inl (by exact hb))]
      simp only [h8]
      rfl
    exact ⟨_, hlast, fun i hi => by rw [hlast]; congr; omega⟩

/-- `STATUS.ERR` (bit 2) says that ERRCODE is not OK (R24, R27). -/
theorem State.status_err (s : State) : s.status.getLsbD 2 = true ↔ s.errcode ≠ .ok := by
  unfold State.status State.err
  generalize s.busy = b
  generalize s.done = d
  generalize s.trunc = u
  generalize s.errcode = c
  revert b d u
  cases c <;> decide +kernel

/-- `STATUS.ERRCODE` is bits 11:8 (R24). -/
theorem State.status_errcode (s : State) : s.status.extractLsb' 8 4 = s.errcode.code := by
  unfold State.status State.err
  generalize s.busy = b
  generalize s.done = d
  generalize s.trunc = u
  generalize s.errcode = c
  revert b d u
  cases c <;> decide +kernel

/-! ### The block's commands in key setup -/

/-- Reading both halves of a register gives its value. -/
theorem hostReadReg_eq {s : State} (hr : s.rst = false) (hb : s.busy = false) {i : Reg} (hi : i.val < s.params.nreg) :
    hostReadReg i s = (s.x i, s.respond (.data (highHalf (s.x i)))) := by
  have hlt : i.val < 16 := i.isLt
  have hlow := target_regLow hi
  have hhigh := target_regHigh hi
  have e1 := perform_rd hr (off := 0x0100 + 8 * i.val) (by omega) (by omega) (by simp [hlow]) (.inl hb)
  rw [hlow] at e1
  have e2 := perform_rd (s := s.respond (.data (s.busRead (.regLow i)))) hr (off := 0x0104 + 8 * i.val) (by omega)
    (by omega) (by exact fun h => nomatch hhigh.symm.trans h) (.inl hb)
  change _ = State.respond _ (.data (State.busRead _ (target s.params _))) at e2
  rw [hhigh] at e2
  simp only [hostReadReg, e1, e2]
  exact Prod.ext (joinHalves_halves (s.x i)) rfl

/-- `li` for each operand writes the registers in turn. -/
theorem perform_operands (operands : List (Reg × Word)) {s : State} (hr : s.rst = false) (hb : s.busy = false)
    (ho : ∀ o ∈ operands, o.1.val < s.params.nreg) :
    ∃ r, perform s (operands.flatMap fun o => hostLi o.1 o.2) =
      { operands.foldl (fun s o => s.setX o.1 o.2) s with resp := r } := by
  induction operands generalizing s with
  | nil => exact ⟨s.resp, rfl⟩
  | cons o rest ih =>
    rw [List.flatMap_cons, perform_append, perform_li hr hb (ho o (by simp))]
    obtain ⟨r, h⟩ := ih (s := (s.setX o.1 o.2).respond .accepted) hr hb fun q hq => ho q (by simp [hq])
    refine ⟨r, h.trans ?_⟩
    have hresp : ∀ (l : List (Reg × Word)) (u : State), l.foldl (fun s o => s.setX o.1 o.2) (u.respond .accepted) =
        (l.foldl (fun s o => s.setX o.1 o.2) u).respond .accepted := by
      intro l
      induction l with
      | nil => exact fun _ => rfl
      | cons q l ih => exact fun u => ih (u.setX q.1 q.2)
    rw [hresp]
    rfl

/-- A command with its operands on an idle block: its effect on the state that holds the operands and accepted it, then
its STATUS. -/
theorem issue_eq {plan : KeyPlan} {operands : List (Reg × Word)} {i : Instr} {s v : State} (hr : s.rst = false)
    (hb : s.busy = false) (ho : ∀ o ∈ operands, o.1.val < s.params.nreg)
    (hv : operands.foldl (fun s o => s.setX o.1 o.2) s = v) (hp : v.params = s.params) (hvr : v.rst = s.rst)
    (hvb : v.busy = s.busy) (hd : decode s.params.nreg (encode i) = .ok i) :
    ∃ r u, exec i { v.accept (encode i) with resp := r } = .next u ∧
      (u.rst = false → issue plan operands i s = u.respond (.data u.status)) := by
  obtain ⟨r, h⟩ := perform_operands operands hr hb ho
  rw [hv] at h
  obtain ⟨r', u, hu, hx⟩ := perform_run (s := { v with resp := r }) (i := i) (hvr.trans hr) (hvb.trans hb)
    (by rw [show ({ v with resp := r } : State).params = s.params from hp]; exact hd) (plan.polls s)
  exact ⟨r', u, hu, fun hur => by rw [issue, perform_append, h]; exact hx hur⟩

/-! ### Key generation -/

theorem andThen_ok {α β : Type} {part : KeyProc α} {next : α → KeyProc β} {k k' : KeySetup} {b : β} :
    part.andThen next k = (.ok b, k') ↔ ∃ a k'', part k = (.ok a, k'') ∧ next a k'' = (.ok b, k') := by
  unfold KeyProc.andThen
  split
  · next x k'' h => simp [h]
  · next a k'' h => simp [h]

theorem andThen_error {α β : Type} {part : KeyProc α} {next : α → KeyProc β} {k : KeySetup} {x : KeySetupError} :
    (part.andThen next k).1 = .error x ↔
      (part k).1 = .error x ∨ ∃ a k'', part k = (.ok a, k'') ∧ (next a k'').1 = .error x := by
  unfold KeyProc.andThen
  split
  · next y k'' h => simp [h]
  · next a k'' h => simp [h]

/-- A loop that gives a value got it from its last attempt. -/
theorem resample_ok {attempt : KeyProc (Option Word)} {cap : Nat} {k k' : KeySetup} {c : Word}
    (h : resample attempt cap k = (.ok c, k')) :
    ∃ (n : Nat) (trail : Nat → KeySetup), n < cap ∧ trail 0 = k ∧ (∀ i < n, attempt (trail i) = (.ok none, trail (i + 1))) ∧
      attempt (trail n) = (.ok (some c), k') := by
  induction cap generalizing k with
  | zero => simp [resample] at h
  | succ cap ih =>
    obtain ⟨a, k1, h1, h2⟩ := andThen_ok.1 h
    cases a with
    | some d =>
      simp only [Prod.mk.injEq, Except.ok.injEq] at h2
      obtain ⟨rfl, rfl⟩ := h2
      exact ⟨0, fun _ => k, by omega, rfl, by simp, h1⟩
    | none =>
      obtain ⟨n, f, hn, h0, hi, hl⟩ := ih h2
      refine ⟨n + 1, fun i => if i = 0 then k else f (i - 1), by omega, rfl, ?_, by simpa using hl⟩
      rintro (_ | i) hlt
      · simpa [h0] using h1
      · simpa using hi i (by omega)

/-- A loop reports nothing but an exhausted loop, if its attempts do (R245). -/
theorem resample_error {attempt : KeyProc (Option Word)} {cap : Nat} {k : KeySetup} {x : KeySetupError}
    (hd : ∀ k x, (attempt k).1 = .error x → x = .keyGenerationFailure) (h : (resample attempt cap k).1 = .error x) :
    x = .keyGenerationFailure := by
  induction cap generalizing k with
  | zero => simpa [resample] using h.symm
  | succ cap ih =>
    rcases andThen_error.1 h with h | ⟨a, k1, -, h⟩
    · exact hd _ _ h
    · cases a with
      | some d => simp at h
      | none => exact ih h

theorem drawCandidate_error {k : KeySetup} {x : KeySetupError} (h : (drawCandidate k).1 = .error x) :
    x = .keyGenerationFailure := by
  unfold drawCandidate at h
  split at h <;> simp_all

theorem tryCandidate_error {inRange : Word → Bool} {test : Word → State → Word × State} {k : KeySetup}
    {x : KeySetupError} (h : (tryCandidate inRange test k).1 = .error x) : x = .keyGenerationFailure := by
  rcases andThen_error.1 h with h | ⟨c, k1, -, h⟩
  · exact drawCandidate_error h
  · split at h <;> simp at h

theorem samplePrime_error {h : Config.HostParams} {plan : KeyPlan} {k : KeySetup} {x : KeySetupError}
    (hx : (samplePrime h plan k).1 = .error x) : x = .keyGenerationFailure :=
  resample_error (fun _ _ => tryCandidate_error) hx

end Sys2Proof.Machine
end

