-- ==== Sys2Proof/Laws/PerInstr.lean ====
section
/-! SUPPORT. Statements about every command as syntax, one lemma per constructor. -/

namespace Sys2Proof.Laws.EncodeMatchesRow

/-- The assembled word matches its own row of the opcode table (30_encoding.md R103, R107). -/
def Statement (i : Instr) : Prop := i.row.matchesWord (encode i) = true

theorem gcd (rd rs1 rs2 : Reg) : Statement (.gcd rd rs1 rs2) := by
  simp [Statement, matchesWord_iff, encode, Instr.row]

theorem egcd (rd rs1 rs2 : Reg) : Statement (.egcd rd rs1 rs2) := by
  simp [Statement, matchesWord_iff, encode, Instr.row]

theorem modinv (rd rs1 rs2 : Reg) : Statement (.modinv rd rs1 rs2) := by
  simp [Statement, matchesWord_iff, encode, Instr.row]

theorem modmul (rd rs1 rs2 rs3 : Reg) : Statement (.modmul rd rs1 rs2 rs3) := by
  simp [Statement, matchesWord_iff, encode, Instr.row]

theorem modexp (rd rs1 rs2 rs3 : Reg) : Statement (.modexp rd rs1 rs2 rs3) := by
  simp [Statement, matchesWord_iff, encode, Instr.row]

theorem isprime (rd rs1 : Reg) : Statement (.isprime rd rs1) := by
  simp [Statement, matchesWord_iff, encode, Instr.row]

theorem enc (rs1 rs2 rs3 : Reg) : Statement (.enc rs1 rs2 rs3) := by
  simp [Statement, matchesWord_iff, encode, Instr.row]

theorem dec (rs1 rs2 rs3 : Reg) : Statement (.dec rs1 rs2 rs3) := by
  simp [Statement, matchesWord_iff, encode, Instr.row]

theorem shainit : Statement .shainit := by
  simp [Statement, matchesWord_iff, encode, Instr.row]

theorem shablk (rs1 : Reg) : Statement (.shablk rs1) := by
  simp [Statement, matchesWord_iff, encode, Instr.row]

end Sys2Proof.Laws.EncodeMatchesRow
end

