-- ==== Sys2Proof/Tests/Slice0.lean ====
section
/-! SUPPORT. Tests of one step each, their expected values taken from 95_test_vectors.md, and a witness for the
hypotheses of each statement of Obligations.lean. -/

namespace Sys2Proof.Tests

open Sys2Proof.Machine Sys2Proof.Claims

-- One theorem at a time: the kernel's evaluations side by side take a thread each, and its memory with it.
set_option Elab.async false

/-! ### Helpers -/

/-- The state after one command; the state itself if the command stopped. -/
def after (i : Instr) (s : State) : State :=
  match exec i s with
  | .next t => t
  | .fault _ | .refused _ => s

/-- The state after one step; the state itself if the machine stopped. -/
def afterStep (s : State) : State :=
  match step s with
  | .next t => t
  | .fault _ | .refused _ => s

/-- `R1`, `R2`, `R3` hold the three values; all else is as after reset. -/
def load (a b c : Word) : State := ((State.reset.setX 1 a).setX 2 b).setX 3 c

/-- TXT starts with these bytes. -/
def putTxt (bytes : List Byte) (s : State) : State :=
  { s with mem := (bytes.zip (List.range bytes.length)).foldl (fun m p => m.setTxt s.params p.2 p.1) s.mem }

/-- `CT[k]` holds `v`. -/
def putCt (k : Nat) (v : Word) (s : State) : State := { s with mem := s.mem.setCt s.params k v }

/-- `w` is the running command, and the Engine's turn is next. -/
def running (w : Word32) (s : State) : State := { s.accept w with events := [.engine] }

/-- One bus request is next. -/
def request (off : Nat) (write : Bool) (v : Word32) (s : State) : State :=
  { s with events := [.bus ⟨BitVec.ofNat 14 off, write, v, 4⟩] }

theorem exec_after (i : Instr) (s : State) : exec i s = .next (after i s) := by
  obtain ⟨t, h, -⟩ := exec_cases i s
  simp [after, h]

theorem step_afterStep (s : State) : step s = .next (afterStep s) := by
  obtain ⟨t, h, -⟩ := step_cases s
  simp [afterStep, h]

/-! ### Well-formedness: the one check, and terms it refuses and accepts (R103, R104) -/

theorem test_wf_egcd14_refused : (Instr.egcd 14 1 2).wf 16 = false := by decide
theorem test_wf_egcd15_refused : (Instr.egcd 15 0 0).wf 16 = false := by decide
theorem test_wf_egcd13_accepted : (Instr.egcd 13 1 2).wf 16 = true := by decide
theorem test_wf_missing_register_refused :
    (Instr.shablk 8).wf 8 = false ∧ (Instr.egcd 6 1 2).wf 8 = false ∧ (Instr.modmul 7 7 7 8).wf 8 = false ∧
      (Instr.egcd 5 7 7).wf 8 = true := by decide

/-! ### Decoding: words of V-ENC-WORD, written out from the fields of R101 -/

-- resv 00000000, rs3 0000, rs2 0010, rs1 0001, rd 0011, op 00000001
theorem test_decode_gcd : decode 16 0b00000000000000100001001100000001#32 = .ok (.gcd 3 1 2) := by decide
-- resv 00000000, rs3 0000, rs2 0010, rs1 0001, rd 1101, op 00000010
theorem test_decode_egcd : decode 16 0b00000000000000100001110100000010#32 = .ok (.egcd 13 1 2) := by decide
-- resv 00000000, rs3 0000, rs2 0010, rs1 0001, rd 0011, op 00000011
theorem test_decode_modinv : decode 16 0b00000000000000100001001100000011#32 = .ok (.modinv 3 1 2) := by decide
-- resv 00000000, rs3 0011, rs2 0010, rs1 0001, rd 0100, op 00000100
theorem test_decode_modmul : decode 16 0b00000000001100100001010000000100#32 = .ok (.modmul 4 1 2 3) := by decide
-- resv 00000000, rs3 0011, rs2 0010, rs1 0001, rd 0100, op 00000101
theorem test_decode_modexp : decode 16 0b00000000001100100001010000000101#32 = .ok (.modexp 4 1 2 3) := by decide
-- resv 00000000, rs3 0000, rs2 0000, rs1 0001, rd 0010, op 00000110
theorem test_decode_isprime : decode 16 0b00000000000000000001001000000110#32 = .ok (.isprime 2 1) := by decide
-- resv 00000000, rs3 0011, rs2 0010, rs1 0001, rd 0000, op 00010000
theorem test_decode_enc : decode 16 0b00000000001100100001000000010000#32 = .ok (.enc 1 2 3) := by decide
-- resv 00000000, rs3 0011, rs2 0010, rs1 0001, rd 0000, op 00010001
theorem test_decode_dec : decode 16 0b00000000001100100001000000010001#32 = .ok (.dec 1 2 3) := by decide
-- resv 00000000, rs3 0000, rs2 0000, rs1 0000, rd 0000, op 00100000
theorem test_decode_shainit : decode 16 0b00000000000000000000000000100000#32 = .ok .shainit := by decide
-- resv 00000000, rs3 0000, rs2 0000, rs1 0001, rd 0000, op 00100001
theorem test_decode_shablk : decode 16 0b00000000000000000001000000100001#32 = .ok (.shablk 1) := by decide

theorem test_reject_noSuchRegister : decode 16 0x00021E02#32 = .error .noSuchRegister := by decide
theorem test_reject_nonzeroUnusedField :
    ∀ w ∈ [0x00121301, 0x01021301, 0x00011206, 0x00321110, 0x00000120, 0x00011021],
      decode 16 (BitVec.ofNat 32 w) = .error .nonzeroUnusedField := by decide +kernel
theorem test_reject_unassignedOpcode :
    ∀ w ∈ [0x00000000, 0x00000007, 0x00321012, 0x00000022, 0x000000FF],
      decode 16 (BitVec.ofNat 32 w) = .error .unassignedOpcode := by decide +kernel

/-! ### Commands (the V tables; two each at most) -/

theorem test_gcd : ((after (.gcd 3 1 2) (load 240 46 0)).x 3).toNat = 2 := by decide +kernel
theorem test_gcd_zero : ((after (.gcd 3 1 2) (load 0 7 9)).x 3).toNat = 7 := by decide +kernel

/-- The in-place case of V-EGCD. -/
theorem test_egcd_in_place :
    let t := after (.egcd 1 1 2) (load 240 46 0)
    t.x 1 = 2 ∧ t.x 2 = 0xFFFFFFFFFFFFFFF7#64 ∧ t.x 3 = 47 := by decide +kernel
theorem test_egcd_largest :
    let t := after (.egcd 13 1 2) (load 7540113804746346429#64 12200160415121876738#64 0)
    t.x 13 = 1 ∧ t.x 14 = 0x40ABCFB3C0325745#64 ∧ t.x 15 = 0xD807F2255E458788#64 := by decide +kernel

theorem test_modinv : ((after (.modinv 3 1 2) (load 17 3120 0)).x 3).toNat = 2753 := by decide +kernel
theorem test_modinv_notcoprime :
    let t := after (.modinv 3 1 2) (load 6 9 0xDEAD)
    t.status = 0x00000506#32 ∧ t.x 3 = 0xDEAD ∧ t.errinfo = 0 := by decide +kernel

theorem test_modmul :
    after (.modmul 4 1 2 3) (load 0xFFFFFFFFFFFFFFFF#64 0xFFFFFFFFFFFFFFFF#64 0xFFFFFFFFFFFFFFC5#64) |>.x 4 |>.toNat |>
      (· = 3364) := by decide +kernel
theorem test_modmul_zmod : (after (.modmul 4 1 2 3) (load 5 7 0)).status = 0x00000306#32 := by decide +kernel

theorem test_modexp : ((after (.modexp 4 1 2 3) (load 65 17 3233)).x 4).toNat = 2790 := by decide +kernel
theorem test_modexp_zero_one : ((after (.modexp 1 1 2 3) (load 0 0 1)).x 1).toNat = 0 := by decide +kernel

theorem test_isprime : ((after (.isprime 2 1) (load 61 0 0)).x 2).toNat = 1 := by decide +kernel
theorem test_isprime_square : ((after (.isprime 2 1) (load 9409 5 0)).x 2).toNat = 0 := by decide +kernel

theorem test_enc :
    let t := after (.enc 1 2 3) (putTxt [0x48, 0x69] (load 17 3233 2))
    t.ct 0 = 3000 ∧ t.ct 1 = 3179 := by decide +kernel
/-- State 1 of program P4. -/
theorem test_enc_range :
    let t := after (.enc 1 2 3) (putCt 0 0x1234 (putTxt [0x61, 0x78] (load 17 100 2)))
    t.status = 0x00000406#32 ∧ t.errinfo = 1 ∧ t.ct 0 = 0x1234 := by decide +kernel

/-- The row `CT[0] = 2` of V-DEC: the value is 1027. -/
theorem test_dec_trunc :
    let t := after (.dec 1 2 3) (putCt 0 2 (load 2753 3233 1))
    t.txt 0 = 0x03 ∧ t.trunc = true ∧ t.status = 0x0000000A#32 := by decide +kernel
theorem test_dec :
    let t := after (.dec 1 2 3) (putCt 1 3179 (putCt 0 3000 (load 2753 3233 2)))
    t.txt 0 = 0x48 ∧ t.txt 1 = 0x69 ∧ t.trunc = false := by decide +kernel

theorem test_shainit : (after .shainit { State.reset with hash := .replicate 8 0 }).hash[7] = 0x5be0cd19#32 := by
  decide +kernel

theorem test_shablk_bounds : (after (.shablk 1) (load 961 0 0)).status = 0x00000206#32 := by decide +kernel

/-! ### The bus and the step -/

/-- Every row's word runs as the first command after reset. -/
theorem test_rows_run :
    ∀ w ∈ [0x00021301, 0x00021402, 0x00021303, 0x00321404, 0x00321405, 0x00001206, 0x00321010, 0x00321011, 0x00000020,
        0x00001021],
      let t := afterStep (State.reset.withFetchWord 32 w)
      t.busy = false ∧ t.done = true ∧ t.lastcmd = BitVec.ofNat 32 w := by decide +kernel

/-- State 3 of program P4. -/
theorem test_step_illegal :
    let t := afterStep (running 0x00021E02#32 State.reset)
    t.status = 0x00000106#32 ∧ t.errinfo = 0x00021E02#32 := by decide +kernel

/-- V-BUS: the write to `R0.HI`. -/
theorem test_bus_high_half :
    (afterStep (request 0x0104 true 0xFFFFFFFF#32 (State.reset.setX 0 5))).x 0 = 0xFFFFFFFF00000005#64 := by
  decide +kernel

/-- V-BUS: `wr 0x1000, 0x80636261`. -/
theorem test_bus_txt :
    let t := afterStep (request 0x1000 true 0x80636261#32 State.reset)
    t.txt 0 = 0x61 ∧ t.txt 1 = 0x62 ∧ t.txt 2 = 0x63 ∧ t.txt 3 = 0x80 := by decide +kernel

/-- V-BUS: the acknowledging write leaves ERRCODE. -/
theorem test_bus_ack :
    (afterStep (request 0x0008 true 0x0000000A#32
      { State.reset with done := true, trunc := true, errcode := .range })).status = 0x00000404#32 := by decide +kernel

/-- V-BUS: bus errors at reserved and unaligned offsets, and while busy. -/
theorem test_bus_errors :
    (∀ off ∈ [0x0014, 0x01A0, 0x1400, 0x1002], (afterStep (request off false 0 State.reset)).resp = some .busError) ∧
      (afterStep (request 0x0100 false 0 (running 0x20#32 State.reset))).resp = some .busError ∧
      (afterStep (request 0x000C true 0x21#32 (running 0x20#32 State.reset))).cur = 0x20#32 := by decide +kernel

/-! ### Another build (R7): `NREG` = 8, `TXT_SIZE` = 64, `CT_SIZE` = 16, `ID_VALUE` = 7 -/

/-- A small build right after reset, `R1`, `R2`, `R3` holding 17, 3233 and `len`. -/
def smallBuild (len : Word) : State :=
  (((State.resetWith { Config.hardware with nreg := 8, txtSize := 64, ctSize := 16, idValue := 7 }).setX 1 17).setX 2
    3233).setX 3 len

theorem test_small_build_enc_bounds : (after (.enc 1 2 3) (smallBuild 17)).status = 0x00000206#32 := by decide +kernel
theorem test_small_build_map :
    (smallBuild 0).params.legal = true ∧
      (∀ off ∈ [0x0140, 0x017C, 0x1040, 0x2080], (afterStep (request off false 0 (smallBuild 0))).resp = some .busError) ∧
      (∀ off ∈ [0x013C, 0x103C, 0x207C], (afterStep (request off true 0 (smallBuild 0))).resp = some .accepted) ∧
      (afterStep (request 0 false 0 (smallBuild 0))).resp = some (.data 7) := by decide +kernel

/-- A word that names `R8`, and EGCD to `R6` to `R8`, are illegal in the small build. -/
theorem test_small_build_illegal :
    (let t := afterStep (running 0x00082301#32 (smallBuild 0))
     t.status = 0x00000106#32 ∧ t.errinfo = 0x00082301#32) ∧
    (let t := afterStep (running 0x00021602#32 (smallBuild 0))
     t.status = 0x00000106#32 ∧ t.errinfo = 0x00021602#32) := by decide +kernel

/-! ### A narrow build (R7; log 9): `WORD` = 16, `PROD` = 32, `SHA_WORD` = 28; expected values by hand -/

/-- The narrow build right after reset, `R1`, `R2`, `R3` holding the low bits of the three values. -/
def narrowBuild (a b c : Word) : State :=
  (((State.resetWith { Config.hardware with word := 16, prod := 32, shaWord := 28 }).setX 1 a).setX 2 b).setX 3 c

/-- Reads and writes of `R0` and of `CT[0]` reach 16 bits; a read of `H0` gives the low 28 of R201. -/
theorem test_narrow_build_windows :
    (narrowBuild 0 0 0).params.legal = true ∧
      (∀ off ∈ [(0x0100, 0xFFFF#64), (0x0104, 0)],
        (afterStep (request off.1 true 0xFFFFFFFF#32 (narrowBuild 0 0 0))).x 0 = off.2) ∧
      (∀ a ∈ [(0x2001, 0xFF#8), (0x2002, 0)],
        (afterStep (request 0x2000 true 0xFFFFFFFF#32 (narrowBuild 0 0 0))).byteAt a.1 = a.2) ∧
      (afterStep (request 0x2004 true 0xFFFFFFFF#32 (narrowBuild 0 0 0))).byteAt 0x2004 = 0 ∧
      (afterStep (request 0x0180 false 0 (narrowBuild 0 0 0))).resp = some (.data 0x0A09E667#32) := by decide +kernel

/-- `-9` in two's complement of 16 bits, and a product of 32 bits reduced: `14 * 14`. -/
theorem test_narrow_build_arithmetic :
    (let t := after (.egcd 1 1 2) (narrowBuild 240 46 0)
     t.x 1 = 2 ∧ t.x 2 = 0xFFF7#64 ∧ t.x 3 = 47) ∧
      (after (.modmul 4 1 2 3) (narrowBuild 0xFFFF 0xFFFF 0xFFF1)).x 4 = 196 := by decide +kernel

/-- A rotation of 28 bits: bit 0 by two places is bit 26. -/
theorem test_narrow_build_rotation : rotr 28 1 2 = 0x04000000#32 ∧ rotr 32 1 2 = 0x40000000#32 := by decide

/-! ### The Host's procedures -/

/-- Block `j` at byte 5, through `R1`, with one poll while the command runs. -/
def planAt5 : HashPlan := ⟨1, fun _ => 5, fun _ => 1⟩

/-- R241: an offset out of bounds ends in `STATUS.ERR`, and the Host stops. -/
theorem test_hash_with_block_stops :
    let r := hashWithBlock ⟨1, fun _ => 961, fun _ => 0⟩ [0x61, 0x62, 0x63] State.reset
    r.1 = none ∧ r.2.status = 0x00000206#32 := by decide +kernel

/-- A Host whose primes lie in `[10, 100)` and whose loops give up after three attempts. -/
def cap3 : Config.HostParams := ⟨0, 10, 100, 3⟩

/-- Operands to `R1` and `R2`, results from `R3`, one poll while a command runs. -/
def plan123 : KeyPlan := ⟨1, 2, 3, fun _ => 1⟩

/-- P1: the key `p = 61`, `q = 53`, `e = 17` from a source that offers some rejected candidates first. The last command
is MODINV R3, R1, R2 on 17 and 3120. -/
theorem test_keypair :
    let r := generateKeypair cap3 plan123 ⟨State.reset, [60, 61, 61, 53, 3120, 17]⟩
    r.1.toOption = some ⟨17, 3233, 2753⟩ ∧ r.2.source = [] ∧ r.2.block.lastcmd = 0x00021303#32 ∧ r.2.block.x 3 = 2753 := by
  decide +kernel

/-- R242, R243, R245: each loop has a budget of its own. The second prime takes two of three attempts, the second of
which draws two candidates; a third rejected prime exhausts the loop of R243. -/
theorem test_caps_are_per_loop :
    (sampleOtherPrime cap3 plan123 11 ⟨State.reset, [12, 11, 14, 13]⟩).1.toOption = some 13 ∧
      (sampleOtherPrime cap3 plan123 11 ⟨State.reset, [11, 11, 11, 13]⟩).1.toOption = none ∧
      (samplePrime cap3 plan123 ⟨State.reset, [12, 14, 15, 13]⟩).1.toOption = none := by decide +kernel

/-- R245: MODINV of 6 modulo 9 completes with E_NOTCOPRIME (V-MODINV), which the Host reports. -/
theorem test_arithmetic_error :
    let r := hostModinv plan123 6 9 State.reset
    r.1 = .error .arithmeticError ∧ r.2.status = 0x00000506#32 := by decide +kernel

/-! ### Witnesses: states and operands that meet the hypotheses of each statement

A witness per clause stands at a boundary of the clause's range. -/

/-- A GCD is running (V-ENC-WORD, V-GCD). -/
def gcdRunning : State := running 0x00021301#32 (load 240 46 0)

theorem witness_StepKeepsInvariant : State.Inv gcdRunning ∧ step gcdRunning = .next (afterStep gcdRunning) :=
  ⟨⟨by decide, by decide +kernel, by decide +kernel, by decide +kernel, by decide +kernel,
    by decide +kernel, rfl, fun _ => rfl, fun _ _ => rfl, (fun h => nomatch h),
    (fun h => nomatch h), (fun h => nomatch h)⟩, step_afterStep _⟩

theorem witness_DecodeOfEncode : (Instr.egcd 13 15 0).wf 16 = true ∧ (Instr.shablk 15).wf 16 = true ∧
    (Instr.egcd 5 7 0).wf 8 = true := by decide

theorem witness_EncodeOfDecode : decode 16 0x00A59011#32 = .ok (.dec 9 5 10) := by decide +kernel

/-- Each disjunct of `IllegalWord` at a boundary, and legal words beside it. -/
theorem witness_IllegalWords_disjuncts :
    (∀ w ∈ [0x00, 0x07, 0x0F, 0x12, 0x1F, 0x22, 0xFF, 0x01021301, 0x00121301, 0x00121302,
        0x00121303, 0x00011206, 0x00101206, 0x00321110, 0x00321111, 0x00000120, 0x00001020,
        0x00010020, 0x00100020, 0x00000121, 0x00010021, 0x00100021, 0x00000E02], IllegalWord 16 (BitVec.ofNat 32 w)) ∧
      (∀ w ∈ [0x01, 0x06, 0x10, 0x11, 0x20, 0x21, 0x00000D02], ¬ IllegalWord 16 (BitVec.ofNat 32 w)) ∧
      (∀ w ∈ [0x00000801, 0x00008006, 0x00080010, 0x00800011, 0x00000602], IllegalWord 8 (BitVec.ofNat 32 w)) ∧
      ∀ w ∈ [0x00000701, 0x00007006, 0x00070010, 0x00700011, 0x00000502], ¬ IllegalWord 8 (BitVec.ofNat 32 w) := by
  simp [IllegalWord]

theorem witness_IllegalWordsCompleteWithEIllegal :
    let s := running 0x00021E02#32 State.reset
    (let s0 := request 0x000C true 0x00021E02#32 State.reset
     s0.busy = false ∧ s0.rst = false ∧ WriteNext s0 0x000C 0x00021E02#32 []) ∧
    1 ≤ s.params.nreg ∧ s.params.legal = true ∧ IllegalWord s.params.nreg 0x00021E02#32 ∧ s.cur = 0x00021E02#32 ∧ s.busy = true ∧ s.rst = false ∧ EngineNext s [] := by
  refine ⟨⟨rfl, rfl, rfl⟩, by decide, by decide, by unfold IllegalWord; decide +kernel, rfl, rfl, rfl, .inl rfl⟩

/-- Both ways the Engine's turn can be next. -/
theorem witness_StepRunsDecodedCommand :
    gcdRunning.busy = true ∧ gcdRunning.rst = false ∧ EngineNext gcdRunning [] ∧
      EngineNext { gcdRunning with events := [] } [] ∧ decode gcdRunning.params.nreg gcdRunning.cur = .ok (.gcd 3 1 2) :=
  ⟨rfl, rfl, .inl rfl, .inr ⟨rfl, rfl⟩, by decide +kernel⟩

theorem witness_EveryRunningCommandCompletes :
    gcdRunning.busy = true ∧ gcdRunning.rst = false ∧ EngineNext gcdRunning [] ∧
      (afterStep gcdRunning).errcode = .ok :=
  ⟨rfl, rfl, .inl rfl, by decide +kernel⟩

/-- MODINV of 6 modulo 9 is running. -/
def modinvRunning : State := running 0x00021303#32 (load 6 9 0)

theorem witness_ErrorCompletionIsAllOrNothing :
    modinvRunning.busy = true ∧ modinvRunning.rst = false ∧ EngineNext modinvRunning [] ∧
      step modinvRunning = .next (afterStep modinvRunning) ∧ (afterStep modinvRunning).errcode ≠ .ok :=
  ⟨rfl, rfl, .inl rfl, step_afterStep _, by decide +kernel⟩

/-- Two transactions fall between the acceptance and the completion of a GCD. -/
theorem witness_CommandIsAtomicToTheHost :
    let rs : List Request := [⟨0x0100, true, 0, 4⟩, ⟨0x0008, true, 0x2, 4⟩]
    let s : State := { gcdRunning with done := true, events := rs.map .bus ++ .engine :: [] }
    s.busy = true ∧ s.rst = false ∧ decode s.params.nreg s.cur = .ok (.gcd 3 1 2) ∧ s.events = rs.map .bus ++ .engine :: [] :=
  ⟨rfl, rfl, by decide +kernel, rfl⟩

theorem witness_EgcdFunctionIsClassic :
    (2 ^ 64 - 1 < 2 ^ 64 ∧ 2 ^ 64 - 2 < 2 ^ 64) ∧ egcd (2 ^ 64 - 1) (2 ^ 64 - 2) = (1, 1, -1) := by decide +kernel

/-- `rd` = 13 is the last legal destination and `rd` = 14 the first illegal one, 5 and 6 in the small build; a word with
`rs3` = 1 and one with `resv` = 1 stand for the field rules. -/
theorem witness_EgcdCommand :
    (13 : Reg).val ≤ 13 ∧ State.reset.params.legal = true ∧ (13 : Reg).val + 2 < State.reset.params.nreg ∧
      (14 : Reg).val = (13 : Reg).val + 1 ∧ (15 : Reg).val = (13 : Reg).val + 2 ∧
      (12 : Reg).val < (13 : Reg).val ∧ (0 : Reg).val + 2 < (3 : Reg).val ∧
      (smallBuild 0).params.legal = true ∧ (5 : Reg).val + 2 < (smallBuild 0).params.nreg ∧
      (1 : BitVec 8) ≠ 0 ∧ (1 : Reg).val ≠ 0 ∧
      (let s := running 0x00021E02#32 State.reset
       s.params.nreg ≤ (14 : Reg).val + 2 ∧ s.cur = packWord 0 0 2 1 14 0x02#8 ∧ s.busy = true ∧ s.rst = false ∧
         EngineNext s []) ∧
      (let s := running 0x00021602#32 (smallBuild 0)
       s.params.nreg ≤ (6 : Reg).val + 2 ∧ s.cur = packWord 0 0 2 1 6 0x02#8 ∧ s.busy = true ∧ s.rst = false ∧
         EngineNext s []) ∧
      (let s := running 0x01121D02#32 State.reset
       s.cur = packWord 1 1 2 1 13 0x02#8 ∧ s.busy = true ∧ s.rst = false ∧ EngineNext s []) :=
  ⟨by decide, by decide, by decide, by decide, by decide, by decide, by decide, by decide, by decide, by decide,
    by decide, ⟨by decide, by decide, rfl, rfl, .inl rfl⟩, ⟨by decide, by decide, rfl, rfl, .inl rfl⟩, by decide, rfl, rfl,
    .inl rfl⟩

theorem witness_EgcdRegistersMeetBezout :
    (14 : Reg).val = (13 : Reg).val + 1 ∧ (15 : Reg).val = (13 : Reg).val + 2 ∧
      (load 240 46 0).params.legal = true ∧ (15 : Reg).val < (load 240 46 0).params.nreg ∧
      exec (.egcd 13 1 2) (load 240 46 0) = .next (after (.egcd 13 1 2) (load 240 46 0)) :=
  ⟨rfl, rfl, by decide, by decide, exec_after _ _⟩

/-- One state for each clause: success (also modulo 1), E_ZMOD and E_NOTCOPRIME. -/
theorem witness_ModinvCommand :
    (((load 17 3120 0).x 2).toNat ≠ 0 ∧ Nat.gcd ((load 17 3120 0).x 1).toNat ((load 17 3120 0).x 2).toNat = 1) ∧
      (((load 0 1 0).x 2).toNat ≠ 0 ∧ Nat.gcd ((load 0 1 0).x 1).toNat ((load 0 1 0).x 2).toNat = 1) ∧
      ((load 3 0 0).x 2).toNat = 0 ∧
      ((load 6 9 0).x 2).toNat ≠ 0 ∧ Nat.gcd ((load 6 9 0).x 1).toNat ((load 6 9 0).x 2).toNat ≠ 1 := by decide +kernel

theorem witness_ModmulCommand :
    (load 5 7 1).params.legal = true ∧ ((load 5 7 1).x 3).toNat ≠ 0 ∧ ((load 5 7 0).x 3).toNat = 0 := by decide +kernel

theorem witness_ModexpCommand :
    (load 0 0 1).params.legal = true ∧ ((load 0 0 1).x 3).toNat ≠ 0 ∧ ((load 5 3 0).x 3).toNat = 0 := by decide +kernel

theorem witness_IsprimeCommand :
    State.reset.params.legal = true ∧ Nat.Prime ((load 2 0 0).x 1).toNat ∧ ¬ Nat.Prime ((load 1 0 0).x 1).toNat :=
  ⟨by decide, by show Nat.Prime 2; norm_num, by show ¬ Nat.Prime 1; norm_num⟩

/-- "ax" in TXT, `n` = 121 and `len` = 2: every code is in range. -/
def encReady : State := putTxt [0x61, 0x78] (load 17 121 2)

theorem witness_EncCommand_success :
    encReady.params.legal = true ∧ (encReady.x 3).toNat = 2 ∧ 2 ≤ encReady.params.txtSize ∧ 2 ≤ encReady.params.ctSize ∧ (encReady.x 2).toNat ≠ 0 ∧
      (∀ i < 2, (encReady.txt i).toNat < (encReady.x 2).toNat) := by decide +kernel

/-- The clauses at their boundaries: 1025 in this hardware and 17 in the small build (more than CT holds, not more than
TXT), `n` = 0 with the largest length, and a code equal to `n` at the second byte. -/
theorem witness_EncCommand_errors :
    (let s := load 17 3233 1025
     s.params.txtSize < (s.x 3).toNat) ∧
    (let s := smallBuild 17
     (s.x 3).toNat ≤ s.params.txtSize ∧ s.params.ctSize < (s.x 3).toNat) ∧
    (let s := load 17 0 1024
     (s.x 3).toNat ≤ s.params.txtSize ∧ (s.x 3).toNat ≤ s.params.ctSize ∧ (s.x 2).toNat = 0) ∧
    (let s := putTxt [0x61, 0x78] (load 17 120 2)
     1 < (s.x 3).toNat ∧ (s.x 3).toNat ≤ s.params.txtSize ∧ (s.x 3).toNat ≤ s.params.ctSize ∧ (s.x 2).toNat ≠ 0 ∧
       (s.x 2).toNat ≤ (s.txt 1).toNat ∧ ∀ j < 1, (s.txt j).toNat < (s.x 2).toNat) := by decide +kernel

theorem witness_DecCommand :
    (let s := load 17 1 1024
     s.params.legal = true ∧ (s.x 3).toNat ≤ s.params.txtSize ∧ (s.x 3).toNat ≤ s.params.ctSize ∧ (s.x 2).toNat ≠ 0) ∧
    (let s := load 17 3233 1025
     s.params.txtSize < (s.x 3).toNat) ∧
    (let s := smallBuild 17
     (s.x 3).toNat ≤ s.params.txtSize ∧ s.params.ctSize < (s.x 3).toNat) ∧
    (let s := load 17 0 1024
     (s.x 3).toNat ≤ s.params.txtSize ∧ (s.x 3).toNat ≤ s.params.ctSize ∧ (s.x 2).toNat = 0) := by decide +kernel

/-- "Hi" in TXT with the key of V-ENC, and `d` in `R4`. -/
def roundTripStart : State := putTxt [0x48, 0x69] ((load 17 3233 2).setX 4 2753)

/-- The state ENC leaves. -/
def roundTripMiddle : State := after (.enc 1 2 3) roundTripStart

theorem witness_DecryptAfterEncryptRestoresText :
    Nat.Prime 61 ∧ Nat.Prime 53 ∧ 61 ≠ 53 ∧ 17 * 2753 % ((61 - 1) * (53 - 1)) = 1 % ((61 - 1) * (53 - 1)) ∧
      roundTripStart.params.legal = true ∧ 2 ≤ roundTripStart.params.txtSize ∧ 2 ≤ roundTripStart.params.ctSize ∧
      (roundTripStart.x 1).toNat = 17 ∧ (roundTripStart.x 2).toNat = 61 * 53 ∧ (roundTripStart.x 3).toNat = 2 ∧
      (∀ i < 2, (roundTripStart.txt i).toNat < 61 * 53) ∧
      exec (.enc 1 2 3) roundTripStart = .next roundTripMiddle ∧ roundTripMiddle.params = roundTripStart.params ∧
      (roundTripMiddle.x 4).toNat = 2753 ∧ (roundTripMiddle.x 2).toNat = 61 * 53 ∧ (roundTripMiddle.x 3).toNat = 2 ∧
      exec (.dec 4 2 3) roundTripMiddle = .next (after (.dec 4 2 3) roundTripMiddle) :=
  ⟨by norm_num, by norm_num, by norm_num, by norm_num, by decide, by decide, by decide, by decide +kernel, by decide +kernel,
    by decide +kernel, by decide +kernel, exec_after _ _, by decide +kernel, by decide +kernel, by decide +kernel,
    by decide +kernel, exec_after _ _⟩

/-- A word with opcode 0x20 that is not the command. -/
theorem witness_ShainitCommand : BitVec.extractLsb 7 0 0x00000120#32 = 0x20#8 ∧ 0x00000120#32 ≠ 0x00000020#32 := by
  decide

theorem witness_ShablkCommand :
    (let s := load 960 0 0
     (s.x 1).toNat + 64 ≤ s.params.txtSize) ∧
    (let s := load 961 0 0
     s.params.txtSize < (s.x 1).toNat + 64) := by decide +kernel

/-- The first block of padded "abc" in TXT, right after SHAINIT's value. -/
def abcReady : State := putTxt (padMessage [0x61, 0x62, 0x63]) (load 0 0 0)

theorem witness_ShablkHashesOneMoreBlock :
    64 * (0 + 1) ≤ (padMessage [0x61, 0x62, 0x63]).length ∧ (abcReady.x 1).toNat + 64 ≤ abcReady.params.txtSize ∧
      abcReady.hash = hashBlocks 32 ((padMessage [0x61, 0x62, 0x63]).take (64 * 0)) ∧
      (∀ k < 64, abcReady.txt ((abcReady.x 1).toNat + k) = (padMessage [0x61, 0x62, 0x63]).getD (64 * 0 + k) 0) ∧
      exec (.shablk 1) abcReady = .next (after (.shablk 1) abcReady) :=
  ⟨by decide +kernel, by decide +kernel, by decide +kernel, by decide +kernel, exec_after _ _⟩

/-- A zero byte of the padding stands between the message and the length. -/
theorem witness_PaddingIsR240 :
    ([0x61, 0x62, 0x63] : List Byte).length + 1 ≤ 4 ∧ 4 + 8 < (padMessage [0x61, 0x62, 0x63]).length ∧
      ([0x61, 0x62, 0x63] : List Byte).length < 2 ^ 61 := by decide +kernel

theorem witness_RegisterCommandsFrame :
    (Instr.egcd 13 1 2) ∈
        [Instr.gcd 13 1 2, .egcd 13 1 2, .modinv 13 1 2, .modmul 13 1 2 3, .modexp 13 1 2 3, .isprime 13 1] ∧
      exec (.egcd 13 1 2) (load 240 46 0) = .next (after (.egcd 13 1 2) (load 240 46 0)) ∧
      (12 : Reg).val ∉ destinations (.egcd 13 1 2) :=
  ⟨by decide, exec_after _ _, by decide⟩

/-- Bytes outside the stores, at their boundaries: `len` is 2. -/
theorem witness_BufferCommandsFrame :
    exec (.enc 1 2 3) roundTripStart = .next roundTripMiddle ∧
      exec (.dec 4 2 3) roundTripMiddle = .next (after (.dec 4 2 3) roundTripMiddle) ∧
      0x1FFF < ctOffset 0 ∧ ctOffset (roundTripStart.x 3).toNat ≤ 0x2010 ∧
      0x0FFF < txtOffset 0 ∧ txtOffset (roundTripMiddle.x 3).toNat ≤ 0x1002 :=
  ⟨exec_after _ _, exec_after _ _, by decide, by decide +kernel, by decide, by decide +kernel⟩

theorem witness_HashCommandsFrame :
    (Instr.shablk 1) ∈ [Instr.shainit, .shablk 1] ∧ exec (.shablk 1) abcReady = .next (after (.shablk 1) abcReady) ∧
      exec .shainit abcReady = .next (after .shainit abcReady) :=
  ⟨by decide, exec_after _ _, exec_after _ _⟩

/-- An idle state with one write next, for any offset and value. -/
theorem witness_write (off : Nat) (v : Word32) :
    let s := request off true v State.reset
    s.busy = false ∧ s.rst = false ∧ WriteNext s off v [] := ⟨rfl, rfl, rfl⟩

/-- An idle state with one read next, for any offset. -/
theorem witness_read (off : Nat) :
    let s := request off false 0 State.reset
    s.busy = false ∧ s.rst = false ∧ ReadNext s off [] := ⟨rfl, rfl, 0, rfl⟩

/-- A legal word while idle, an illegal word with the Engine's turn after it, and a write while busy. -/
theorem witness_CmdWriteAcceptsCommand :
    (let s := request 0x000C true 0x00021301#32 State.reset
     s.rst = false ∧ WriteNext s 0x000C 0x00021301#32 [] ∧ s.busy = false) ∧
    (let s : State := { State.reset with events := hostWr 0x000C 0x00321012#32 ++ [.engine] }
     s.rst = false ∧ WriteNext s 0x000C 0x00321012#32 [.engine] ∧ s.busy = false ∧
       decode s.params.nreg 0x00321012#32 = .error .unassignedOpcode) ∧
    (let s := request 0x000C true 0x00021301#32 gcdRunning
     s.rst = false ∧ WriteNext s 0x000C 0x00021301#32 [] ∧ s.busy = true) :=
  ⟨⟨rfl, rfl, rfl⟩, ⟨rfl, rfl, rfl, by decide +kernel⟩, rfl, rfl, rfl⟩

/-- Each way to a bus error at a boundary, and served requests beside it. -/
theorem witness_BusErrorsChangeNothing :
    State.reset.params.legal = true ∧ gcdRunning.params.legal = true ∧
    (∀ r ∈ [(⟨0x0000, false, 0, 2⟩ : Request), ⟨0x0002, false, 0, 4⟩, ⟨0x0014, true, 1, 4⟩, ⟨0x00FC, true, 1, 4⟩,
        ⟨0x01A0, false, 0, 4⟩, ⟨0x0FFC, false, 0, 4⟩, ⟨0x1400, false, 0, 4⟩, ⟨0x1FFC, false, 0, 4⟩],
      BusError State.reset r) ∧
    (∀ r ∈ [(⟨0x0000, false, 0, 4⟩ : Request), ⟨0x0010, true, 1, 4⟩, ⟨0x0100, true, 1, 4⟩, ⟨0x019C, false, 0, 4⟩,
        ⟨0x1000, false, 0, 4⟩, ⟨0x13FC, false, 0, 4⟩, ⟨0x2000, false, 0, 4⟩, ⟨0x3FFC, true, 0, 4⟩],
      ¬ BusError State.reset r) ∧
    (∀ r ∈ [(⟨0x000C, true, 0, 4⟩ : Request), ⟨0x0100, false, 0, 4⟩, ⟨0x3FFC, false, 0, 4⟩], BusError gcdRunning r) ∧
    (∀ r ∈ [(⟨0x000C, false, 0, 4⟩ : Request), ⟨0x0008, true, 2, 4⟩], ¬ BusError gcdRunning r) ∧
    BusError { State.reset with rst := true } ⟨0x0000, false, 0, 4⟩ := by
  refine ⟨by decide, by decide, ?_, ?_, ?_, ?_, ?_⟩ <;>
    simp only [BusError, ReservedOffset, DataWindow, BufferWindow] <;> decide +kernel

theorem witness_ReadsHaveNoSideEffect :
    let r : Request := ⟨0x3FFC, false, 0, 4⟩
    (request 0x3FFC false 0 State.reset).events = .bus r :: [] ∧ r.write = false := ⟨rfl, rfl⟩

/-- The five control registers, idle and busy. -/
theorem witness_ControlRegistersRead :
    (∀ off ∈ [0x0000, 0x000C, 0x0010, 0x0004, 0x0008],
        (request off false 0 State.reset).rst = false ∧ ReadNext (request off false 0 State.reset) off []) ∧
      (request 0x0008 false 0 gcdRunning).rst = false ∧ ReadNext (request 0x0008 false 0 gcdRunning) 0x0008 [] :=
  ⟨fun off _ => ⟨rfl, (witness_read off).2.2⟩, rfl, 0, rfl⟩

theorem witness_ControlRegistersWrite :
    ∀ off ∈ [0x0008, 0x0004, 0x0000, 0x0010],
      (request off true 0xA State.reset).rst = false ∧ WriteNext (request off true 0xA State.reset) off 0xA [] :=
  fun off _ => ⟨rfl, (witness_write off _).2.2⟩

/-- `H7`. -/
theorem witness_HashWindowIsReadOnly :
    (let s := request (0x0180 + 4 * (7 : Fin 8).val) false 0 State.reset
     s.rst = false ∧ s.busy = false ∧ ReadNext s (0x0180 + 4 * (7 : Fin 8).val) []) ∧
    (let s := request (0x0180 + 4 * (7 : Fin 8).val) true 1 State.reset
     s.rst = false ∧ s.busy = false ∧ WriteNext s (0x0180 + 4 * (7 : Fin 8).val) 1 []) :=
  ⟨⟨rfl, rfl, 0, rfl⟩, rfl, rfl, rfl⟩

/-- `R15`, both halves, read and written. -/
theorem witness_RegisterHalves :
    (15 : Reg).val < State.reset.params.nreg ∧ ∀ off ∈ [0x0100 + 8 * (15 : Reg).val, 0x0104 + 8 * (15 : Reg).val],
      (let s := request off false 0 State.reset
       s.rst = false ∧ s.busy = false ∧ ReadNext s off []) ∧
      (let s := request off true 1 State.reset
       s.rst = false ∧ s.busy = false ∧ WriteNext s off 1 []) :=
  ⟨by decide, fun _ _ => ⟨⟨rfl, rfl, 0, rfl⟩, rfl, rfl, rfl⟩⟩

/-- The last word of TXT. -/
theorem witness_TxtWindow :
    State.reset.params.legal = true ∧ 4 * 255 < State.reset.params.txtSize ∧
      (let s := request (0x1000 + 4 * 255) false 0 State.reset
       s.rst = false ∧ s.busy = false ∧ ReadNext s (0x1000 + 4 * 255) []) ∧
      (let s := request (0x1000 + 4 * 255) true 1 State.reset
       s.rst = false ∧ s.busy = false ∧ WriteNext s (0x1000 + 4 * 255) 1 []) :=
  ⟨by decide, by decide, ⟨rfl, rfl, 0, rfl⟩, rfl, rfl, rfl⟩

/-- The two halves of the last entry of CT. -/
theorem witness_CtWindow :
    State.reset.params.legal = true ∧ 1023 < State.reset.params.ctSize ∧ ∀ off ∈ [0x2000 + 8 * 1023, 0x2004 + 8 * 1023],
      (let s := request off false 0 State.reset
       s.rst = false ∧ s.busy = false ∧ ReadNext s off []) ∧
      (let s := request off true 1 State.reset
       s.rst = false ∧ s.busy = false ∧ WriteNext s off 1 []) :=
  ⟨by decide, by decide, fun _ _ => ⟨⟨rfl, rfl, 0, rfl⟩, rfl, rfl, rfl⟩⟩

/-- After a command that ended with IE and TRUNC at 1. -/
def doneState : State := { State.reset with done := true, trunc := true, ie := true }

theorem witness_DoneIsSticky :
    let s := request 0x0008 true 0x2 doneState
    step s = .next (afterStep s) ∧ s.done = true ∧ (afterStep s).done = false :=
  ⟨step_afterStep _, rfl, by decide +kernel⟩

/-- TRUNC is set by DEC of the entry 2 (V-DEC), and cleared by a write to STATUS. -/
theorem witness_TruncChangesOnlyAsR28Says :
    (let s := running 0x00321011#32 (putCt 0 2 (load 2753 3233 1))
     s.params.legal = true ∧ step s = .next (afterStep s) ∧ s.trunc = false ∧ (afterStep s).trunc = true) ∧
    (let s := request 0x0008 true 0x8 doneState
     s.params.legal = true ∧ step s = .next (afterStep s) ∧ s.trunc = true ∧ (afterStep s).trunc = false) :=
  ⟨⟨by decide, step_afterStep _, rfl, by decide +kernel⟩, by decide, step_afterStep _, rfl, by decide +kernel⟩

/-- The level on and off, a completion with IE = 1, the write that sets IE after a completion, and the two writes that
lower `irq`. -/
theorem witness_IrqRisesAndStays :
    (doneState.rst = false ∧ doneState.ie = true ∧ doneState.done = true ∧ { doneState with ie := false }.irq = false) ∧
    (let s := request 0x0004 true 1 { doneState with ie := false }
     s.rst = false ∧ s.done = true ∧ WriteNext s 0x0004 1 [] ∧ (1#32).getLsbD 0 = true ∧ step s = .next (afterStep s)) ∧
    (let s := { gcdRunning with ie := true }
     s.busy = true ∧ s.rst = false ∧ s.ie = true ∧ EngineNext s [] ∧ step s = .next (afterStep s)) ∧
    (∀ off ∈ [(0x0008, 0x2#32), (0x0004, 0#32)],
      (request off.1 true off.2 doneState).irq = true ∧
        (afterStep (request off.1 true off.2 doneState)).irq = false) :=
  ⟨⟨rfl, rfl, rfl, rfl⟩, ⟨rfl, rfl, rfl, rfl, step_afterStep _⟩, ⟨rfl, rfl, rfl, .inl rfl, step_afterStep _⟩,
    by decide +kernel⟩

theorem witness_HashChangesOnlyByShaCommands :
    let s := running 0x00000020#32 { State.reset with hash := .replicate 8 0 }
    step s = .next (afterStep s) ∧ (afterStep s).hash ≠ s.hash := ⟨step_afterStep _, by decide +kernel⟩

theorem witness_RegistersChangeOnlyAsR21Says :
    (step gcdRunning = .next (afterStep gcdRunning) ∧ (afterStep gcdRunning).x 3 ≠ gcdRunning.x 3) ∧
      (let s := request 0x017C true 1 State.reset
       step s = .next (afterStep s) ∧ (afterStep s).x 15 ≠ s.x 15) :=
  ⟨⟨step_afterStep _, by decide +kernel⟩, step_afterStep _, by decide +kernel⟩

/-- ENC changes the low byte of `CT[0]`, here 0 before. -/
theorem witness_BuffersChangeOnlyByTheirWriters :
    let s := running 0x00321010#32 (putCt 0 0 (putTxt [0x48] (load 17 3233 1)))
    step s = .next (afterStep s) ∧ (afterStep s).byteAt 0x2000 ≠ s.byteAt 0x2000 :=
    ⟨step_afterStep _, by decide +kernel⟩

theorem witness_BusyLockout :
    let s := request 0x0100 true 1 gcdRunning
    s.busy = true ∧ s.events = .bus ⟨0x0100, true, 1, 4⟩ :: [] := ⟨rfl, rfl⟩

theorem witness_ResetPin :
    { gcdRunning with events := [.rst true] }.events = .rst true :: [] ∧
      { gcdRunning with events := [.rst false] }.events = .rst false :: [] := ⟨rfl, rfl⟩

theorem witness_HeldInReset :
    let s := request 0x0000 false 0 { State.reset with rst := true }
    s.rst = true ∧ (∀ level es, s.events ≠ .rst level :: es) ∧ step s = .next (afterStep s) :=
  ⟨rfl, (fun _ _ h => by simp [request] at h), step_afterStep _⟩

/-- Operands that are coprime, also modulo 1, and operands that are not. -/
theorem witness_KeySetupUsesTheBlock :
    State.reset.params.legal = true ∧ plan123.legal State.reset.params = true ∧ State.reset.busy = false ∧
      State.reset.rst = false ∧ State.reset.params.word = 64 ∧ (∀ a : Word, a.toNat < 2 ^ 64) ∧
      ((3120 : Word) ≠ 0 ∧ Nat.gcd (17 : Word).toNat (3120 : Word).toNat = 1) ∧
      ((1 : Word) ≠ 0 ∧ Nat.gcd (0 : Word).toNat (1 : Word).toNat = 1) ∧
      ((9 : Word) ≠ 0 ∧ Nat.gcd (6 : Word).toNat (9 : Word).toNat ≠ 1) :=
  ⟨by decide, by decide, rfl, rfl, rfl, fun a => a.isLt, by decide +kernel, by decide +kernel, by decide +kernel⟩

/-- The operands share no register in a legal plan; the small build has no `R8`. -/
theorem witness_KeyPlan_legal :
    plan123.legal (smallBuild 0).params = true ∧ KeyPlan.legal ⟨1, 1, 3, fun _ => 0⟩ State.reset.params = false ∧
      KeyPlan.legal ⟨1, 2, 8, fun _ => 0⟩ (smallBuild 0).params = false := by decide

theorem witness_GeneratedKeysAreRsaKeys :
    cap3.legal State.reset.params = true ∧ State.reset.params.legal = true ∧ plan123.legal State.reset.params = true ∧
      State.reset.busy = false ∧ State.reset.rst = false ∧
      (∃ left, generateKeypair cap3 plan123 ⟨State.reset, [60, 61, 61, 53, 3120, 17]⟩ = (.ok ⟨17, 3233, 2753⟩, left)) ∧
      ∃ left, generateKeypair cap3 plan123 ⟨State.reset, [60]⟩ = (.error .keyGenerationFailure, left) :=
  ⟨by decide, by decide, by decide, rfl, rfl, ⟨_, Prod.ext (by decide +kernel) rfl⟩, _, Prod.ext (by decide +kernel) rfl⟩

/-- The left sides: a loop that succeeds at its last attempt, and one that gives up just before. -/
theorem witness_ResamplingStopsAtRetryCap :
    cap3.legal State.reset.params = true ∧ State.reset.params.legal = true ∧ plan123.legal State.reset.params = true ∧
    State.reset.busy = false ∧ State.reset.rst = false ∧ (60 : Word).toNat < 2 ^ State.reset.params.word ∧
    (let r := samplePrime cap3 plan123 ⟨State.reset, [60, 15, 61, 7]⟩
     r.1 = .ok 61 ∧ r.2.source = [7]) ∧
    (samplePrime cap3 plan123 ⟨State.reset, [60, 15, 9, 61]⟩).1 = .error .keyGenerationFailure ∧
    (let r := sampleExponent cap3 plan123 60 ⟨State.reset, [60, 15, 59, 7]⟩
     r.1 = .ok 59 ∧ r.2.source = [7]) ∧
    (sampleExponent cap3 plan123 60 ⟨State.reset, [60, 15, 9, 7]⟩).1 = .error .keyGenerationFailure ∧
    (let r := sampleOtherPrime cap3 plan123 11 ⟨State.reset, [11, 11, 13]⟩
     r.1 = .ok 13 ∧ r.2.source = []) ∧
    (sampleOtherPrime cap3 plan123 11 ⟨State.reset, [11, 11, 11]⟩).1 = .error .keyGenerationFailure := by decide +kernel

/-- 56 bytes take two blocks. One plan puts both at the boundary of the bounds; another puts the second one byte too
far. -/
theorem witness_HashProcedureGivesTheDigest :
    let m : List Byte := List.replicate 56 0x61
    State.reset.params.legal = true ∧ (15 : Reg).val < State.reset.params.nreg ∧ State.reset.busy = false ∧
      State.reset.rst = false ∧ (padMessage m).length = 128 ∧
      (∀ j, 64 * j < (padMessage m).length → 960 < 2 ^ State.reset.params.word ∧ 960 + 64 ≤ State.reset.params.txtSize) ∧
      (let place : Nat → Nat := fun j => 960 + j
       64 * 1 < (padMessage m).length ∧ (∀ j, 64 * j < 128 → place j < 2 ^ State.reset.params.word) ∧ (∀ i < 1, place i + 64 ≤ State.reset.params.txtSize) ∧
         State.reset.params.txtSize < place 1 + 64) :=
  ⟨by decide, by decide, rfl, rfl, by decide +kernel, fun _ _ => by decide, by decide +kernel,
    fun j hj => show 960 + j < 2 ^ 64 by omega, by decide, by decide⟩

theorem witness_ParametersNeverChange : step gcdRunning = .next (afterStep gcdRunning) := step_afterStep _

theorem witness_WideProductIsExact :
    State.reset.params.legal = true ∧ (smallBuild 0).params.legal = true ∧ (narrowBuild 0 0 0).params.legal = true := by
  decide

/-- The clauses on a whole word hold right after reset. -/
theorem witness_ValuesHaveTheWidthsOfTheBuild : State.reset.params.word = 64 ∧ State.reset.params.shaWord = 32 :=
  ⟨rfl, rfl⟩

/-- `R8`, the first missing register, and `R15` in the small build, at both offsets. -/
theorem witness_FewerRegisters :
    1 ≤ 8 ∧ 8 ≤ 16 ∧ decode 8 0x00071701#32 = .ok (.gcd 7 1 7) ∧ (∀ r ∈ (Instr.gcd 7 1 7).registers, r < 8) ∧
      (smallBuild 0).params.nreg = 8 ∧ 8 ≤ (8 : Reg).val ∧ 8 ≤ (15 : Reg).val ∧
      ∀ off ∈ [(8, 0x0140), (8, 0x0144), (15, 0x0178), (15, 0x017C)],
        (off.2 = 0x0100 + 8 * off.1 ∨ off.2 = 0x0104 + 8 * off.1) ∧
        ∃ r : Request, r.offset.toNat = off.2 ∧ (request off.2 false 0 (smallBuild 0)).events = .bus r :: [] := by
  refine ⟨by decide, by decide, by decide +kernel, by decide, rfl, by decide, by decide, ?_⟩
  rintro off h
  refine ⟨?_, ⟨_, ?_, rfl⟩⟩ <;> revert off <;> decide

/-! ### Whole blocks of SHA-256, last because the kernel takes longest over them -/

/-- A block of TXT at a byte offset (V-SHA-5): "abc" padded, at bytes 5 to 68. -/
theorem test_shablk :
    (after (.shablk 1) (putTxt (List.replicate 5 0 ++ padMessage [0x61, 0x62, 0x63]) (load 5 0 0))).hash =
      #v[0xba7816bf#32, 0x8f01cfea#32, 0x414140de#32, 0x5dae2223#32, 0xb00361a3#32, 0x96177a9c#32, 0xb410ff61#32,
        0xf20015ad#32] := by decide +kernel

/-- The two-block message of V-SHA-2, 56 times "a". -/
theorem test_sha_two_blocks :
    (hashBlocks 32 (padMessage (List.replicate 56 0x61))).toList.take 2 = [0xb35439a4#32, 0xac6f0948#32] := by
  decide +kernel

/-- The source's digest of "abc" (V-SHA), driven through the block at an unaligned offset (R241). -/
theorem test_hash_with_block :
    (hashWithBlock planAt5 [0x61, 0x62, 0x63] State.reset).1 =
      some [0xba, 0x78, 0x16, 0xbf, 0x8f, 0x01, 0xcf, 0xea, 0x41, 0x41, 0x40, 0xde, 0x5d, 0xae, 0x22, 0x23,
        0xb0, 0x03, 0x61, 0xa3, 0x96, 0x17, 0x7a, 0x9c, 0xb4, 0x10, 0xff, 0x61, 0xf2, 0x00, 0x15, 0xad] := by
  decide +kernel

end Sys2Proof.Tests
end

section
/-! The parameters of the build and the widths of its values (R7). -/

namespace Sys2Proof.Machine

/-- No register or window that a write can reach holds a parameter (R63). -/
@[simp] theorem State.busWrite_params (s : State) (v : Word32) (t : Target) : (s.busWrite v t).params = s.params := by
  cases t <;> rfl

@[simp] theorem State.serve_params (s : State) (r : Request) : (s.serve r).params = s.params := by
  rcases s.serve_cases r with ⟨a, h⟩ | ⟨-, -, h⟩ <;> simp [h]

/-- The build is no part of what reset puts back (R300). -/
@[simp] theorem State.setRst_params (s : State) (level : Bool) : (s.setRst level).params = s.params := by
  cases level <;> simp

theorem completeCurrent_params {s t : State} (h : completeCurrent s = .next t) : t.params = s.params := by
  rw [completeCurrent_frame h]

theorem step_params {s t : State} (h : step s = .next t) : t.params = s.params := by
  refine step_induction (P := fun s t => t.params = s.params) h ?bus ?rst ?idle ?complete
  case bus => exact fun r _ _ => State.serve_params _ r
  case rst => exact fun level _ _ => State.setRst_params _ level
  case idle => exact fun _ _ => rfl
  case complete => exact fun _ _ _ _ _ hc => (completeCurrent_params hc :)

/-- A word of H holds a number of `SHA_WORD` bits (R33). -/
theorem State.hashValue_toNat_lt (s : State) (j : Fin 8) : s.hashValue[j].toNat < 2 ^ s.params.shaWord := by
  rw [State.hashValue_get]
  exact toNat_lowBits_lt _ _

/-- As many bits as a place of H has keep every word whole. -/
theorem fitHash_of_le {n : Nat} (h : maxShaWord ≤ n) (H : Vector ShaWord 8) : fitHash n H = H :=
  Vector.ext fun j hj => (fitHash_get n H ⟨j, hj⟩).trans (lowBits_of_le h _)

end Sys2Proof.Machine

namespace Sys2Proof.Claims

open Sys2Proof.Machine

/-- Settles O55: reset has the values of R7's table, and whatever a step does keeps the parameters. -/
theorem parametersNeverChange : Obligations.ParametersNeverChange :=
  ⟨rfl, fun _ _ h => step_params h⟩

/-- Settles O57: a register, a ciphertext entry and a word of H are read through their widths, which in this hardware
are those of their places. -/
theorem valuesHaveTheWidthsOfTheBuild : Obligations.ValuesHaveTheWidthsOfTheBuild := by
  intro s i k j v
  refine ⟨s.x_toNat_lt i, s.ct_toNat_lt k, s.hashValue_toNat_lt j, ?_, fun hw => ?_, fun hw => ?_⟩
  · rw [State.x_setX_same, toNat_lowBits]
  · rw [State.x_eq, hw, lowBits_of_le le_rfl]
  · exact fitHash_of_le hw.ge _

end Sys2Proof.Claims
end

section
/-! What one command and one step can change, said once: the frames and the whole-machine rules follow from it. -/

namespace Sys2Proof.Machine

open Sys2Proof.Claims

/-! ### A command's writes -/

/-- ENC's loop leaves every byte outside `CT[0..len-1]` (R182). -/
theorem State.byteAt_fillCt_outside (s : State) (f : Nat → Word) (len : Nat) {a : Nat}
    (h : a < ctOffset 0 ∨ ctOffset len ≤ a) :
    ({ s with mem := s.mem.fillCt s.params f len } : State).byteAt a = s.byteAt a := by
  simp only [State.byteAt, Memory.read_fillCt_outside _ _ _ _ h]

/-- DEC's loop leaves every byte outside `TXT[0..len-1]` (R184). -/
theorem State.byteAt_fillTxt_outside (s : State) (f : Nat → Byte) (len : Nat) {a : Nat}
    (h : a < txtOffset 0 ∨ txtOffset len ≤ a) :
    ({ s with mem := s.mem.fillTxt s.params f len } : State).byteAt a = s.byteAt a := by
  simp only [State.byteAt, Memory.read_fillTxt_outside _ _ _ _ h]

/-- What a command may have written when it succeeds: its destinations alone (R21). -/
inductive Writes : Instr → State → State → Prop where
  | registers {i : Instr} {s : State} (regs : Vector Word maxRegs)
      (frame : ∀ j : Reg, j.val ∉ destinations i → regs[j] = s.regs[j]) : Writes i s { s with regs := regs }
  | enc {s : State} (rs1 rs2 rs3 : Reg) (f : Nat → Word) :
      Writes (.enc rs1 rs2 rs3) s { s with mem := s.mem.fillCt s.params f (s.x rs3).toNat }
  | dec {s : State} (rs1 rs2 rs3 : Reg) (f : Nat → Byte) (modulus : (s.x rs2).toNat ≠ 0) :
      Writes (.dec rs1 rs2 rs3) s
        { s with mem := s.mem.fillTxt s.params f (s.x rs3).toNat,
                 trunc := s.trunc || s.decryptsWide (s.x rs1).toNat (s.x rs2).toNat (s.x rs3).toNat }
  | shainit {s : State} (H : Vector ShaWord 8) : Writes .shainit s { s with hash := H }
  | shablk {s : State} (rs1 : Reg) (H : Vector ShaWord 8) : Writes (.shablk rs1) s { s with hash := H }

/-- A command may write nothing. -/
theorem Writes.refl (i : Instr) (s : State) : Writes i s s := .registers s.regs fun _ _ => rfl

/-- One more write to a destination. -/
theorem Writes.setX {i : Instr} {s u : State} (h : Writes i s u) {rd : Reg} (hrd : rd.val ∈ destinations i) (v : Word) :
    Writes i s (u.setX rd v) := by
  cases h with
  | registers regs frame =>
    refine .registers _ fun j hj => ?_
    have hne : rd.val ≠ j.val := fun e => hj (e ▸ hrd)
    simpa [hne] using frame j hj
  | enc | dec | shainit | shablk => cases hrd

/-- A command ends with an error completion of the state before, E_ILLEGAL for EGCD alone, or with its writes and the
completion of R261. -/
theorem exec_effect {i : Instr} {s t : State} (h : exec i s = .next t) :
    (Raised s t ∧ (t.errcode = .illegal →
        ∃ rd rs1 rs2, i = .egcd rd rs1 rs2 ∧ (13 < rd.val ∨ s.params.nreg ≤ rd.val + 2))) ∨
      ∃ u, Writes i s u ∧ t = u.succeed := by
  cases i with
  | gcd rd rs1 rs2 => cases h; exact .inr ⟨_, (Writes.refl _ s).setX List.mem_cons_self _, rfl⟩
  | egcd rd rs1 rs2 =>
    simp only [exec, execEgcd] at h
    split at h
    · next hc => cases h; exact .inl ⟨.illegal, fun _ => ⟨rd, rs1, rs2, rfl, hc⟩⟩
    · next hc =>
      cases h
      exact .inr ⟨_, (((Writes.refl _ s).setX List.mem_cons_self _).setX
        (by rw [regAbove_val (by omega)]; simp [destinations]) _).setX
        (by rw [regAbove_val (by omega)]; simp [destinations]) _, rfl⟩
  | modinv rd rs1 rs2 =>
    simp only [exec, execModinv] at h
    split at h
    · cases h; exact .inl ⟨.zmod, nofun⟩
    split at h
    · cases h; exact .inl ⟨.notcoprime, nofun⟩
    · cases h; exact .inr ⟨_, (Writes.refl _ s).setX List.mem_cons_self _, rfl⟩
  | modmul rd rs1 rs2 rs3 =>
    simp only [exec, execModmul] at h
    split at h
    · cases h; exact .inl ⟨.zmod, nofun⟩
    · cases h; exact .inr ⟨_, (Writes.refl _ s).setX List.mem_cons_self _, rfl⟩
  | modexp rd rs1 rs2 rs3 =>
    simp only [exec, execModexp] at h
    split at h
    · cases h; exact .inl ⟨.zmod, nofun⟩
    · cases h; exact .inr ⟨_, (Writes.refl _ s).setX List.mem_cons_self _, rfl⟩
  | isprime rd rs1 => cases h; exact .inr ⟨_, (Writes.refl _ s).setX List.mem_cons_self _, rfl⟩
  | enc rs1 rs2 rs3 =>
    simp only [exec, execEnc] at h
    split at h
    · cases h; exact .inl ⟨.bounds, nofun⟩
    next hb =>
    split at h
    · cases h; exact .inl ⟨.zmod, nofun⟩
    split at h
    · next i hi =>
      cases h
      rw [State.lenOutOfBounds_iff] at hb
      have hlt := ((State.firstOutOfRange_eq_some_iff ..).1 hi).1
      exact .inl ⟨.range i (by omega), nofun⟩
    · cases h; exact .inr ⟨_, .enc .., rfl⟩
  | dec rs1 rs2 rs3 =>
    simp only [exec, execDec] at h
    split at h
    · cases h; exact .inl ⟨.bounds, nofun⟩
    split at h
    · cases h; exact .inl ⟨.zmod, nofun⟩
    · next hn => cases h; exact .inr ⟨_, .dec _ _ _ _ hn, rfl⟩
  | shainit => cases h; exact .inr ⟨_, .shainit _, rfl⟩
  | shablk rs1 =>
    simp only [exec, execShablk] at h
    split at h
    · cases h; exact .inl ⟨.bounds, nofun⟩
    · cases h; exact .inr ⟨_, .shablk .., rfl⟩

/-- A command that the build can decode raises no E_ILLEGAL (R104). -/
theorem exec_errcode_ne_illegal {i : Instr} {s t : State} (hw : i.wf s.params.nreg = true) (hn : s.params.nreg ≤ 16)
    (h : exec i s = .next t) : t.errcode ≠ .illegal := by
  intro he
  rcases exec_effect h with ⟨-, hi⟩ | ⟨u, -, rfl⟩
  · obtain ⟨rd, rs1, rs2, rfl, hrd⟩ := hi he
    have hlt : rd.val + 2 < s.params.nreg := (Instr.wf_iff ..).1 hw _ (by simp [Instr.registers])
    omega
  · cases he

/-- Success or error, a command ends with a completion after writes of its own, with an error none. -/
theorem exec_completes {i : Instr} {s t : State} (h : exec i s = .next t) :
    ∃ u e info, Writes i s u ∧ t = u.complete e info := by
  rcases exec_effect h with ⟨hr, -⟩ | ⟨u, hu, rfl⟩
  · exact ⟨s, _, _, .refl i s, hr.eq_complete⟩
  · exact ⟨u, _, _, hu, rfl⟩

end Sys2Proof.Machine
end

section
/-! What a step can change. -/

namespace Sys2Proof.Machine

open Sys2Proof.Claims

/-! ### Bus writes, field by field -/

theorem Request.aligned_iff (r : Request) : r.aligned = true ↔ r.size = 4 ∧ r.offset.toNat % 4 = 0 := by
  simp [Request.aligned]

/-- A transaction served as a write is an aligned 32-bit write at its offset (R62). -/
theorem writeNext_of_served {s u : State} {r : Request} {es : List Event} (he : s.events = .bus r :: es)
    (hr : u.refuses r = false) (hw : r.write = true) : WriteNext s r.offset.toNat r.wdata es := by
  obtain ⟨off, w, v, size⟩ := r
  obtain ⟨-, ha, -⟩ := State.refuses_eq_false hr
  obtain ⟨rfl, -⟩ := (Request.aligned_iff _).1 ha
  cases hw
  simp [WriteNext, he]

@[simp] theorem State.busWrite_hash (s : State) (v : Word32) (t : Target) : (s.busWrite v t).hash = s.hash := by
  cases t <;> rfl

/-- A bus write that changes DONE clears it, through bit 1 of STATUS (R26). -/
theorem State.busWrite_done {s : State} {v : Word32} {t : Target} (h : (s.busWrite v t).done ≠ s.done) :
    t = .status ∧ s.done = true ∧ v.getLsbD 1 = true := by
  cases t with
  | status => simpa [State.busWrite] using h
  | _ => exact absurd rfl h

/-- A bus write that changes TRUNC clears it, through bit 3 of STATUS (R28). -/
theorem State.busWrite_trunc {s : State} {v : Word32} {t : Target} (h : (s.busWrite v t).trunc ≠ s.trunc) :
    t = .status ∧ s.trunc = true ∧ v.getLsbD 3 = true := by
  cases t with
  | status => simpa [State.busWrite] using h
  | _ => exact absurd rfl h

/-- A bus write that changes a register is one to a half of it (R67). -/
theorem State.busWrite_x {s : State} {v : Word32} {t : Target} {j : Reg} (h : (s.busWrite v t).x j ≠ s.x j) :
    t = .regLow j ∨ t = .regHigh j := by
  cases t with
  | regLow i => exact .inl (congrArg _ (by_contra fun hne => h (State.x_setX_ne s _ (Ne.symm hne))))
  | regHigh i => exact .inr (congrArg _ (by_contra fun hne => h (State.x_setX_ne s _ (Ne.symm hne))))
  | _ => exact absurd rfl h

/-- A bus write that changes a byte of a buffer is one to its word (R68, R69). -/
theorem State.busWrite_byteAt {s : State} {v : Word32} {t : Target} {a : Nat}
    (h : (s.busWrite v t).byteAt a ≠ s.byteAt a) : ∃ b, t = .buffer b ∧ b ≤ a ∧ a < b + 4 := by
  cases t with
  | buffer b =>
    refine ⟨b, rfl, ?_⟩
    by_contra hne
    exact h (State.byteAt_writeWord_ne s v (by omega))
  | _ => exact absurd rfl h

/-- A write to a data window that is served meets an idle block (R66). -/
theorem Target.idle_of_unlocked {s : State} {t : Target} (ht : t.isDataWindow = true)
    (h : s.busy = true → t.lockedWhileBusy true = false) : s.busy = false := by
  rw [← Bool.not_eq_true]
  intro hb
  simpa [Target.lockedWhileBusy, ht] using h hb

/-- In a legal build DEC's wide values are those of the exact power (R184, R140). -/
theorem State.decryptsWide_iff_pow {s : State} (hp : s.params.legal = true) {n : Reg} (hn : (s.x n).toNat ≠ 0)
    (d len : Nat) : s.decryptsWide d (s.x n).toNat len = true ↔ ∃ i < len, 256 ≤ (s.ct i).toNat ^ d % (s.x n).toNat := by
  simp only [State.decryptsWide_iff, State.decryptedAt, modexp_eq (Params.legal_prod hp) _ _ hn (s.x_toNat_lt n).le]

/-! ### The inversion of a step -/

/-- What a step can change, beside the events: the pin and the answer; everything, by reset; what one served write
changes; or, with a command running, what its completion changes, after the command's own writes if it succeeds. -/
inductive StepEffect (s : State) : State → Prop where
  | quiet (pin : Bool) (answer : Option Response) (es : List Event) :
      StepEffect s { s with rst := pin, resp := answer, events := es }
  | reset (next : ResetNext s) (es : List Event) : StepEffect s { s.assertReset with events := es }
  | write (a : Nat) (v : Word32) (es : List Event) (next : WriteNext s a v es) (aligned : a % 4 = 0)
      (unlocked : s.busy = true → (target s.params a).lockedWhileBusy true = false) :
      StepEffect s { s.busWrite v (target s.params a) with resp := some .accepted, events := es }
  | failed (busy : s.busy = true) (e : ErrCode) (info : Word32) (es : List Event) :
      StepEffect s { s.complete e info with events := es }
  | succeeded (i : Instr) (u : State) (es : List Event) (busy : s.busy = true)
      (decoded : Sys2Proof.decode s.params.nreg s.cur = .ok i) (writes : Writes i s u) :
      StepEffect s { u.succeed with events := es }

/-- A bus write does not look at what is still to come. -/
theorem State.busWrite_setEvents (s : State) (es : List Event) (v : Word32) (t : Target) :
    ({ s with events := es } : State).busWrite v t = { s.busWrite v t with events := es } := by
  cases t <;> rfl

/-- Nor does a command. -/
theorem Writes.of_setEvents {i : Instr} {s u : State} {es : List Event} (h : Writes i { s with events := es } u) :
    ∃ u', Writes i s u' ∧ u = { u' with events := es } := by
  cases h with
  | registers regs frame => exact ⟨_, .registers regs frame, rfl⟩
  | enc rs1 rs2 rs3 f => exact ⟨_, .enc rs1 rs2 rs3 f, rfl⟩
  | dec rs1 rs2 rs3 f modulus => exact ⟨_, .dec rs1 rs2 rs3 f modulus, rfl⟩
  | shainit H => exact ⟨_, .shainit H, rfl⟩
  | shablk rs1 H => exact ⟨_, .shablk rs1 H, rfl⟩

/-- Serving a transaction answers it, or is a write. -/
theorem StepEffect.serve {s : State} {r : Request} {es : List Event} (he : s.events = .bus r :: es) :
    StepEffect s (({ s with events := es } : State).serve r) := by
  rcases State.serve_cases { s with events := es } r with ⟨a, h⟩ | ⟨hr, hw, h⟩
  · rw [h]
    exact .quiet s.rst (some a) es
  · obtain ⟨-, ha, -, hl⟩ := State.refuses_eq_false hr
    rw [h, State.busWrite_setEvents]
    exact .write _ _ es (writeNext_of_served he hr hw) ((Request.aligned_iff r).1 ha).2 fun hb => hw ▸ hl hb

/-- A running command fails or succeeds. -/
theorem StepEffect.complete {s t : State} {es : List Event} (hb : s.busy = true)
    (h : completeCurrent { s with events := es } = .next t) : StepEffect s t := by
  obtain ⟨t', ht, hc⟩ := completeCurrent_cases { s with events := es }
  cases ht.symm.trans h
  rcases hc with ⟨-, -, rfl⟩ | ⟨i, hd, hx⟩
  · exact .failed hb _ _ es
  · rcases exec_effect hx with ⟨hr, -⟩ | ⟨u, hu, rfl⟩
    · rw [hr.eq_complete]
      exact .failed hb _ _ es
    · obtain ⟨u', hu', rfl⟩ := hu.of_setEvents
      exact .succeeded i u' es hb hd hu'

/-- A step is one of these. -/
theorem step_effect {s t : State} (h : step s = .next t) : StepEffect s t := by
  refine step_induction (P := StepEffect) h ?bus ?rst ?idle ?complete
  case bus => exact fun r es he => .serve he
  case rst =>
    intro level es he
    cases level with
    | true => exact .reset ⟨es, he⟩ es
    | false => exact .quiet false s.resp es
  case idle => exact fun es _ => .quiet s.rst s.resp es
  case complete => exact fun es t _ hb _ hc => .complete hb hc

end Sys2Proof.Machine
end

section
/-! The accesses that are served or refused, and the words the control registers read as. -/

namespace Sys2Proof.Machine

open Sys2Proof.Claims

/-- The aligned 32-bit accesses that are served (R62, R64, R66, R300). -/
theorem State.refuses_aligned {s : State} {a : Nat} {write : Bool} (v : Word32) (hr : s.rst = false) (ha : a < 2 ^ 14)
    (h4 : a % 4 = 0) (hres : target s.params a ≠ .reserved)
    (hl : s.busy = true → (target s.params a).lockedWhileBusy write = false) :
    s.refuses ⟨BitVec.ofNat 14 a, write, v, 4⟩ = false := by
  simp only [State.refuses, Request.aligned, Request.target, BitVec.toNat_ofNat, Nat.mod_eq_of_lt ha]
  simpa [hr, h4, hres] using hl

/-- A read that is served, with the next event. -/
theorem step_readNext {s : State} {a : Nat} {es : List Event} {t : Target} (h : ReadNext s a es) (hr : s.rst = false)
    (ha : a < 2 ^ 14) (h4 : a % 4 = 0) (ht : target s.params a = t) (hres : t ≠ .reserved)
    (hl : s.busy = true → t.lockedWhileBusy false = false) :
    step s = .next { s with events := es, resp := some (.data (s.busRead t)) } := by
  obtain ⟨v, he⟩ := h
  subst ht
  rw [step_bus he, State.serve_read (State.refuses_aligned (s := { s with events := es }) v hr ha h4 hres hl) rfl,
    Request.target, BitVec.toNat_ofNat, Nat.mod_eq_of_lt ha]
  cases target s.params a <;> rfl

/-- A write that is served, with the next event. -/
theorem step_writeNext {s : State} {a : Nat} {v : Word32} {es : List Event} {t : Target} (h : WriteNext s a v es)
    (hr : s.rst = false) (ha : a < 2 ^ 14) (h4 : a % 4 = 0) (ht : target s.params a = t) (hres : t ≠ .reserved)
    (hl : s.busy = true → t.lockedWhileBusy true = false) :
    step s = .next { s.busWrite v t with events := es, resp := some .accepted } := by
  subst ht
  rw [step_bus h, State.serve_write (State.refuses_aligned (s := { s with events := es }) v hr ha h4 hres hl) rfl,
    Request.target, BitVec.toNat_ofNat, Nat.mod_eq_of_lt ha, State.busWrite_setEvents]
  rfl

/-- The offsets of a register that the build lacks are reserved (log 9). -/
theorem target_missing_register {p : Config.Params} {i : Reg} {a : Nat} (hi : p.nreg ≤ i.val)
    (ha : a = 0x0100 + 8 * i.val ∨ a = 0x0104 + 8 * i.val) : target p a = .reserved := by
  have h16 : i.val < 16 := i.isLt
  have hb : ¬ (inTxt p a || inCt p a) = true := by
    rw [Bool.or_eq_true, inTxt_iff, inCt_iff]
    omega
  unfold target
  rw [if_neg (by omega), if_neg (by omega), if_neg (by omega), if_neg (by omega), if_neg (by omega), if_neg (by omega),
    if_neg (by omega), if_neg hb]

theorem ErrCode.code_eq_zero {e : ErrCode} : e.code = 0 ↔ e = .ok := by cases e <;> decide

theorem State.ctrl_bits (s : State) : s.ctrl.getLsbD 0 = s.ie ∧ s.ctrl.extractLsb 31 1 = 0 := by
  rw [State.ctrl]
  cases s.ie <;> decide

theorem State.err_iff (s : State) : s.err = true ↔ s.errcode ≠ .ok := by
  simp [State.err, ← ErrCode.code_eq_zero]

/-- The flags of STATUS (R24). -/
theorem State.status_flags (s : State) :
    s.status.getLsbD 0 = s.busy ∧ s.status.getLsbD 1 = s.done ∧ (s.status.getLsbD 2 = true ↔ s.errcode ≠ .ok) ∧
      s.status.getLsbD 3 = s.trunc := by
  simp only [State.status, BitVec.getLsbD_append]
  simp [State.err_iff]

/-- ERRCODE and the reserved bits of STATUS (R24). -/
theorem State.status_fields (s : State) :
    s.status.extractLsb 7 4 = 0 ∧ s.status.extractLsb 11 8 = s.errcode.code ∧ s.status.extractLsb 31 12 = 0 := by
  refine ⟨?_, ?_, ?_⟩ <;>
    (apply BitVec.eq_of_getLsbD_eq; intro i hi
     simp only [State.status, BitVec.getLsbD_extractLsb, BitVec.getLsbD_append])
  · simp [hi, show ¬ 4 + i < 1 by omega]
  · simp [hi]
  · simp [show ¬ 8 + i - 4 < 4 by omega]

end Sys2Proof.Machine
end

section
/-! The invariant: it holds at reset, and one lemma for each thing a step can do keeps it. -/

namespace Sys2Proof.Machine

/-! ### The reset state -/

/-- Reset leaves 0 in every register (R38). -/
theorem State.x_resetWith (p : Config.Params) (i : Reg) : (State.resetWith p).x i = 0 := by
  simp [State.x, State.resetWith, lowBits_eq_self]

theorem State.ctrl_resetWith (p : Config.Params) : (State.resetWith p).ctrl = 0 := by
  simp only [State.ctrl, State.resetWith]
  decide

theorem State.status_resetWith (p : Config.Params) : (State.resetWith p).status = 0 := by
  simp only [State.status, State.err, State.resetWith, ErrCode.code]
  decide

/-- This hardware has every bit of a byte of TXT and CT. -/
theorem byteBits_hardware (a : Nat) : 8 ≤ byteBits Config.hardware a := by
  simp only [byteBits, Config.hardware]
  split <;> omega

/-! ### The invariant at reset -/

theorem State.Inv.resetWith {p : Config.Params} (hp : p.legal = true) : (State.resetWith p).Inv where
  params_legal := hp
  mem_wf := rfl
  mem_inBuffers := rfl
  mem_fits := rfl
  regs_fit i := (State.x_resetWith p i).trans (by simp [State.resetWith])
  hash_fits := fitHash_initialHash _
  cur_eq_lastcmd := rfl
  busy_ok := nofun
  errinfo_zero _ _ := rfl
  errinfo_illegal := nofun
  errinfo_range := nofun
  held_in_reset := nofun

/-! ### What keeps the invariant -/

variable {s : State}

theorem State.atReset.setPort (h : s.atReset) (a : Option Response) (es : List Event) :
    State.atReset { s with resp := a, events := es } := by
  have hs := congrArg (fun u : State => { u with resp := a, events := es }) h
  exact hs

/-- With the pin at 0, R300 asks nothing of the state after. -/
theorem atReset_of_rst_low {t : State} (hr : s.rst = false) (h : s.rst = true) : t.atReset :=
  nomatch hr.symm.trans h

/-- The answer and the events are no part of the invariant. -/
theorem State.Inv.setPort (h : s.Inv) (a : Option Response) (es : List Event) :
    State.Inv { s with resp := a, events := es } :=
  { h with held_in_reset := fun hr => (h.held_in_reset hr).setPort a es }

/-- The reset pin at 1 (R300). -/
theorem State.Inv.assertReset (h : s.Inv) : s.assertReset.Inv :=
  { State.Inv.resetWith h.params_legal with held_in_reset := fun _ => rfl }

theorem State.Inv.setX (h : s.Inv) (hr : s.rst = false) (i : Reg) (v : Word) : (s.setX i v).Inv :=
  { h with
    regs_fit := ((Succeeded.refl s).setX i v).regs_fit h.regs_fit
    held_in_reset := atReset_of_rst_low hr }

/-- Acceptance clears the record of the command before (R70). -/
theorem State.Inv.accept (h : s.Inv) (hr : s.rst = false) (w : Word32) : (s.accept w).Inv :=
  { h with
    cur_eq_lastcmd := rfl
    busy_ok := fun _ => rfl
    errinfo_zero := fun _ _ => rfl
    errinfo_illegal := nofun
    errinfo_range := nofun
    held_in_reset := atReset_of_rst_low hr }

/-- A bus word of a buffer lies wholly in the buffer, whose size is a multiple of 4 bytes (R63). -/
theorem inBuffers_of_target {p : Config.Params} (hp : p.legal = true) {a b : Nat} (h4 : a % 4 = 0)
    (h : target p a = .buffer b) : ∀ j < 4, (inTxt p (b + j) || inCt p (b + j)) = true := by
  obtain ⟨rfl, hw⟩ := target_eq_buffer h
  obtain ⟨htxt, -⟩ := (Params.legal_iff p).1 hp
  rw [inTxt_iff, inCt_iff] at hw
  intro j hj
  rw [Bool.or_eq_true, inTxt_iff, inCt_iff]
  omega

theorem State.Inv.busWrite (h : s.Inv) (hr : s.rst = false) {a : Nat} (h4 : a % 4 = 0) (v : Word32) :
    (s.busWrite v (target s.params a)).Inv := by
  cases ht : target s.params a with
  | id | errinfo | hash | reserved => exact h
  | ctrl => exact { h with held_in_reset := atReset_of_rst_low hr }
  | status => exact { h with held_in_reset := atReset_of_rst_low hr }
  | cmd => exact h.accept hr v
  | regLow i => exact h.setX hr i _
  | regHigh i => exact h.setX hr i _
  | buffer b =>
    exact { h with
      mem_wf := Memory.wf_writeWord h.mem_wf _ _ _
      mem_inBuffers := Memory.inBuffers_writeWord h.mem_inBuffers (inBuffers_of_target h.params_legal h4 ht) _
      mem_fits := Memory.fits_writeWord h.mem_fits _ _
      held_in_reset := atReset_of_rst_low hr }

/-- A completion whose ERRINFO is what R260 says of its code. -/
theorem State.Inv.complete (h : s.Inv) (hr : s.rst = false) {e : ErrCode} {info : Word32}
    (zero : e ≠ .illegal → e ≠ .range → info = 0)
    (illegal : e = .illegal → info = s.lastcmd ∧ ∃ r, Sys2Proof.decode s.params.nreg s.lastcmd = .error r)
    (range : e = .range → info.toNat < s.params.txtSize) : (s.complete e info).Inv :=
  { h with
    busy_ok := nofun
    errinfo_zero := zero
    errinfo_illegal := illegal
    errinfo_range := range
    held_in_reset := atReset_of_rst_low hr }

theorem State.Inv.of_succeeded {u : State} (h : s.Inv) (hr : s.rst = false) (hu : Succeeded s u) : u.succeed.Inv := by
  have hi : u.Inv := by
    rw [hu.frame]
    exact { h with
      mem_wf := hu.wf h.mem_wf
      mem_inBuffers := hu.inBuffers h.mem_inBuffers
      mem_fits := hu.fits h.mem_fits
      regs_fit := hu.regs_fit h.regs_fit
      hash_fits := hu.hash_fits h.hash_fits
      held_in_reset := atReset_of_rst_low hr }
  have hru : u.rst = false := by rw [hu.frame]; exact hr
  exact hi.complete hru (fun _ _ => rfl) nofun nofun

theorem State.Inv.of_raised {t : State} (h : s.Inv) (hr : s.rst = false) (ht : Raised s t)
    (hne : t.errcode ≠ .illegal) : t.Inv := by
  cases ht with
  | illegal => exact absurd rfl hne
  | bounds | zmod | notcoprime => exact h.complete hr (fun _ _ => rfl) nofun nofun
  | range i hi =>
    exact h.complete hr (fun _ h2 => absurd rfl h2) nofun fun _ => lt_of_le_of_lt (by simp [Nat.mod_le]) hi

theorem State.Inv.completeCurrent {t : State} (h : s.Inv) (hr : s.rst = false) (ht : completeCurrent s = .next t) :
    t.Inv := by
  obtain ⟨t', ht', hc⟩ := completeCurrent_cases s
  cases ht'.symm.trans ht
  rcases hc with ⟨e, he, rfl⟩ | ⟨i, hd, hx⟩
  · exact h.complete hr (fun h1 _ => absurd rfl h1) (fun _ => ⟨h.cur_eq_lastcmd, e, h.cur_eq_lastcmd ▸ he⟩) nofun
  · obtain ⟨t'', hx', hc⟩ := exec_cases i s
    cases hx'.symm.trans hx
    rcases hc with hraised | ⟨u, hu, rfl⟩
    · obtain ⟨-, -, -, ⟨-, hn⟩, -⟩ := (Params.legal_iff _).1 h.params_legal
      exact h.of_raised hr hraised (exec_errcode_ne_illegal (wf_of_decode hd) hn hx)
    · exact h.of_succeeded hr hu

theorem State.Inv.serve (h : s.Inv) (r : Request) : (s.serve r).Inv := by
  rcases s.serve_cases r with ⟨a, hs⟩ | ⟨hr, -, hs⟩
  · rw [hs]
    exact h.setPort (some a) s.events
  · obtain ⟨hrst, ha, -⟩ := State.refuses_eq_false hr
    rw [hs]
    exact (h.busWrite hrst ((Request.aligned_iff r).1 ha).2 _).setPort _ _

theorem State.Inv.setRst (h : s.Inv) (level : Bool) : (s.setRst level).Inv := by
  cases level with
  | true => exact h.assertReset
  | false => exact { h with held_in_reset := nofun }

end Sys2Proof.Machine
end

section
/-! The statements about the state of the block (10_state.md). -/

namespace Sys2Proof.Claims

open Sys2Proof.Machine

/-- Settles O3: each thing a step can do keeps the invariant; a decoded command raises no E_ILLEGAL, so that code means
an illegal word. -/
theorem stepKeepsInvariant : Obligations.StepKeepsInvariant := by
  intro s t h hs
  refine step_induction (P := fun s t => s.Inv → t.Inv) hs ?bus ?rst ?idle ?complete h
  case bus => exact fun r es _ h => (h.setPort s.resp es).serve r
  case rst => exact fun level es _ h => (h.setPort s.resp es).setRst level
  case idle => exact fun es _ h => h.setPort s.resp es
  case complete => exact fun es t _ _ hr hc h => (h.setPort s.resp es).completeCurrent hr hc

/-- Settles O30: a register command writes at most its destinations before its completion. -/
theorem registerCommandsFrame : Obligations.RegisterCommandsFrame := by
  intro s t rd rs1 rs2 rs3 i hi h
  obtain ⟨u, e, info, writes, rfl⟩ := exec_completes h
  cases writes with
  | registers regs frame =>
    exact ⟨fun j hj => congrArg (lowBits s.params.word) (frame j hj), rfl, fun _ => rfl, rfl, rfl, rfl, rfl, rfl, rfl,
      rfl, rfl, rfl⟩
  | enc | dec | shainit | shablk => simp at hi

/-- Settles O31: ENC and DEC write at most the elements below the length, and DEC's flag is an `or`. -/
theorem bufferCommandsFrame : Obligations.BufferCommandsFrame := by
  intro s t rs1 rs2 rs3
  constructor
  · intro h
    obtain ⟨u, e, info, writes, rfl⟩ := exec_completes h
    cases writes with
    | registers regs frame =>
      exact ⟨fun j => congrArg (lowBits s.params.word) (frame j nofun), rfl, rfl, rfl, rfl, rfl, rfl, rfl, rfl, rfl,
        rfl, fun _ _ => rfl⟩
    | enc _ _ _ f =>
      exact ⟨fun _ => rfl, rfl, rfl, rfl, rfl, rfl, rfl, rfl, rfl, rfl, rfl, fun _ => State.byteAt_fillCt_outside s f _⟩
  · intro h
    obtain ⟨u, e, info, writes, rfl⟩ := exec_completes h
    cases writes with
    | registers regs frame =>
      exact ⟨fun j => congrArg (lowBits s.params.word) (frame j nofun), rfl, id, rfl, rfl, rfl, rfl, rfl, rfl, rfl,
        rfl, fun _ _ => rfl⟩
    | dec _ _ _ f =>
      exact ⟨fun _ => rfl, rfl, fun hs => by simp [hs], rfl, rfl, rfl, rfl, rfl, rfl, rfl, rfl,
        fun _ => State.byteAt_fillTxt_outside s f _⟩

/-- Settles O32: a hash command writes at most H before its completion. -/
theorem hashCommandsFrame : Obligations.HashCommandsFrame := by
  intro s t rs1 i hi h
  obtain ⟨u, e, info, writes, rfl⟩ := exec_completes h
  cases writes with
  | registers regs frame =>
    have hd : destinations i = [] := by
      rcases List.mem_pair.1 hi with rfl | rfl <;> rfl
    exact ⟨fun j => congrArg (lowBits s.params.word) (frame j (by simp [hd])), fun _ => rfl, rfl, rfl, rfl, rfl, rfl, rfl,
      rfl, rfl, rfl⟩
  | shainit | shablk => exact ⟨fun _ => rfl, fun _ => rfl, rfl, rfl, rfl, rfl, rfl, rfl, rfl, rfl, rfl⟩
  | enc | dec => simp at hi

/-- Settles O36: the control registers are no data window, so their reads are served busy or not. -/
theorem controlRegistersRead : Obligations.ControlRegistersRead := by
  refine ⟨rfl, ⟨rfl, rfl, rfl, rfl, rfl, rfl⟩, fun s es hr =>
    ⟨fun h => ?_, fun h => ?_, fun h => ?_, fun h => ?_, fun h => ?_⟩⟩
  · exact step_readNext h hr (by decide) rfl rfl nofun fun _ => rfl
  · exact step_readNext h hr (by decide) rfl rfl nofun fun _ => rfl
  · exact step_readNext h hr (by decide) rfl rfl nofun fun _ => rfl
  · exact ⟨s.ctrl, step_readNext h hr (by decide) rfl rfl nofun fun _ => rfl, s.ctrl_bits⟩
  · exact ⟨s.status, step_readNext h hr (by decide) rfl rfl nofun fun _ => rfl,
      by simpa only [and_assoc] using And.intro s.status_flags s.status_fields⟩

/-- Settles O37: nor are their writes refused, CMD's apart. -/
theorem controlRegistersWrite : Obligations.ControlRegistersWrite := by
  refine fun s v es hr => ⟨fun h => ?_, fun h => ?_, fun h => ?_, fun h => ?_⟩
  · refine ⟨_, step_writeNext (t := .status) h hr (by decide) rfl rfl nofun fun _ => rfl, ?_, ?_, rfl⟩
    · simp [State.busWrite, State.writeStatus]
    · simp [State.busWrite, State.writeStatus]
  · exact step_writeNext h hr (by decide) rfl rfl nofun fun _ => rfl
  · exact step_writeNext h hr (by decide) rfl rfl nofun fun _ => rfl
  · exact step_writeNext h hr (by decide) rfl rfl nofun fun _ => rfl

/-- Settles O38: the window is open while idle, and `busWrite` leaves the state alone there. -/
theorem hashWindowIsReadOnly : Obligations.HashWindowIsReadOnly := by
  intro s i v es hr hb
  have hi := i.isLt
  have ht := target_hash s.params i
  have hl : ∀ write, s.busy = true → (Target.hash i).lockedWhileBusy write = false := fun _ h => nomatch hb.symm.trans h
  exact ⟨fun h => step_readNext h hr (by omega) (by omega) ht nofun (hl false),
    fun h => step_writeNext h hr (by omega) (by omega) ht nofun (hl true)⟩

/-- Settles O42: of what a step can change, a bus write to STATUS and reset alone clear DONE. -/
theorem doneIsSticky : Obligations.DoneIsSticky := by
  intro s t h hs ht
  have hne : t.done ≠ s.done := by simp [hs, ht]
  cases step_effect h with
  | quiet => exact absurd rfl hne
  | reset hr => exact .inr hr
  | write a v es next =>
    obtain ⟨hst, -, hv⟩ := State.busWrite_done hne
    exact .inl ⟨v, es, target_eq_status.1 hst ▸ next, hv⟩
  | failed | succeeded => cases ht

/-- What changes TRUNC, and which way. -/
theorem step_trunc {s t : State} (hp : s.params.legal = true) (h : step s = .next t) (hne : t.trunc ≠ s.trunc) :
    (t.trunc = true ∧ s.busy = true ∧ t.errcode = .ok ∧
      ∃ rs1 rs2 rs3, decode s.params.nreg s.cur = .ok (.dec rs1 rs2 rs3) ∧
        ∃ i < (s.x rs3).toNat, 256 ≤ (s.ct i).toNat ^ (s.x rs1).toNat % (s.x rs2).toNat) ∨
    (t.trunc = false ∧ ((∃ v es, WriteNext s 0x0008 v es ∧ v.getLsbD 3 = true) ∨ ResetNext s)) := by
  cases step_effect h with
  | quiet | failed => exact absurd rfl hne
  | reset hr => exact .inr ⟨rfl, .inr hr⟩
  | write a v es next =>
    obtain ⟨hst, hs, hv⟩ := State.busWrite_trunc hne
    exact .inr ⟨by simpa [hs] using hne, .inl ⟨v, es, target_eq_status.1 hst ▸ next, hv⟩⟩
  | succeeded i u es busy decoded writes =>
    cases writes with
    | registers | enc | shainit | shablk => exact absurd rfl hne
    | dec rs1 rs2 rs3 f hn =>
      obtain ⟨hw, -⟩ : s.decryptsWide _ _ _ = true ∧ s.trunc = false := by simpa using hne
      exact .inl ⟨by simp [hw], busy, rfl, rs1, rs2, rs3, decoded, (State.decryptsWide_iff_pow hp hn _ _).1 hw⟩

/-- Settles O43: of what a step can change, DEC's success alone sets TRUNC. -/
theorem truncChangesOnlyAsR28Says : Obligations.TruncChangesOnlyAsR28Says := by
  intro s t hp h
  constructor
  · intro hs ht
    rcases step_trunc hp h (by simp [hs, ht]) with ⟨-, hset⟩ | ⟨hf, -⟩
    · exact hset
    · cases ht.symm.trans hf
  · intro hs ht
    rcases step_trunc hp h (by simp [hs, ht]) with ⟨hf, -⟩ | ⟨-, hclear⟩
    · cases ht.symm.trans hf
    · exact hclear

/-- Settles O45: no bus write and no other command's writes reach H. -/
theorem hashChangesOnlyByShaCommands : Obligations.HashChangesOnlyByShaCommands := by
  intro s t h hne
  cases step_effect h with
  | quiet | failed => exact absurd rfl hne
  | reset hr => exact .inr hr
  | write => exact absurd (State.busWrite_hash ..) hne
  | succeeded i u es busy decoded writes =>
    cases writes with
    | shainit => exact .inl ⟨busy, rfl, .inl decoded⟩
    | shablk rs1 => exact .inl ⟨busy, rfl, .inr ⟨rs1, decoded⟩⟩
    | registers | enc | dec => exact absurd rfl hne

/-- Settles O46: the halves of `x[j]` have one offset each, and a command leaves what is not among its destinations. -/
theorem registersChangeOnlyAsR21Says : Obligations.RegistersChangeOnlyAsR21Says := by
  intro s t j h hne
  cases step_effect h with
  | quiet | failed => exact absurd rfl hne
  | reset hr => exact .inr (.inr hr)
  | write a v es next aligned unlocked =>
    rcases State.busWrite_x hne with ht | ht
    · obtain ⟨rfl, -⟩ := (target_eq_regLow aligned).1 ht
      exact .inl ⟨Target.idle_of_unlocked (by rw [ht]; rfl) unlocked, v, es, .inl next⟩
    · obtain ⟨rfl, -⟩ := (target_eq_regHigh aligned).1 ht
      exact .inl ⟨Target.idle_of_unlocked (by rw [ht]; rfl) unlocked, v, es, .inr next⟩
  | succeeded i u es busy decoded writes =>
    refine .inr (.inl ⟨busy, rfl, i, decoded, ?_⟩)
    cases writes with
    | registers regs frame => exact by_contra fun hj => hne (congrArg (lowBits s.params.word) (frame j hj))
    | enc | dec | shainit | shablk => exact absurd rfl hne

/-- Settles O47: a bus write reaches the four bytes of its word, and the two loops the elements below the
length. -/
theorem buffersChangeOnlyByTheirWriters : Obligations.BuffersChangeOnlyByTheirWriters := by
  intro s t a h hne
  cases step_effect h with
  | quiet | failed => exact absurd rfl hne
  | reset hr => exact .inr (.inr (.inr hr))
  | write o v es next aligned unlocked =>
    obtain ⟨b, ht, hb⟩ := State.busWrite_byteAt hne
    obtain ⟨rfl, hw⟩ := target_eq_buffer ht
    rw [inTxt_iff, inCt_iff] at hw
    exact .inl ⟨Target.idle_of_unlocked (by rw [ht]; rfl) unlocked, o, v, es, next, hb.1, hb.2, hw⟩
  | succeeded i u es busy decoded writes =>
    cases writes with
    | registers | shainit | shablk => exact absurd rfl hne
    | enc rs1 rs2 rs3 f =>
      refine .inr (.inl ⟨busy, rfl, rs1, rs2, rs3, decoded, ?_⟩)
      by_contra ha
      exact hne (State.byteAt_fillCt_outside s f _ (by simp only [ctOffset, Config.ctBase]; omega))
    | dec rs1 rs2 rs3 f =>
      refine .inr (.inr (.inl ⟨busy, rfl, rs1, rs2, rs3, decoded, ?_⟩))
      by_contra ha
      exact hne (State.byteAt_fillTxt_outside s f _ (by simp only [txtOffset, Config.txtBase]; omega))

/-- Settles O58: a row's word decodes when its registers are there, and a missing register's offsets lie in no window.
-/
theorem fewerRegisters : Obligations.FewerRegisters := by
  intro nreg h1 h16
  refine ⟨fun w i => ⟨fun h => ⟨decode_mono h16 h, (Instr.wf_iff ..).1 (wf_of_decode h)⟩, ?_⟩, ?_⟩
  · rintro ⟨h, hr⟩
    obtain ⟨m, hm, -, rfl⟩ := decode_ok_cases h
    rw [decode_of_matches hm, if_pos ((Instr.wf_iff ..).2 hr)]
  · intro s i r es hn hi ho he
    have ht : r.target s.params = .reserved := target_missing_register (hn ▸ hi) ho
    rw [step_bus he, State.serve_refused (by simp [State.refuses, ht])]
    rfl

/-- Settles O1: reset leaves the literal values, and this hardware has every bit of a drawn byte. -/
theorem resetLeavesTheResetTable : Obligations.ResetLeavesTheResetTable :=
  ⟨State.x_resetWith _, by decide, rfl, State.status_resetWith _, State.ctrl_resetWith _, rfl, rfl, rfl, rfl, rfl,
    fun a => lowBits_of_le (byteBits_hardware a) _⟩

/-- Settles O2: at reset nothing is written and no command runs. -/
theorem resetMeetsInvariant : Obligations.ResetMeetsInvariant := State.Inv.resetWith (by decide)

/-- Settles O49: a rising edge is `resetWith` with one draw more, a falling one moves the pin alone. -/
theorem resetPin : Obligations.ResetPin := by
  intro s es
  constructor
  · intro h
    exact ⟨_, step_rst h, rfl, rfl, rfl, State.status_resetWith s.params, State.ctrl_resetWith s.params, rfl, rfl, rfl,
      State.x_resetWith _, rfl, fun _ => rfl, Nat.succ_ne_self _, rfl, rfl⟩
  · intro h
    rw [step_rst h]
    rfl

end Sys2Proof.Claims
end

section
/-! Which transactions get a bus error, what the windows read and write, and what a running command lets the Host
change (20_memory.md). -/

namespace Sys2Proof.Machine

open Sys2Proof.Claims

/-! ### The bus errors, window by window -/

/-- The reserved targets are the offsets of R63 that name no register, for an aligned offset. -/
theorem target_reserved_iff {p : Config.Params} {a : Nat} (hp : p.legal = true) (ha : a < 0x4000) (h4 : a % 4 = 0) :
    target p a = .reserved ↔ ReservedOffset p a := by
  rw [target_eq_reserved hp ha, ReservedOffset]
  omega

/-- The map sends the offsets of R63's data windows, and no other, to a data window: row by row. -/
theorem isDataWindow_target {p : Config.Params} (hp : p.legal = true) (a : Nat) :
    (target p a).isDataWindow = true ↔ DataWindow p a := by
  obtain ⟨-, -, -, hreg, -⟩ := (Params.legal_iff p).1 hp
  unfold target DataWindow BufferWindow
  simp only [Bool.or_eq_true, inTxt_iff, inCt_iff]
  split_ifs <;> simp only [Target.isDataWindow, true_iff, Bool.false_eq_true, false_iff] <;> omega

/-- The busy lockout of R66. -/
theorem lockedWhileBusy_target {p : Config.Params} (hp : p.legal = true) (a : Nat) (write : Bool) :
    (target p a).lockedWhileBusy write = true ↔ DataWindow p a ∨ (a = 0x000C ∧ write = true) := by
  simp only [Target.lockedWhileBusy, Bool.or_eq_true, Bool.and_eq_true, beq_iff_eq, isDataWindow_target hp, target_eq_cmd]

/-- In a legal build the requests that are refused are those of R62, R64, R66 and R300. -/
theorem State.refuses_iff {s : State} (hp : s.params.legal = true) (r : Request) : s.refuses r = true ↔ BusError s r := by
  simp only [State.refuses, BusError, Bool.or_eq_true, Bool.and_eq_true, Bool.not_eq_true', beq_iff_eq, Request.target,
    lockedWhileBusy_target hp, ← Bool.not_eq_true r.aligned, Request.aligned_iff]
  by_cases h4 : r.offset.toNat % 4 = 0
  · rw [target_reserved_iff hp r.offset.isLt h4]
    tauto
  · tauto

/-- A request that is not refused is answered, with read data or with none. -/
theorem State.serve_resp {s : State} {r : Request} (h : s.refuses r = false) :
    (s.serve r).resp = some (if r.write then .accepted else .data (s.busRead (r.target s.params))) := by
  cases hw : r.write with
  | true => simp [State.serve_write h hw]
  | false => simp [State.serve_read h hw]

/-! ### The windows of an idle block -/

/-- While idle every window reads. -/
theorem step_read_idle {s : State} {a : Nat} {es : List Event} {t : Target} (h : ReadNext s a es) (hr : s.rst = false)
    (hb : s.busy = false) (ha : a < 2 ^ 14) (h4 : a % 4 = 0) (ht : target s.params a = t) (hres : t ≠ .reserved) :
    step s = .next { s with events := es, resp := some (.data (s.busRead t)) } :=
  step_readNext h hr ha h4 ht hres fun hb' => nomatch hb.symm.trans hb'

/-- While idle every window takes a write. -/
theorem step_write_idle {s : State} {a : Nat} {v : Word32} {es : List Event} {t : Target} (h : WriteNext s a v es)
    (hr : s.rst = false) (hb : s.busy = false) (ha : a < 2 ^ 14) (h4 : a % 4 = 0) (ht : target s.params a = t)
    (hres : t ≠ .reserved) : step s = .next { s.busWrite v t with events := es, resp := some .accepted } :=
  step_writeNext h hr ha h4 ht hres fun hb' => nomatch hb.symm.trans hb'

/-- A buffer's window ends inside the aperture (R63). -/
theorem lt_aperture_of_buffer {p : Config.Params} (hp : p.legal = true) {a : Nat}
    (h : inTxt p a = true ∨ inCt p a = true) : a < 2 ^ 14 := by
  obtain ⟨-, htxt, hct, -⟩ := (Params.legal_iff p).1 hp
  rw [inTxt_iff, inCt_iff] at h
  omega

/-- A read of a buffer's word while idle (R68, R69). -/
theorem step_read_buffer {s : State} {a : Nat} {es : List Event} (h : ReadNext s a es) (hp : s.params.legal = true)
    (hr : s.rst = false) (hb : s.busy = false) (h4 : a % 4 = 0) (hw : inTxt s.params a = true ∨ inCt s.params a = true) :
    step s = .next { s with events := es, resp := some (.data (s.wordAt a)) } :=
  step_read_idle h hr hb (lt_aperture_of_buffer hp hw) h4 (target_buffer hw) nofun

/-- A write of a buffer's word while idle (R68, R69). -/
theorem step_write_buffer {s : State} {a : Nat} {v : Word32} {es : List Event} (h : WriteNext s a v es)
    (hp : s.params.legal = true) (hr : s.rst = false) (hb : s.busy = false) (h4 : a % 4 = 0)
    (hw : inTxt s.params a = true ∨ inCt s.params a = true) :
    step s = .next { s with mem := s.mem.writeWord s.params a v, events := es, resp := some .accepted } :=
  step_write_idle h hr hb (lt_aperture_of_buffer hp hw) h4 (target_buffer hw) nofun

/-! ### The halves of a register and of a ciphertext entry, the bytes of a text word -/

/-- A value whose low half was replaced, kept in `n` bits (R67, R69). -/
theorem halves_of_new_low {n : Nat} {x y : Word} {v : Word32} (hx : lowBits n x = x)
    (hy : y = lowBits n (joinHalves (highHalf x) v)) :
    (y.extractLsb 31 0).toNat = v.toNat % 2 ^ n ∧ y.extractLsb 63 32 = x.extractLsb 63 32 := by
  subst hy
  exact ⟨(congrArg BitVec.toNat (lowHalf_lowBits ..)).trans (toNat_lowBits n v), (halves_lowBits hx v).1⟩

/-- A value whose high half was replaced, kept in `n` bits (R67, R69). -/
theorem halves_of_new_high {n : Nat} {x y : Word} {v : Word32} (hx : lowBits n x = x)
    (hy : y = lowBits n (joinHalves v (lowHalf x))) :
    (y.extractLsb 63 32).toNat = v.toNat % 2 ^ (n - 32) ∧ y.extractLsb 31 0 = x.extractLsb 31 0 := by
  subst hy
  exact ⟨(congrArg BitVec.toNat (highHalf_lowBits ..)).trans (toNat_lowBits _ v), (halves_lowBits hx v).2⟩

/-- The halves of an entry are its two words (R69). -/
theorem State.halves_ct (s : State) (k : Nat) :
    (s.ct k).extractLsb 31 0 = s.wordAt (ctOffset k) ∧ (s.ct k).extractLsb 63 32 = s.wordAt (ctOffset k + 4) :=
  ⟨lowHalf_joinHalves .., highHalf_joinHalves ..⟩

/-- A byte of TXT after a word write, at an offset of the word (R68). -/
theorem State.txt_writeWord (s : State) {k j : Nat} (hk : k + j < 4096) (hj : j < 4) (v : Word32) :
    ({ s with mem := s.mem.writeWord s.params (txtOffset k) v } : State).txt (k + j) = v.extractLsb' (8 * j) 8 := by
  have ha : txtOffset (k + j) = txtOffset k + j := (Nat.add_assoc ..).symm
  have hlt : txtOffset (k + j) < 0x2000 := by simp only [txtOffset, Config.txtBase]; omega
  rw [State.txt, ha, State.byteAt_writeWord s _ v hj, lowBits_byteBits_txt (ha ▸ hlt)]

/-! ### Transactions while a command runs -/

/-- A bus write that changes CTRL.IE is one to CTRL (R30). -/
theorem State.busWrite_ie {s : State} {v : Word32} {t : Target} (h : (s.busWrite v t).ie ≠ s.ie) : t = .ctrl := by
  cases t with
  | ctrl => rfl
  | _ => exact absurd rfl h

/-- A transaction changes CTRL.IE only as a write to CTRL (R30). -/
theorem State.serve_ie {s : State} {r : Request} (h : r.offset.toNat ≠ 0x0004 ∨ r.write = false) :
    (s.serve r).ie = s.ie := by
  rcases s.serve_cases r with ⟨a, hs⟩ | ⟨-, hw, hs⟩
  · rw [hs]; rfl
  · rw [hs]
    by_contra hne
    exact h.elim (absurd (target_eq_ctrl.1 (State.busWrite_ie hne))) fun hf => nomatch hf.symm.trans hw

/-- A transaction changes DONE and TRUNC only as a write to STATUS (R26, R28). -/
theorem State.serve_done_trunc {s : State} {r : Request} (h : r.offset.toNat ≠ 0x0008 ∨ r.write = false) :
    (s.serve r).done = s.done ∧ (s.serve r).trunc = s.trunc := by
  rcases s.serve_cases r with ⟨a, hs⟩ | ⟨-, hw, hs⟩
  · rw [hs]; exact ⟨rfl, rfl⟩
  · rw [hs]
    have hst : r.target s.params ≠ .status := fun ht =>
      h.elim (absurd (target_eq_status.1 ht)) fun hf => nomatch hf.symm.trans hw
    exact ⟨by_contra fun hne => hst (State.busWrite_done hne).1, by_contra fun hne => hst (State.busWrite_trunc hne).1⟩

/-- The transactions that come while a command runs, taken one by one: a run goes on from a state that differs in
CTRL.IE, DONE, TRUNC and the answer at most (R66, R78). -/
theorem core_run_bus_busy (rs : List Request) {s : State} {rest : List Event} (hb : s.busy = true)
    (he : s.events = rs.map .bus ++ rest) :
    ∃ ie done trunc resp, ∀ k, Sys2Proof.core.run (rs.length + k) s =
      Sys2Proof.core.run k ({ s with ie, done, trunc, resp, events := rest } : State) := by
  induction rs generalizing s with
  | nil =>
    obtain rfl : s.events = rest := he
    exact ⟨s.ie, s.done, s.trunc, s.resp, fun k => congrArg (Sys2Proof.core.run · s) (Nat.zero_add k)⟩
  | cons r rs ih =>
    have hs := step_bus (es := rs.map .bus ++ rest) he
    rw [State.serve_busy (s := { s with events := rs.map .bus ++ rest }) hb] at hs
    obtain ⟨ie, done, trunc, resp, hrun⟩ := ih (s := { s with
      ie := _, done := _, trunc := _, resp := _, events := rs.map .bus ++ rest }) hb rfl
    refine ⟨ie, done, trunc, resp, fun k => ?_⟩
    rw [List.length_cons, Nat.add_right_comm, core_run_next hs]
    exact hrun k

end Sys2Proof.Machine
end

section
/-! The statements about the bus port (20_memory.md). -/

namespace Sys2Proof.Claims

open Sys2Proof.Machine

/-- Settles O11: the transactions leave the command and its operands, and the Engine's turn then executes the command. -/
theorem commandIsAtomicToTheHost : Obligations.CommandIsAtomicToTheHost := by
  intro s i rs es hb hr hd he
  obtain ⟨ie, done, trunc, resp, hrun⟩ := core_run_bus_busy rs hb he
  obtain ⟨t, ht, -⟩ := exec_cases i { s with ie, done, trunc, resp, events := es }
  -- `by exact` waits for the state, which is not `s` but the one the run has come to.
  have hstep : step { s with ie, done, trunc, resp, events := .engine :: es } = .next t :=
    (step_completes (by exact hb) (by exact hr) (.inl rfl)).trans ((completeCurrent_ok (by exact hd)).trans ht)
  exact ⟨_, t, rfl, ht, (hrun 1).trans (core_run_next hstep 0)⟩

/-- Settles O34: the requests that are refused are the bus errors, and any other is answered. -/
theorem busErrorsChangeNothing : Obligations.BusErrorsChangeNothing := by
  refine ⟨rfl, fun s r es hp he => ⟨fun h => ?_, fun h => ⟨_, step_bus he, ?_⟩⟩⟩
  · rw [step_bus he, State.serve_refused ((State.refuses_iff (s := { s with events := es }) hp r).2 h)]
    rfl
  · have hserved := Bool.eq_false_iff.2 (mt (State.refuses_iff (s := { s with events := es }) hp r).1 h)
    rw [State.serve_resp hserved]
    cases r.write <;> exact ⟨nofun, nofun⟩

/-- Settles O35: a read is answered with a bus error or with data, and is no write. -/
theorem readsHaveNoSideEffect : Obligations.ReadsHaveNoSideEffect := by
  intro s r es he hw
  rw [step_bus he]
  cases h : ({ s with events := es } : State).refuses r with
  | true => exact ⟨.busError, congrArg _ (State.serve_refused h), nofun⟩
  | false => exact ⟨_, congrArg _ (State.serve_read h hw), nofun⟩

/-- Settles O39: a write to a half joins it with the other half, and the register keeps the low `WORD` bits. -/
theorem registerHalves : Obligations.RegisterHalves := by
  intro s i v es hi hr hb
  have h16 : i.val < 16 := i.isLt
  have htl := target_regLow hi
  have hth := target_regHigh hi
  refine ⟨fun h => ?_, fun h => ?_, fun h => ?_, fun h => ?_⟩
  · exact step_read_idle h hr hb (by omega) (by omega) htl nofun
  · exact step_read_idle h hr hb (by omega) (by omega) hth nofun
  · obtain ⟨hlow, hhigh⟩ := halves_of_new_low (s.lowBits_x i) (State.x_setX_same s i (joinHalves (highHalf (s.x i)) v))
    exact ⟨_, step_write_idle h hr hb (by omega) (by omega) htl nofun, hlow, hhigh, fun j => State.x_setX_ne s _, rfl⟩
  · obtain ⟨hhigh, hlow⟩ := halves_of_new_high (s.lowBits_x i) (State.x_setX_same s i (joinHalves v (lowHalf (s.x i))))
    exact ⟨_, step_write_idle h hr hb (by omega) (by omega) hth nofun, hhigh, hlow, fun j => State.x_setX_ne s _, rfl⟩

/-- Settles O40: the window is open while idle, and a byte of TXT has all its bits in every build. -/
theorem txtWindow : Obligations.TxtWindow := by
  intro s k v es hp hk hr hb
  obtain ⟨-, ⟨-, htxt⟩, -⟩ := (Params.legal_iff _).1 hp
  have hw : inTxt s.params (0x1000 + 4 * k) = true ∨ inCt s.params (0x1000 + 4 * k) = true := .inl (inTxt_txtOffset hk)
  have hbyte (j : Nat) (hj : j < 4) := State.txt_writeWord s (k := 4 * k) (j := j) (by omega) hj v
  refine ⟨fun h => ⟨s.wordAt (0x1000 + 4 * k), rfl, step_read_buffer h hp hr hb (by omega) hw⟩, fun h => ?_⟩
  exact ⟨_, step_write_buffer h hp hr hb (by omega) hw,
    hbyte 0 (by decide), hbyte 1 (by decide), hbyte 2 (by decide), hbyte 3 (by decide),
    fun a => State.byteAt_writeWord_ne s v, rfl⟩

/-- Settles O41: a write to a word of CT joins it with the entry's other word, and the entry keeps the low `WORD`
bits. -/
theorem ctWindow : Obligations.CtWindow := by
  intro s k v es hp hk hr hb
  have hlo : 0x2000 + 8 * k = ctOffset k := rfl
  have hhi : 0x2004 + 8 * k = ctOffset k + 4 := by rw [← hlo]; omega
  have hwl : inTxt s.params (ctOffset k) = true ∨ inCt s.params (ctOffset k) = true :=
    .inr (inCt_ctOffset hk (j := 0) (by decide))
  have hwh : inTxt s.params (ctOffset k + 4) = true ∨ inCt s.params (ctOffset k + 4) = true :=
    .inr (inCt_ctOffset hk (by decide))
  rw [hlo, hhi, (s.halves_ct k).1, (s.halves_ct k).2]
  refine ⟨fun h => ?_, fun h => ?_, fun h => ?_, fun h => ?_⟩
  · exact step_read_buffer h hp hr hb (by omega) hwl
  · exact step_read_buffer h hp hr hb (by omega) hwh
  · obtain ⟨hlow, hhigh⟩ := halves_of_new_low (s.lowBits_ct k) (State.ct_writeWord s k v).1
    exact ⟨_, step_write_buffer h hp hr hb (by omega) hwl, hlow, hhigh.trans (s.halves_ct k).2,
      fun a => State.byteAt_writeWord_ne s v, rfl⟩
  · obtain ⟨hhigh, hlow⟩ := halves_of_new_high (s.lowBits_ct k) (State.ct_writeWord s k v).2
    exact ⟨_, step_write_buffer h hp hr hb (by omega) hwh, hhigh, hlow.trans (s.halves_ct k).1,
      fun a => State.byteAt_writeWord_ne s v, rfl⟩

/-- Settles O48: the lockout leaves CTRL and STATUS, each with one offset. -/
theorem busyLockout : Obligations.BusyLockout := by
  intro s r es hb he
  exact ⟨_, step_bus he, State.serve_busy (s := { s with events := es }) hb r, State.serve_ie, State.serve_done_trunc⟩

/-- Settles O33: the write is `accept`, an illegal word completes with E_ILLEGAL, and CMD is locked while busy. -/
theorem cmdWriteAcceptsCommand : Obligations.CmdWriteAcceptsCommand := by
  intro s w es hr hw
  have accepts : s.busy = false → step s = .next { s.accept w with resp := some .accepted, events := es } := fun hb =>
    step_write_idle hw hr hb (by decide) rfl rfl nofun
  refine ⟨accepts, fun e es' hb hd he => ?_, fun hb => ?_⟩
  · subst he
    have completes : step { s.accept w with resp := some .accepted, events := .engine :: es' } = _ :=
      (step_completes rfl (by exact hr) (.inl rfl)).trans (completeCurrent_error (by exact hd))
    exact (core_run_next (accepts hb) 1).trans (core_run_next completes 0)
  · have locked : ({ s with events := es } : State).refuses ⟨BitVec.ofNat 14 0x000C, true, w, 4⟩ = true := by
      simp [State.refuses, hb, Request.target, target_eq_cmd.2, Target.lockedWhileBusy]
    rw [step_bus hw, State.serve_refused locked]
    rfl

end Sys2Proof.Claims
end

section
/-! The command word: the assembler and the decoder are inverse to each other, and the illegal words row by row. -/

namespace Sys2Proof

open Sys2Proof.Laws

/-- The assembled word matches the row of its command (R103, R107). -/
theorem matchesWord_encode (i : Instr) : i.row.matchesWord (encode i) = true := by
  cases i with
  | gcd => exact EncodeMatchesRow.gcd ..
  | egcd => exact EncodeMatchesRow.egcd ..
  | modinv => exact EncodeMatchesRow.modinv ..
  | modmul => exact EncodeMatchesRow.modmul ..
  | modexp => exact EncodeMatchesRow.modexp ..
  | isprime => exact EncodeMatchesRow.isprime ..
  | enc => exact EncodeMatchesRow.enc ..
  | dec => exact EncodeMatchesRow.dec ..
  | shainit => exact EncodeMatchesRow.shainit
  | shablk => exact EncodeMatchesRow.shablk ..

/-- The fields of the assembled word are those of the command. -/
@[simp] theorem instr_encode (i : Instr) : i.row.instr (encode i) = i := by
  cases i <;> simp [Instr.row, Mnemonic.instr, encode]

theorem decode_encode {nreg : Nat} {i : Instr} (h : i.wf nreg = true) : decode nreg (encode i) = .ok i := by
  rw [decode_of_matches (matchesWord_encode i), instr_encode, if_pos h]

/-- A word that matches a row is its fields packed, the unused ones 0, which is the row's command assembled. -/
theorem encode_instr {m : Mnemonic} {w : Word32} (h : m.matchesWord w = true) : encode (m.instr w) = w := by
  obtain ⟨hop, hresv, hunused⟩ := (matchesWord_iff m w).1 h
  conv_rhs => rw [← packWord_fields w, hop, hresv]
  cases m <;> simp_all [Mnemonic.instr, encode]

/-- Decoding accepts the words that match a row and name registers of the build, and no other. -/
theorem decode_eq_error_iff {nreg : Nat} {w : Word32} :
    (∃ e, decode nreg w = .error e) ↔ ¬ ∃ m : Mnemonic, m.matchesWord w = true ∧ (m.instr w).wf nreg = true := by
  constructor
  · rintro ⟨e, he⟩ ⟨m, hm, hw⟩
    rw [decode_of_matches hm, if_pos hw] at he
    cases he
  · intro h
    cases hd : decode nreg w with
    | error e => exact ⟨e, rfl⟩
    | ok i =>
      obtain ⟨m, hm, hw, rfl⟩ := decode_ok_cases hd
      exact absurd ⟨m, hm, hw⟩ h

/-- An opcode without a row is one of R104's four ranges. -/
theorem unassigned_opcode_ranges (op : BitVec 8) (h : ∀ m ∈ Mnemonic.all, m.opcode ≠ op) :
    op.toNat = 0x00 ∨ (0x07 ≤ op.toNat ∧ op.toNat ≤ 0x0F) ∨ (0x12 ≤ op.toNat ∧ op.toNat ≤ 0x1F) ∨ 0x22 ≤ op.toNat := by
  revert op
  decide +kernel

end Sys2Proof

namespace Sys2Proof.Claims

/-- Without a row for its opcode a word is illegal. -/
theorem illegalWord_of_unassigned {w : Word32} (h : ∀ m ∈ Mnemonic.all, m.opcode ≠ opField w) (nreg : Nat) :
    IllegalWord nreg w := by
  rcases unassigned_opcode_ranges (opField w) h with h | h | h | h
  · exact .inl h
  · exact .inr (.inl h)
  · exact .inr (.inr (.inl h))
  · exact .inr (.inr (.inr (.inl h)))

/-- With a row for its opcode a word is illegal if it does not match the row or names a register that the build lacks.
A field that the row does not use is 0 in a word that matches, and names the register R0, which every build has. -/
theorem illegalWord_iff_of_opcode {nreg : Nat} (h1 : 1 ≤ nreg) {m : Mnemonic} {w : Word32} (h : opField w = m.opcode) :
    IllegalWord nreg w ↔ ¬ (m.matchesWord w = true ∧ (m.instr w).wf nreg = true) := by
  have hop : (w.extractLsb 7 0).toNat = m.opcode.toNat := congrArg BitVec.toNat h
  have hrd : (w.extractLsb 11 8).toNat = (rdField w).val := rfl
  have hrs1 : (w.extractLsb 15 12).toNat = (rs1Field w).val := rfl
  have hrs2 : (w.extractLsb 19 16).toNat = (rs2Field w).val := rfl
  have hrs3 : (w.extractLsb 23 20).toNat = (rs3Field w).val := rfl
  have hresv : (w.extractLsb 31 24).toNat = (resvField w).toNat := rfl
  have hzero : (0 : Reg).val = 0 := rfl
  simp only [IllegalWord, hop, hrd, hrs1, hrs2, hrs3, hresv, matchesWord_iff, h, Instr.wf_iff, true_and,
    ← BitVec.toNat_inj, Fin.ext_iff, hzero]
  cases m <;> simp [Mnemonic.opcode, Mnemonic.instr, Instr.registers] <;> omega

/-- R104's list is what the decoder rejects. -/
theorem illegalWord_iff {nreg : Nat} (h1 : 1 ≤ nreg) (w : Word32) :
    IllegalWord nreg w ↔ ∃ e, decode nreg w = .error e := by
  rw [decode_eq_error_iff]
  by_cases hrow : ∃ m : Mnemonic, opField w = m.opcode
  · obtain ⟨m, hm⟩ := hrow
    rw [illegalWord_iff_of_opcode h1 hm]
    refine not_congr ⟨fun h => ⟨m, h⟩, ?_⟩
    rintro ⟨n, hn, hw⟩
    obtain rfl : m = n := Mnemonic.opcode_inj (hm.symm.trans ((matchesWord_iff n w).1 hn).1)
    exact ⟨hn, hw⟩
  · have hno : ∀ m : Mnemonic, m.opcode ≠ opField w := fun m hm => hrow ⟨m, hm.symm⟩
    exact iff_of_true (illegalWord_of_unassigned (fun m _ => hno m) nreg)
      fun ⟨m, hm, _⟩ => hno m ((matchesWord_iff m w).1 hm).1.symm

end Sys2Proof.Claims
end

section
/-! The statements about the command word (30_encoding.md). -/

namespace Sys2Proof.Claims

open Sys2Proof.Machine

/-- Settles O4: the assembled word matches its row, whose fields are the command's. -/
theorem decodeOfEncode : Obligations.DecodeOfEncode := fun _ _ => decode_encode

/-- Settles O5: a word decodes through the row it matches, and its unused fields are 0. -/
theorem encodeOfDecode : Obligations.EncodeOfDecode := by
  intro nreg w i h
  obtain ⟨m, hm, hw, rfl⟩ := decode_ok_cases h
  exact ⟨encode_instr hm, hw⟩

/-- Settles O6: R104's list is the decoder's rejection; CMD takes any word, and the Engine completes an illegal one with
E_ILLEGAL. -/
theorem illegalWordsCompleteWithEIllegal : Obligations.IllegalWordsCompleteWithEIllegal := by
  refine fun w => ⟨fun nreg h1 => illegalWord_iff h1 w, fun s es hb hr hw => ?_, fun s es hp hi hc hb hr he => ?_⟩
  · exact step_write_idle hw hr hb (by decide) rfl rfl nofun
  · obtain ⟨-, -, -, ⟨h1, -⟩, -⟩ := (Params.legal_iff _).1 hp
    obtain ⟨e, hd⟩ := (illegalWord_iff h1 w).1 hi
    subst hc
    rw [step_completes hb hr he, completeCurrent_error (s := { s with events := es }) hd]
    rfl

/-- Settles O7: the decoder, run on the seven words. -/
theorem specWordsDecode : Obligations.SpecWordsDecode := by
  refine ⟨?_, ?_, ?_, ?_, ?_, ?_, ?_⟩ <;> rfl

end Sys2Proof.Claims
end

section
/-! The block's commands as key setup uses them (44_host_procedures.md R242 to R245): what each gives, and what it
leaves. -/

namespace Sys2Proof.Machine

/-! ### What key setup leaves unchanged -/

/-- What the block keeps while the Host drives it by a plan: everything but the plan's registers, the command and its
record, `busy` and the bus answer. -/
structure KeyFrame (plan : KeyPlan) (s t : State) : Prop where
  frame : t = { s with regs := t.regs, busy := t.busy, cur := t.cur, lastcmd := t.lastcmd, done := t.done,
                       errcode := t.errcode, errinfo := t.errinfo, resp := t.resp }
  registers : ∀ i, i ≠ plan.rs1 → i ≠ plan.rs2 → i ≠ plan.rd → t.x i = s.x i

namespace KeyFrame

variable {plan : KeyPlan} {s t : State}

theorem refl (plan : KeyPlan) (s : State) : KeyFrame plan s s := ⟨rfl, fun _ _ _ _ => rfl⟩

theorem params (h : KeyFrame plan s t) : t.params = s.params := by rw [h.frame]

theorem rst (h : KeyFrame plan s t) : t.rst = s.rst := by rw [h.frame]

theorem setX (h : KeyFrame plan s t) {i : Reg} (hi : i = plan.rs1 ∨ i = plan.rs2 ∨ i = plan.rd) (v : Word) :
    KeyFrame plan s (t.setX i v) where
  frame := by rw [h.frame]; rfl
  registers j h1 h2 h3 := by
    have hj : j ≠ i := by rintro rfl; simp_all
    rw [State.x_setX_ne t v hj, h.registers j h1 h2 h3]

theorem accept (h : KeyFrame plan s t) (w : Word32) : KeyFrame plan s (t.accept w) :=
  ⟨by rw [h.frame]; rfl, h.registers⟩

theorem complete (h : KeyFrame plan s t) (e : ErrCode) (info : Word32) : KeyFrame plan s (t.complete e info) :=
  ⟨by rw [h.frame]; rfl, h.registers⟩

theorem setResp (h : KeyFrame plan s t) (r : Option Response) : KeyFrame plan s { t with resp := r } :=
  ⟨by rw [h.frame], h.registers⟩

theorem respond (h : KeyFrame plan s t) (r : Response) : KeyFrame plan s (t.respond r) := h.setResp (some r)

/-- Between two commands `busy` is unchanged as well. -/
theorem eq_of_busy (h : KeyFrame plan s t) (hb : t.busy = s.busy) :
    t = { s with regs := t.regs, cur := t.cur, lastcmd := t.lastcmd, done := t.done, errcode := t.errcode,
                 errinfo := t.errinfo, resp := t.resp } := by
  have hf := h.frame
  rw [hb] at hf
  exact hf

end KeyFrame

/-! ### One command with its operands -/

theorem natGcd_lt {a b n : Nat} (ha : a < n) (hb : b < n) : Nat.gcd a b < n := by
  rcases Nat.eq_zero_or_pos a with rfl | h
  · simpa using hb
  · exact (Nat.gcd_le_left b h).trans_lt ha

theorem toNat_ofNat_lt {w k n : Nat} (h : k < n) : (BitVec.ofNat w k).toNat < n := by
  rw [BitVec.toNat_ofNat]
  exact (Nat.mod_le ..).trans_lt h

theorem KeyPlan.legal_iff {plan : KeyPlan} {p : Config.Params} :
    plan.legal p = true ↔
      plan.rs1 ≠ plan.rs2 ∧ plan.rs1.val < p.nreg ∧ plan.rs2.val < p.nreg ∧ plan.rd.val < p.nreg :=
  decide_eq_true_iff

@[simp] theorem State.readData_respond_data (s : State) (v : Word32) : (s.respond (.data v)).readData = v := rfl

theorem ErrCode.code_inj {e f : ErrCode} : e.code = f.code ↔ e = f := by cases e <;> cases f <;> decide

section

variable {plan : KeyPlan} {s : State} (hl : plan.legal s.params = true) (hr : s.rst = false) (hb : s.busy = false)

section

variable {operands : List (Reg × Word)} {i : Instr} {u : State} (ho : ∀ o ∈ operands, o.1.val < s.params.nreg)
  (hu : operands.foldl (fun s o => s.setX o.1 o.2) s = u) (hf : KeyFrame plan s u) (hub : u.busy = s.busy)
  (hw : i.wf s.params.nreg = true)

include hr hb ho hu hf hub hw

/-- A command issued with its operands runs on a state that holds them, and the latest answer is STATUS after it. -/
theorem issue_run :
    ∃ v t, exec i v = .next t ∧ KeyFrame plan s v ∧ (∀ j, v.x j = u.x j) ∧
      (t.rst = false → issue plan operands i s = t.respond (.data t.status)) := by
  obtain ⟨r, t, ht, hrun⟩ := issue_eq hr hb ho hu hf.params hf.rst hub (decode_encode hw)
  exact ⟨_, t, ht, (hf.accept _).setResp r, fun _ => rfl, hrun⟩

/-- A command that succeeds with a result that fits the plan's result register. -/
theorem issue_succeeds {n : Word} (hn : n.toNat < 2 ^ s.params.word)
    (hexec : ∀ v : State, (∀ j, v.x j = u.x j) → exec i v = .next (v.setX plan.rd n).succeed) :
    ∃ t, issue plan operands i s = t.respond (.data t.status) ∧ KeyFrame plan s t ∧ t.busy = false ∧
      t.errcode = .ok ∧ t.x plan.rd = n := by
  obtain ⟨v, t, ht, hfv, hx, hrun⟩ := issue_run hr hb ho hu hf hub hw
  cases ht.symm.trans (hexec v hx)
  have hft := (hfv.setX (.inr (.inr rfl)) n).complete .ok 0
  exact ⟨_, hrun (hft.rst.trans hr), hft, rfl, rfl,
    (State.x_setX_same ..).trans (lowBits_eq_self (hfv.params ▸ hn))⟩

/-- A command that ends with an error. -/
theorem issue_raises {e : ErrCode} {info : Word32}
    (hexec : ∀ v : State, (∀ j, v.x j = u.x j) → exec i v = .next (v.raise e info)) :
    ∃ t, issue plan operands i s = t.respond (.data t.status) ∧ KeyFrame plan s t ∧ t.busy = false ∧
      t.errcode = e := by
  obtain ⟨v, t, ht, hfv, hx, hrun⟩ := issue_run hr hb ho hu hf hub hw
  cases ht.symm.trans (hexec v hx)
  have hft := hfv.complete e info
  exact ⟨_, hrun (hft.rst.trans hr), hft, rfl, rfl⟩

end

include hl hr in
/-- The Host reads a command's result, which leaves the idle block as the command left it. -/
theorem hostReadReg_result {t : State} (hf : KeyFrame plan s t) (hb : t.busy = false) :
    ∃ t', hostReadReg plan.rd (t.respond (.data t.status)) = (t.x plan.rd, t') ∧ KeyFrame plan s t' ∧
      t'.busy = false := by
  obtain ⟨-, -, -, hrd⟩ := KeyPlan.legal_iff.1 hl
  have hread := hostReadReg_eq (s := t.respond (.data t.status)) (hf.rst.trans hr) hb (i := plan.rd)
    (by simpa [hf.params] using hrd)
  exact ⟨_, hread, (hf.respond _).respond _, hb⟩

variable {a b : Word} (ha : a.toNat < 2 ^ s.params.word) (hb' : b.toNat < 2 ^ s.params.word)

include ha in
theorem x_operand : (s.setX plan.rs1 a).x plan.rs1 = a :=
  (State.x_setX_same ..).trans (lowBits_eq_self ha)

include hl ha hb' in
theorem x_operands :
    ((s.setX plan.rs1 a).setX plan.rs2 b).x plan.rs1 = a ∧ ((s.setX plan.rs1 a).setX plan.rs2 b).x plan.rs2 = b := by
  obtain ⟨hne, -⟩ := KeyPlan.legal_iff.1 hl
  exact ⟨by rw [State.x_setX_ne _ _ hne, x_operand ha], (State.x_setX_same ..).trans (lowBits_eq_self hb')⟩

include hl hr hb ha in
/-- ISPRIME reads back 1 or 0 (R171, R242). -/
theorem hostIsprime_eq (hp : s.params.legal = true) :
    ∃ t, hostIsprime plan a s = (if isPrime a.toNat then 1 else 0, t) ∧ KeyFrame plan s t ∧ t.busy = false := by
  obtain ⟨-, hrs1, -, hrd⟩ := KeyPlan.legal_iff.1 hl
  have hone : (if isPrime a.toNat then 1 else 0 : Word).toNat < 2 ^ s.params.word := by
    obtain ⟨-, -, -, -, -, ⟨h2, -⟩, -⟩ := (Params.legal_iff _).1 hp
    have hpow : 2 ^ 2 ≤ 2 ^ s.params.word := Nat.pow_le_pow_right (by decide) h2
    split
    · exact lt_of_lt_of_le (by decide) hpow
    · exact lt_of_lt_of_le (by decide) hpow
  obtain ⟨u, hrun, hfu, hub, -, hx⟩ := issue_succeeds (plan := plan) (operands := [(plan.rs1, a)])
    (i := .isprime plan.rd plan.rs1) hr hb (by simpa using hrs1) rfl ((KeyFrame.refl plan s).setX (.inl rfl) a) rfl
    (by simp [Instr.wf, Instr.registers, hrs1, hrd]) hone (fun v hv => by simp [exec, execIsprime, hv, x_operand ha])
  obtain ⟨t, ht, hft, htb⟩ := hostReadReg_result hl hr hfu hub
  exact ⟨t, by rw [hostIsprime, hrun, ht, hx], hft, htb⟩

/-- What two operands leave in the block before the command. -/
theorem KeyFrame.operands (plan : KeyPlan) (s : State) (a b : Word) :
    KeyFrame plan s ((s.setX plan.rs1 a).setX plan.rs2 b) :=
  ((KeyFrame.refl plan s).setX (.inl rfl) a).setX (.inr (.inl rfl)) b

include hl hr hb ha hb' in
/-- GCD reads back the greatest common divisor (R131, R243). -/
theorem hostGcd_eq :
    ∃ t, hostGcd plan a b s = (BitVec.ofNat maxWord (Nat.gcd a.toNat b.toNat), t) ∧ KeyFrame plan s t ∧
      t.busy = false := by
  obtain ⟨-, hrs1, hrs2, hrd⟩ := KeyPlan.legal_iff.1 hl
  obtain ⟨hxa, hxb⟩ := x_operands hl ha hb'
  obtain ⟨u, hrun, hfu, hub, -, hx⟩ := issue_succeeds (plan := plan) (operands := [(plan.rs1, a), (plan.rs2, b)])
    (i := .gcd plan.rd plan.rs1 plan.rs2) hr hb (by simp [hrs1, hrs2]) rfl (.operands plan s a b) rfl
    (by simp [Instr.wf, Instr.registers, hrs1, hrs2, hrd]) (toNat_ofNat_lt (natGcd_lt ha hb'))
    (fun v hv => by simp [exec, execGcd, hv, hxa, hxb, gcd_eq])
  obtain ⟨t, ht, hft, htb⟩ := hostReadReg_result hl hr hfu hub
  exact ⟨t, by rw [hostGcd, hrun, ht, hx], hft, htb⟩

/-- MODINV's completion decides between the ArithmeticError and the result (R245). -/
theorem hostModinv_of_issue {t : State}
    (h : issue plan [(plan.rs1, a), (plan.rs2, b)] (.modinv plan.rd plan.rs1 plan.rs2) s = t.respond (.data t.status)) :
    hostModinv plan a b s =
      if t.errcode = .notcoprime then (.error .arithmeticError, t.respond (.data t.status))
      else (.ok (hostReadReg plan.rd (t.respond (.data t.status))).1,
        (hostReadReg plan.rd (t.respond (.data t.status))).2) := by
  simp only [hostModinv, h, State.readData_respond_data, State.status_errcode, ErrCode.code_inj]

include hl hr hb ha hb' in
/-- MODINV gives the inverse, or completes with E_NOTCOPRIME, or with E_ZMOD, after which the Host reads the register
as it is (R135, R244, R245). -/
theorem hostModinv_cases :
    ∃ t, KeyFrame plan s t ∧ t.busy = false ∧
      ((b.toNat = 0 ∧ ∃ d, hostModinv plan a b s = (.ok d, t)) ∨
        (b.toNat ≠ 0 ∧ Nat.gcd a.toNat b.toNat ≠ 1 ∧ t.errcode = .notcoprime ∧
          hostModinv plan a b s = (.error .arithmeticError, t)) ∨
        (b.toNat ≠ 0 ∧ Nat.gcd a.toNat b.toNat = 1 ∧
          hostModinv plan a b s = (.ok (BitVec.ofNat maxWord (inverse a.toNat b.toNat)), t))) := by
  obtain ⟨-, hrs1, hrs2, hrd⟩ := KeyPlan.legal_iff.1 hl
  obtain ⟨hxa, hxb⟩ := x_operands hl ha hb'
  have ho : ∀ o ∈ [(plan.rs1, a), (plan.rs2, b)], o.1.val < s.params.nreg := by simp [hrs1, hrs2]
  have hw : (Instr.modinv plan.rd plan.rs1 plan.rs2).wf s.params.nreg = true := by
    simp [Instr.wf, Instr.registers, hrs1, hrs2, hrd]
  have hops := KeyFrame.operands plan s a b
  by_cases h0 : b.toNat = 0
  · obtain ⟨u, hrun, hfu, hub, he⟩ := issue_raises (plan := plan) (e := .zmod) (info := 0) hr hb ho rfl hops rfl hw
      (fun v hv => by simp [exec, execModinv, hv, hxb, h0])
    obtain ⟨t, ht, hft, htb⟩ := hostReadReg_result hl hr hfu hub
    exact ⟨t, hft, htb, .inl ⟨h0, _, by rw [hostModinv_of_issue hrun, he, ht]; rfl⟩⟩
  by_cases hg : Nat.gcd a.toNat b.toNat = 1
  · have hinv : inverse a.toNat b.toNat < 2 ^ s.params.word := (inverse_lt _ h0).trans hb'
    obtain ⟨u, hrun, hfu, hub, he, hx⟩ := issue_succeeds (plan := plan) hr hb ho rfl hops rfl hw (toNat_ofNat_lt hinv)
      (fun v hv => by simp [exec, execModinv, hv, hxa, hxb, h0, egcd_fst, hg])
    obtain ⟨t, ht, hft, htb⟩ := hostReadReg_result hl hr hfu hub
    exact ⟨t, hft, htb, .inr (.inr ⟨h0, hg, by rw [hostModinv_of_issue hrun, he, ht, hx]; rfl⟩)⟩
  · obtain ⟨u, hrun, hfu, hub, he⟩ := issue_raises (plan := plan) (e := .notcoprime) (info := 0) hr hb ho rfl hops rfl
      hw (fun v hv => by simp [exec, execModinv, hv, hxa, hxb, h0, egcd_fst, hg])
    exact ⟨_, hfu.respond _, hub, .inr (.inl ⟨h0, hg, he, by rw [hostModinv_of_issue hrun, if_pos he]⟩)⟩

end

end Sys2Proof.Machine
end

section
/-! The statement about the Host's use of the block in key setup (44_host_procedures.md). -/

namespace Sys2Proof.Claims

open Sys2Proof.Machine

/-- Settles O51: the Host reads what the three commands compute of its operands, and each leaves what `KeyFrame`
says. -/
theorem keySetupUsesTheBlock : Obligations.KeySetupUsesTheBlock := by
  intro plan a b s hp hl hb hr ha hb'
  obtain ⟨t₁, hprime, hf₁, hb₁⟩ := hostIsprime_eq hl hr hb ha hp
  obtain ⟨t₂, hgcd, hf₂, hb₂⟩ := hostGcd_eq hl hr hb ha hb'
  obtain ⟨t₃, hf₃, hb₃, hmodinv⟩ := hostModinv_cases hl hr hb ha hb'
  have hzero : b ≠ 0 → b.toNat ≠ 0 := fun h h0 => h (BitVec.eq_of_toNat_eq h0)
  have hleft : (hostModinv plan a b s).2 = t₃ := by
    rcases hmodinv with ⟨-, d, h⟩ | ⟨-, -, -, h⟩ | ⟨-, -, h⟩ <;> rw [h]
  rw [hprime, hgcd, hleft]
  refine ⟨?_, ?_, fun h0 hg => ?_, fun h0 hg => ?_, fun t ht => ?_⟩
  · rw [← isPrime_iff]
    cases isPrime a.toNat <;> simp
  · exact Nat.mod_eq_of_lt (natGcd_lt a.isLt b.isLt)
  · rcases hmodinv with ⟨hz, -⟩ | ⟨-, hg', -⟩ | ⟨hz, -, h⟩
    · exact absurd hz (hzero h0)
    · exact absurd hg hg'
    · have hlt := inverse_lt a.toNat hz
      refine ⟨_, by rw [h], ?_⟩
      rw [BitVec.toNat_ofNat, Nat.mod_eq_of_lt (hlt.trans b.isLt)]
      exact ⟨hlt, inverse_spec hz hg⟩
  · rcases hmodinv with ⟨hz, -⟩ | ⟨-, -, he, h⟩ | ⟨-, hg', -⟩
    · exact absurd hz (hzero h0)
    · exact ⟨by rw [h], he⟩
    · exact absurd hg' hg
  · have hframe : KeyFrame plan s t ∧ t.busy = false := by
      simp only [List.mem_cons, List.not_mem_nil, or_false] at ht
      rcases ht with rfl | rfl | rfl
      · exact ⟨hf₁, hb₁⟩
      · exact ⟨hf₂, hb₂⟩
      · exact ⟨hf₃, hb₃⟩
    exact ⟨hframe.1.eq_of_busy (hframe.2.trans hb.symm), hframe.1.registers⟩

end Sys2Proof.Claims
end

section
/-! The Host's hashing procedure, block by block (44_host_procedures.md R241). -/

namespace Sys2Proof.Machine

/-- The padded message is a whole number of blocks (R240). -/
theorem padMessage_length_mod (m : List Byte) : (padMessage m).length % 64 = 0 := by
  simp only [padMessage, padZeros, bigEndian64, List.length_append, List.length_cons, List.length_nil,
    List.length_replicate]
  omega

theorem hashBlocks_nil (n : Nat) : hashBlocks n [] = initialHash n := rfl

/-! ### What hashing needs, and what it leaves unchanged -/

/-- An idle block of a legal build that has the plan's register. -/
structure HashReady (plan : HashPlan) (s : State) : Prop where
  legal : s.params.legal = true
  register : plan.rk.val < s.params.nreg
  idle : s.busy = false
  running : s.rst = false

/-- Two states of one build, with the reset pin at one level, that agree in CT and in every register but the plan's. -/
structure HashFrame (plan : HashPlan) (s t : State) : Prop where
  params : t.params = s.params
  rst : t.rst = s.rst
  registers : ∀ i, i ≠ plan.rk → t.x i = s.x i
  ct : ∀ a, 0x2000 ≤ a → t.byteAt a = s.byteAt a

theorem HashFrame.refl (plan : HashPlan) (s : State) : HashFrame plan s s :=
  ⟨rfl, rfl, fun _ _ => rfl, fun _ _ => rfl⟩

theorem HashFrame.trans {plan : HashPlan} {s t u : State} (h : HashFrame plan s t) (k : HashFrame plan t u) :
    HashFrame plan s u where
  params := k.params.trans h.params
  rst := k.rst.trans h.rst
  registers i hi := (k.registers i hi).trans (h.registers i hi)
  ct a ha := (k.ct a ha).trans (h.ct a ha)

theorem HashFrame.respond {plan : HashPlan} {s t : State} (h : HashFrame plan s t) (r : Response) :
    HashFrame plan s (t.respond r) := ⟨h.params, h.rst, h.registers, h.ct⟩

theorem HashFrame.ready {plan : HashPlan} {s t : State} (h : HashFrame plan s t) (hs : HashReady plan s)
    (hb : t.busy = false) : HashReady plan t where
  legal := h.params ▸ hs.legal
  register := h.params ▸ hs.register
  idle := hb
  running := h.rst.trans hs.running

/-! ### One turn of the loop -/

/-- SHAINIT from an idle block (R211, R241). -/
theorem perform_shainit {plan : HashPlan} {s : State} (hs : HashReady plan s) (n : Nat) :
    HashFrame plan s (perform s (hostRun .shainit n)) ∧ (perform s (hostRun .shainit n)).busy = false ∧
      (perform s (hostRun .shainit n)).hash = initialHash s.params.shaWord ∧
      (perform s (hostRun .shainit n)).errcode = .ok := by
  obtain ⟨r, u, hu, hrun⟩ := perform_run (i := .shainit) hs.running hs.idle (decode_encode rfl) n
  cases hu
  rw [hrun hs.running]
  exact ⟨⟨rfl, rfl, fun _ _ => rfl, fun _ _ => rfl⟩, rfl, rfl, rfl⟩

section

variable {plan : HashPlan} {s : State} (hs : HashReady plan s)

include hs

/-- SHABLK runs with the block in TXT and its offset in the plan's register, and the latest answer is STATUS after
it. -/
theorem perform_block {off : Nat} (hoff : off < 2 ^ s.params.word) (b : Nat → Byte) (polls : Nat) :
    ∃ v t, exec (.shablk plan.rk) v = .next t ∧ HashFrame plan s v ∧ v.hash = s.hash ∧
      (v.x plan.rk).toNat = off ∧ (off + 64 ≤ s.params.txtSize → ∀ k < 64, v.txt (off + k) = b k) ∧
      (t.rst = false → perform s (hostBlock s.params plan.rk off b polls) = t.respond (.data t.status)) := by
  obtain ⟨hp, hk, hb, hr⟩ := hs
  obtain ⟨-, -, -, -, -, ⟨-, hword⟩, -⟩ := (Params.legal_iff _).1 hp
  have h64 : off < 2 ^ maxWord := lt_of_lt_of_le hoff (Nat.pow_le_pow_right (by decide) hword)
  obtain ⟨m, r, hput, htxt, hct⟩ := perform_putBlock hr hb hp off b
  have hli := perform_li (s := { s with mem := m, resp := r }) hr hb hk (BitVec.ofNat maxWord off)
  have hw : (Instr.shablk plan.rk).wf s.params.nreg = true := by simp [Instr.wf, Instr.registers, hk]
  obtain ⟨r', t, ht, hrun⟩ := perform_run (s := (State.setX { s with mem := m, resp := r } plan.rk
    (BitVec.ofNat maxWord off)).respond .accepted) (i := .shablk plan.rk) hr hb (decode_encode hw) polls
  refine ⟨_, t, ht, ⟨rfl, rfl, fun i hi => State.x_setX_ne s _ hi, hct⟩, rfl, State.toNat_x_setX (s := s) _ hoff h64,
    fun hin k hk' => htxt k hk' hin, fun hrt => ?_⟩
  rw [hostBlock, perform_append, perform_append, hput, hli, hrun hrt]

/-- With its block inside TXT, a turn compresses it (R212). -/
theorem perform_block_inside {off : Nat} (hoff : off < 2 ^ s.params.word) (hin : off + 64 ≤ s.params.txtSize)
    (b : Nat → Byte) (polls : Nat) :
    ∃ t, perform s (hostBlock s.params plan.rk off b polls) = t.respond (.data t.status) ∧ HashFrame plan s t ∧
      t.busy = false ∧ t.errcode = .ok ∧
      t.hash = compress s.params.shaWord s.hashValue (schedule s.params.shaWord b) := by
  obtain ⟨v, t, ht, hf, hhash, hx, htxt, hrun⟩ := perform_block hs hoff b polls
  have hbound : v.blockOutOfBounds (v.x plan.rk).toNat = false := by
    rw [Bool.eq_false_iff, ne_eq, State.blockOutOfBounds_iff, hx, hf.params]
    omega
  simp only [exec, execShablk, hbound, Bool.false_eq_true, if_false] at ht
  cases ht
  refine ⟨_, hrun (hf.rst.trans hs.running), ⟨hf.params, hf.rst, hf.registers, hf.ct⟩, rfl, rfl, ?_⟩
  have hsched : schedule v.params.shaWord (fun k => v.txt ((v.x plan.rk).toNat + k)) = schedule v.params.shaWord b :=
    schedule_congr _ fun k hk => by rw [hx]; exact htxt hin k hk
  change compress v.params.shaWord v.hashValue _ = _
  rw [hsched, State.hashValue, hhash, hf.params, State.hashValue]

/-- With its block not wholly inside TXT, a turn ends with E_BOUNDS (R212). -/
theorem perform_block_outside {off : Nat} (hoff : off < 2 ^ s.params.word) (hout : s.params.txtSize < off + 64)
    (b : Nat → Byte) (polls : Nat) :
    ∃ t : State, perform s (hostBlock s.params plan.rk off b polls) = t.respond (.data t.status) ∧
      t.errcode = .bounds := by
  obtain ⟨v, t, ht, hf, -, hx, -, hrun⟩ := perform_block hs hoff b polls
  have hbound : v.blockOutOfBounds (v.x plan.rk).toNat = true := by
    rw [State.blockOutOfBounds_iff, hx, hf.params]
    exact hout
  simp only [exec, execShablk, hbound, if_true] at ht
  cases ht
  exact ⟨_, hrun (hf.rst.trans hs.running), rfl⟩

end

/-! ### The loop over the blocks -/

/-- A turn whose completion has no error is followed by the rest of the blocks. -/
theorem hostBlocks_succ_of_ok {plan : HashPlan} {padded : List Byte} {n j : Nat} {s t : State}
    (ht : perform s (hostBlock s.params plan.rk (plan.place j) (fun k => padded.getD (64 * j + k) 0) (plan.polls j)) =
      t.respond (.data t.status)) (he : t.errcode = .ok) :
    hostBlocks plan padded (n + 1) j s = hostBlocks plan padded n (j + 1) (t.respond (.data t.status)) := by
  have herr : ¬ t.status.getLsbD 2 = true := by rw [State.status_err]; exact not_not_intro he
  simp only [hostBlocks, ht, State.readData_respond_data, if_neg herr]

/-- A turn whose completion has an error is the last. -/
theorem hostBlocks_succ_of_error {plan : HashPlan} {padded : List Byte} {n j : Nat} {s t : State}
    (ht : perform s (hostBlock s.params plan.rk (plan.place j) (fun k => padded.getD (64 * j + k) 0) (plan.polls j)) =
      t.respond (.data t.status)) (he : t.errcode ≠ .ok) :
    hostBlocks plan padded (n + 1) j s = (false, t.respond (.data t.status)) := by
  simp only [hostBlocks, ht, State.readData_respond_data, if_pos (t.status_err.2 he)]

/-- With every block inside TXT the loop reaches its end, with the hash of the blocks so far. -/
theorem hostBlocks_inside {plan : HashPlan} {padded : List Byte} (n : Nat) {j : Nat} {s : State}
    (hs : HashReady plan s)
    (hlen : 64 * (j + n) ≤ padded.length)
    (hplace : ∀ i, j ≤ i → i < j + n → plan.place i < 2 ^ s.params.word ∧ plan.place i + 64 ≤ s.params.txtSize)
    (he : s.errcode = .ok) (hhash : s.hash = hashBlocks s.params.shaWord (padded.take (64 * j))) :
    ∃ t, hostBlocks plan padded n j s = (true, t) ∧ HashFrame plan s t ∧ t.busy = false ∧ t.errcode = .ok ∧
      t.hash = hashBlocks s.params.shaWord (padded.take (64 * (j + n))) := by
  induction n generalizing j s with
  | zero => exact ⟨s, rfl, .refl plan s, hs.idle, he, hhash⟩
  | succ n ih =>
    obtain ⟨hoff, hin⟩ := hplace j le_rfl (by omega)
    obtain ⟨u, hu, hf, hub, hue, huh⟩ := perform_block_inside hs hoff hin
      (fun k => padded.getD (64 * j + k) 0) (plan.polls j)
    have hnext : u.hash = hashBlocks u.params.shaWord (padded.take (64 * (j + 1))) := by
      rw [huh, hf.params, hashBlocks_take_succ _ _ _ (by omega), ← hhash, State.hashValue, hhash, fitHash_hashBlocks]
    have hfu := hf.respond (.data u.status)
    obtain ⟨t, ht, hft, htb, hte, hth⟩ := ih (j := j + 1) (hfu.ready hs hub) (by omega)
      (fun i h1 h2 => hfu.params ▸ hplace i (by omega) (by omega)) hue hnext
    refine ⟨t, by rw [hostBlocks_succ_of_ok hu hue, ht], hfu.trans hft, htb, hte, ?_⟩
    rw [hth, hfu.params, show j + 1 + n = j + (n + 1) by omega]

/-- The loop stops at the first block that is not wholly inside TXT. -/
theorem hostBlocks_outside {plan : HashPlan} {padded : List Byte} (n : Nat) {j i : Nat} {s : State}
    (hs : HashReady plan s)
    (hji : j ≤ i) (hin : i < j + n) (hoff : ∀ k, j ≤ k → k ≤ i → plan.place k < 2 ^ s.params.word)
    (hbefore : ∀ k, j ≤ k → k < i → plan.place k + 64 ≤ s.params.txtSize)
    (hout : s.params.txtSize < plan.place i + 64) :
    ∃ t, hostBlocks plan padded n j s = (false, t) ∧ t.errcode = .bounds := by
  induction n generalizing j s with
  | zero => omega
  | succ n ih =>
    have hoffj := hoff j le_rfl hji
    by_cases hj : j = i
    · subst hj
      obtain ⟨u, hu, hue⟩ := perform_block_outside hs hoffj hout
        (fun k => padded.getD (64 * j + k) 0) (plan.polls j)
      exact ⟨_, hostBlocks_succ_of_error hu (by simp [hue]), hue⟩
    · obtain ⟨u, hu, hf, hub, hue, -⟩ := perform_block_inside hs hoffj (hbefore j le_rfl (by omega))
        (fun k => padded.getD (64 * j + k) 0) (plan.polls j)
      have hfu := hf.respond (.data u.status)
      rw [hostBlocks_succ_of_ok hu hue]
      exact ih (hfu.ready hs hub) (by omega) (by omega) (fun k h1 h2 => hfu.params ▸ hoff k (by omega) h2)
        (fun k h1 h2 => hfu.params ▸ hbefore k (by omega) h2) (hfu.params ▸ hout)

/-! ### The digest -/

/-- The words that the Host reads from H on an idle block (R207). -/
theorem readHash_eq {s : State} (hr : s.rst = false) (hb : s.busy = false) :
    Vector.ofFn (fun i : Fin 8 => (perform s (hostReadHash (i.val + 1))).readData) = s.hashValue := by
  refine Vector.ext fun i hi => ?_
  obtain ⟨-, -, hread⟩ := perform_readHash hr hb (i + 1) hi
  rw [Vector.getElem_ofFn, hread ⟨i, hi⟩ rfl]
  rfl

end Sys2Proof.Machine
end

section
/-! The statement about the Host's hashing procedure (44_host_procedures.md). -/

namespace Sys2Proof.Claims

open Sys2Proof.Machine

/-- Settles O54: SHAINIT, then the loop over all blocks of the padded message, then the eight words of H; a block that
is not wholly inside TXT ends the loop. -/
theorem hashProcedureGivesTheDigest : Obligations.HashProcedureGivesTheDigest := by
  intro plan m s hp hk hb hr hplace
  have hs : HashReady plan s := ⟨hp, hk, hb, hr⟩
  obtain ⟨hf, hsb, hhash, he⟩ := perform_shainit hs (plan.polls 0)
  have hs' := hf.ready hs hsb
  have hmod := padMessage_length_mod m
  constructor
  · intro hin
    obtain ⟨t, ht, hft, htb, hte, hth⟩ := hostBlocks_inside (padded := padMessage m) ((padMessage m).length / 64)
      (j := 0) hs' (by omega) (fun i _ h2 => hf.params ▸ ⟨hplace i (by omega), hin i (by omega)⟩) he
      (by rw [hf.params, hhash, Nat.mul_zero, List.take_zero, hashBlocks_nil])
    have hfst := hf.trans hft
    have hall : t.hash = hashBlocks s.params.shaWord (padMessage m) := by
      rw [hth, hf.params, List.take_of_length_le (by omega)]
    have hvalue : t.hashValue = t.hash := by rw [State.hashValue, hfst.params, hall, fitHash_hashBlocks]
    obtain ⟨r, hread, -⟩ := perform_readHash (hfst.rst.trans hr) htb 8 le_rfl
    simp only [hashWithBlock, ht, if_true, readHash_eq (hfst.rst.trans hr) htb, hread]
    exact ⟨by rw [hvalue, hall, sha256], hall, htb, hte, hfst.registers, hfst.ct⟩
  · intro j hj hbefore hout
    obtain ⟨t, ht, hte⟩ := hostBlocks_outside (padded := padMessage m) ((padMessage m).length / 64) (j := 0) (i := j)
      hs' (by omega) (by omega) (fun k _ h2 => hf.params ▸ hplace k (by omega))
      (fun k _ h2 => hf.params ▸ hbefore k h2) (hf.params ▸ hout)
    simp only [hashWithBlock, ht]
    exact ⟨rfl, hte⟩

end Sys2Proof.Claims
end

section
/-! Facts for the statements about the modular arithmetic unit (40_modarith.md): the recursion and the iterative form, which
words decode, and an equation per case of each command. -/

namespace Sys2Proof

/-- The low `n` bits of a two's complement pattern are the integer modulo `2^n` (R9). -/
theorem toNat_lowBits_tc64 {n : Nat} (hn : n ≤ maxWord) (v : Int) : ((lowBits n (tc64 v)).toNat : Int) = v % 2 ^ n := by
  have h0 : 0 ≤ v % ((2 ^ maxWord : Nat) : Int) := Int.emod_nonneg _ (by decide)
  rw [toNat_lowBits, BitVec.toNat_ofInt, Int.natCast_mod, Int.toNat_of_nonneg h0]
  push_cast
  exact Int.emod_emod_of_dvd v (pow_dvd_pow 2 hn)

/-- A value that fits two's complement of `w + 1` bits is the signed reading of its pattern. -/
theorem bmod_emod_of_fits {w : Nat} {v : Int} (hlo : -2 ^ w ≤ v) (hhi : v < 2 ^ w) :
    (v % 2 ^ (w + 1)).bmod (2 ^ (w + 1)) = v := by
  have hpow : ((2 ^ (w + 1) : Nat) : Int) = 2 ^ w * 2 := by
    push_cast
    exact pow_succ 2 w
  have hmod : (v % ((2 ^ (w + 1) : Nat) : Int)).bmod (2 ^ (w + 1)) = v.bmod (2 ^ (w + 1)) := Int.emod_bmod v _
  push_cast at hmod
  rw [hmod]
  exact Int.bmod_eq_of_le_mul_two (by rw [hpow]; omega) (by rw [hpow]; omega)

/-- With all 16 registers only EGCD has a field value that names none (R104). -/
theorem decode_encode_of_row {i : Instr} (h : i.row ≠ .EGCD) : decode 16 (encode i) = .ok i := by
  refine decode_encode ((Instr.wf_iff 16 i).2 ?_)
  cases i with
  | egcd => exact absurd rfl h
  | _ => simp [Instr.registers]

/-- EGCD is legal when `rd+2` is a register (R133). -/
theorem decode_encode_egcd {rd : Reg} (h : rd.val ≤ 13) (rs1 rs2 : Reg) :
    decode 16 (encode (.egcd rd rs1 rs2)) = .ok (.egcd rd rs1 rs2) := by
  refine decode_encode ((Instr.wf_iff 16 _).2 ?_)
  simp only [Instr.registers, List.forall_mem_cons]
  exact ⟨by omega, by omega, by omega, rs1.isLt, rs2.isLt, nofun⟩

/-- An EGCD word is illegal when a field it does not use is nonzero or `rd+2` is no register (R104, R133). -/
theorem decode_egcd_error {nreg : Nat} {resv : BitVec 8} {rs3 rd : Reg} (rs2 rs1 : Reg)
    (h : nreg ≤ rd.val + 2 ∨ resv ≠ 0 ∨ rs3.val ≠ 0) :
    ∃ e, decode nreg (packWord resv rs3 rs2 rs1 rd Mnemonic.EGCD.opcode) = .error e := by
  rw [decode_eq_error_iff]
  rintro ⟨m, hm, hw⟩
  obtain ⟨hop, hresv, hunused⟩ := (matchesWord_iff m _).1 hm
  obtain rfl : .EGCD = m := Mnemonic.opcode_inj ((opField_packWord ..).symm.trans hop)
  rcases h with h | h | h
  · have hlt := (Instr.wf_iff nreg _).1 hw (rd.val + 2) (by simp [Mnemonic.instr, Instr.registers])
    omega
  · exact h ((resvField_packWord ..).symm.trans hresv)
  · exact h (congrArg Fin.val ((rs3Field_packWord ..).symm.trans hunused))

end Sys2Proof

namespace Sys2Proof.Machine

/-! ### The functions -/

/-- The recursion of R132. -/
theorem gcd_rec (a b : Nat) : gcd a b = if b = 0 then a else gcd b (a % b) := by
  split
  · next hb => rw [hb, gcd_eq, Nat.gcd_zero_right]
  · rw [gcd_eq, gcd_eq, Nat.gcd_comm, Nat.gcd_rec, Nat.gcd_comm]

/-! ### The commands, an equation per case -/

variable {s : State} {rd rs1 rs2 rs3 : Reg}

theorem State.x_succeed (s : State) (i : Reg) : s.succeed.x i = s.x i := rfl

/-- EGCD's three writes: `g` and the two's complement of both coefficients (R133). -/
def State.setTriple (s : State) (rd : Reg) (r : Nat × Int × Int) : State :=
  ((s.setX rd (BitVec.ofNat maxWord r.1)).setX (regAbove rd 1) (tc64 r.2.1)).setX (regAbove rd 2) (tc64 r.2.2)

theorem ne_regAbove {j : Reg} {n : Nat} (h : rd.val + n < 16) (hj : j.val ≠ rd.val + n) : j ≠ regAbove rd n :=
  fun e => hj ((congrArg Fin.val e).trans (regAbove_val h))

section

variable (h : rd.val + 2 < 16) (s) (r : Nat × Int × Int)
include h

theorem State.x_setTriple_gcd : (s.setTriple rd r).x rd = lowBits s.params.word (BitVec.ofNat maxWord r.1) := by
  have h1 : rd ≠ regAbove rd 1 := ne_regAbove (by omega) (by omega)
  have h2 : rd ≠ regAbove rd 2 := ne_regAbove h (by omega)
  rw [State.setTriple, State.x_setX_ne _ _ h2, State.x_setX_ne _ _ h1, State.x_setX_same]

theorem State.x_setTriple_fst {j : Reg} (hj : j.val = rd.val + 1) :
    (s.setTriple rd r).x j = lowBits s.params.word (tc64 r.2.1) := by
  have h2 : j ≠ regAbove rd 2 := ne_regAbove h (by omega)
  obtain rfl : j = regAbove rd 1 := Fin.ext (hj.trans (regAbove_val (by omega)).symm)
  rw [State.setTriple, State.x_setX_ne _ _ h2, State.x_setX_same, State.setX_params]

theorem State.x_setTriple_snd {j : Reg} (hj : j.val = rd.val + 2) :
    (s.setTriple rd r).x j = lowBits s.params.word (tc64 r.2.2) := by
  obtain rfl : j = regAbove rd 2 := Fin.ext (hj.trans (regAbove_val h).symm)
  rw [State.setTriple, State.x_setX_same, State.setX_params, State.setX_params]

theorem State.x_setTriple_ne {j : Reg} (hj : j.val < rd.val ∨ rd.val + 2 < j.val) : (s.setTriple rd r).x j = s.x j := by
  have h0 : j ≠ rd := by rintro rfl; omega
  have h1 : j ≠ regAbove rd 1 := ne_regAbove (by omega) (by omega)
  have h2 : j ≠ regAbove rd 2 := ne_regAbove h (by omega)
  rw [State.setTriple, State.x_setX_ne _ _ h2, State.x_setX_ne _ _ h1, State.x_setX_ne _ _ h0]

end

theorem exec_egcd_of_lt (hrd : rd.val ≤ 13) (hn : rd.val + 2 < s.params.nreg) :
    exec (.egcd rd rs1 rs2) s = .next (s.setTriple rd (egcd (s.x rs1).toNat (s.x rs2).toNat)).succeed :=
  if_neg (by omega)

theorem exec_modinv_of_zero (h : (s.x rs2).toNat = 0) : exec (.modinv rd rs1 rs2) s = .next (s.raise .zmod 0) :=
  if_pos h

theorem exec_modinv_of_not_coprime (h0 : (s.x rs2).toNat ≠ 0) (hg : Nat.gcd (s.x rs1).toNat (s.x rs2).toNat ≠ 1) :
    exec (.modinv rd rs1 rs2) s = .next (s.raise .notcoprime 0) :=
  (if_neg h0).trans (if_pos (by rwa [egcd_fst]))

theorem exec_modinv_of_coprime (h0 : (s.x rs2).toNat ≠ 0) (hg : Nat.gcd (s.x rs1).toNat (s.x rs2).toNat = 1) :
    exec (.modinv rd rs1 rs2) s =
      .next (s.setX rd (BitVec.ofNat maxWord (inverse (s.x rs1).toNat (s.x rs2).toNat))).succeed :=
  (if_neg h0).trans (if_neg (by rwa [egcd_fst, not_not]))

theorem exec_modmul_of_zero (h : (s.x rs3).toNat = 0) : exec (.modmul rd rs1 rs2 rs3) s = .next (s.raise .zmod 0) :=
  if_pos h

/-- MODMUL writes the remainder of the exact product (R136, R137). -/
theorem exec_modmul_of_ne_zero (hp : s.params.legal = true) (h : (s.x rs3).toNat ≠ 0) :
    exec (.modmul rd rs1 rs2 rs3) s =
      .next (s.setX rd (BitVec.ofNat maxWord ((s.x rs1).toNat * (s.x rs2).toNat % (s.x rs3).toNat))).succeed := by
  rw [← mulmod_eq (Params.legal_prod hp) (s.x_toNat_lt rs1) (s.x_toNat_lt rs2)]
  exact if_neg h

theorem exec_modexp_of_zero (h : (s.x rs3).toNat = 0) : exec (.modexp rd rs1 rs2 rs3) s = .next (s.raise .zmod 0) :=
  if_pos h

/-- MODEXP writes the remainder of the power (R138, R139). -/
theorem exec_modexp_of_ne_zero (hp : s.params.legal = true) (h : (s.x rs3).toNat ≠ 0) :
    exec (.modexp rd rs1 rs2 rs3) s =
      .next (s.setX rd (BitVec.ofNat maxWord ((s.x rs1).toNat ^ (s.x rs2).toNat % (s.x rs3).toNat))).succeed := by
  rw [← modexp_eq (Params.legal_prod hp) _ _ h (s.x_toNat_lt rs3).le]
  exact if_neg h

end Sys2Proof.Machine

namespace Sys2Proof.Claims

open Sys2Proof.Machine

/-- The iterative form applies the recursion's coefficients to the pairs it starts from (R134). -/
theorem egcdIterative_eq (k a b : Nat) (h : b < k) (s t : Int × Int) :
    egcdIterative k (a, b) s t =
      ((egcd a b).1, (egcd a b).2.1 * s.1 + (egcd a b).2.2 * s.2, (egcd a b).2.1 * t.1 + (egcd a b).2.2 * t.2) := by
  induction k generalizing a b s t with
  | zero => omega
  | succ k ih =>
    by_cases hb : b = 0
    · subst hb
      simp [egcdIterative]
    · have hlt : a % b < b := Nat.mod_lt _ (Nat.pos_of_ne_zero hb)
      have hstep : egcdIterative (k + 1) (a, b) s t =
          egcdIterative k (b, a % b) (s.2, s.1 - (a / b : Nat) * s.2) (t.2, t.1 - (a / b : Nat) * t.2) := by
        simp only [egcdIterative, if_neg hb, Nat.mod_eq_sub_div_mul]
      have hcoeff (x y q u v : Int) : x * v + y * (u - q * v) = y * u + (x - q * y) * v := by ring
      rw [hstep, ih b (a % b) (by omega), egcd_of_pos a hb, hcoeff, hcoeff]

/-- A command that writes one number, which fits the register, and succeeds. -/
theorem wroteRegister_setX {s : State} (rd : Reg) {n : Nat} (h : n < 2 ^ s.params.word) (h64 : n < 2 ^ maxWord) :
    WroteRegister s (s.setX rd (BitVec.ofNat maxWord n)).succeed rd n :=
  ⟨State.toNat_x_setX rd h h64, fun _ hj => State.x_setX_ne s _ hj, rfl⟩

/-- A number below a register's value, like a remainder modulo it, fits every register. -/
theorem wroteRegister_setX_of_lt {s : State} (rd : Reg) {m : Reg} {n : Nat} (h : n < (s.x m).toNat) :
    WroteRegister s (s.setX rd (BitVec.ofNat maxWord n)).succeed rd n :=
  wroteRegister_setX rd (h.trans (s.x_toNat_lt m)) (h.trans (s.x m).isLt)

end Sys2Proof.Claims
end

section
/-! The statements about the modular arithmetic unit (40_modarith.md). -/

namespace Sys2Proof.Claims

open Sys2Proof.Machine

/-- Settles O12: the bounded loop computes the greatest common divisor, which meets the recursion. -/
theorem gcdFunctionIsEuclid : Obligations.GcdFunctionIsEuclid := fun a b => ⟨gcd_rec a b, gcd_eq a b⟩

/-- Settles O13: the iterative form starts from the unit pairs, where it gives the recursion's own coefficients. -/
theorem egcdFunctionIsClassic : Obligations.EgcdFunctionIsClassic := by
  refine fun a b => ⟨?_, egcd_fst a b, egcd_bezout a b, ?_, fun ha hb => ?_⟩
  · split
    · next hb => rw [hb, egcd_zero]
    · next hb => exact egcd_of_pos a hb
  · simp [egcdIterative_eq]
  · obtain ⟨⟨hx, hx'⟩, hy, hy'⟩ := egcd_fits (w := 63) (by decide) ha hb
    exact ⟨hx, hx', hy, hy'⟩

/-- Settles O14: the greatest common divisor of two register values fits a register. -/
theorem gcdCommand : Obligations.GcdCommand := by
  refine fun s rd rs1 rs2 => ⟨decode_encode_of_row (i := .gcd rd rs1 rs2) nofun, _, rfl, ?_⟩
  rw [gcd_eq]
  exact wroteRegister_setX rd (natGcd_lt (s.x_toNat_lt rs1) (s.x_toNat_lt rs2)) (natGcd_lt (s.x rs1).isLt (s.x rs2).isLt)

/-- Settles O15: the three destinations are distinct registers; an illegal word is completed by the decoder's
rejection. -/
theorem egcdCommand : Obligations.EgcdCommand := by
  refine fun s rd rs1 rs2 => ⟨fun h => decode_encode_egcd h rs1 rs2, fun hp hn => ?_, fun resv rs3 es h hc hb hr he => ?_⟩
  · obtain ⟨-, -, -, ⟨-, hreg⟩, -, ⟨-, hword⟩, -⟩ := (Params.legal_iff _).1 hp
    have h16 : rd.val + 2 < 16 := by omega
    refine ⟨_, exec_egcd_of_lt (by omega) hn, ?_, fun j hj => ?_, fun j hj => ?_, fun j => s.x_setTriple_ne h16 _, rfl⟩
    · rw [State.x_succeed, s.x_setTriple_gcd h16, egcd_fst]
      exact toNat_lowBits_ofNat (natGcd_lt (s.x rs1).isLt (s.x rs2).isLt)
        (natGcd_lt (s.x_toNat_lt rs1) (s.x_toNat_lt rs2))
    · rw [State.x_succeed, s.x_setTriple_fst h16 _ hj, toNat_lowBits_tc64 hword]
    · rw [State.x_succeed, s.x_setTriple_snd h16 _ hj, toNat_lowBits_tc64 hword]
  · obtain ⟨e, hd⟩ := decode_egcd_error rs2 rs1 h
    rw [step_completes hb hr he, completeCurrent_error (s := { s with events := es }) (by rw [hc]; exact hd)]
    rfl

/-- Settles O16: the coefficients fit the two's complement of a register, so that its signed reading gives them back. -/
theorem egcdRegistersMeetBezout : Obligations.EgcdRegistersMeetBezout := by
  intro s t rd j k rs1 rs2 hj hk hp hn ht
  obtain ⟨-, hok, -⟩ := egcdCommand s rd rs1 rs2
  obtain ⟨u, hu, hg, hx, hy, -⟩ := hok hp (hk ▸ hn)
  cases hu.symm.trans ht
  obtain ⟨-, -, -, -, -, ⟨hword, -⟩, -⟩ := (Params.legal_iff _).1 hp
  obtain ⟨w, hw⟩ := Nat.exists_eq_add_of_le' (show 1 ≤ s.params.word by omega)
  obtain ⟨⟨hx1, hx2⟩, hy1, hy2⟩ := egcd_fits (by omega) (hw ▸ s.x_toNat_lt rs1) (hw ▸ s.x_toNat_lt rs2)
  rw [hx j hj, hy k hk, hg, hw, bmod_emod_of_fits hx1 hx2, bmod_emod_of_fits hy1 hy2, egcd_fst]
  exact ⟨egcd_bezout _ _, rfl⟩

/-- Settles O17: the inverse is below the modulus, and the two errors are the two ways to have none. -/
theorem modinvCommand : Obligations.ModinvCommand := fun _ rd rs1 rs2 =>
  ⟨decode_encode_of_row (i := .modinv rd rs1 rs2) nofun,
    fun h0 hg => ⟨_, _, exec_modinv_of_coprime h0 hg, wroteRegister_setX_of_lt rd (inverse_lt _ h0), inverse_lt _ h0,
      inverse_spec h0 hg⟩,
    exec_modinv_of_zero, exec_modinv_of_not_coprime⟩

/-- Settles O18: the result is the exact product's remainder, which is below the modulus. -/
theorem modmulCommand : Obligations.ModmulCommand := fun _ rd rs1 rs2 rs3 =>
  ⟨decode_encode_of_row (i := .modmul rd rs1 rs2 rs3) nofun,
    fun hp h0 => ⟨_, exec_modmul_of_ne_zero hp h0, wroteRegister_setX_of_lt rd (Nat.mod_lt _ (Nat.pos_of_ne_zero h0))⟩,
    exec_modmul_of_zero⟩

/-- Settles O19: the result is the power's remainder, which is below the modulus. -/
theorem modexpCommand : Obligations.ModexpCommand := fun _ rd rs1 rs2 rs3 =>
  ⟨decode_encode_of_row (i := .modexp rd rs1 rs2 rs3) nofun,
    fun hp h0 => ⟨_, exec_modexp_of_ne_zero hp h0, wroteRegister_setX_of_lt rd (Nat.mod_lt _ (Nat.pos_of_ne_zero h0))⟩,
    exec_modexp_of_zero⟩

/-- Settles O56: two register values have `WORD` bits each, and a legal build has twice as many for the product. -/
theorem wideProductIsExact : Obligations.WideProductIsExact := fun s i j m hp =>
  have hprod := Params.legal_prod hp
  ⟨wideProduct_eq hprod (s.x_toNat_lt i) (s.x_toNat_lt j), mulmod_eq hprod (s.x_toNat_lt i) (s.x_toNat_lt j) m⟩

end Sys2Proof.Claims
end

section
/-! The statement about the primality-test unit (41_primality.md), with an equation per case of its command. -/

namespace Sys2Proof.Machine

variable {s : State} {rd rs1 : Reg}

theorem exec_isprime_of_prime (h : Nat.Prime (s.x rs1).toNat) :
    exec (.isprime rd rs1) s = .next (s.setX rd (BitVec.ofNat maxWord 1)).succeed :=
  congrArg (fun v => Host.Outcome.next (s.setX rd v).succeed) (if_pos ((isPrime_iff _).2 h))

theorem exec_isprime_of_not_prime (h : ¬ Nat.Prime (s.x rs1).toNat) :
    exec (.isprime rd rs1) s = .next (s.setX rd (BitVec.ofNat maxWord 0)).succeed :=
  congrArg (fun v => Host.Outcome.next (s.setX rd v).succeed) (if_neg (mt (isPrime_iff _).1 h))

end Sys2Proof.Machine

namespace Sys2Proof.Claims

open Sys2Proof.Machine

/-- Settles O20: trial division decides primality, and a legal build's register has room for the answer's one bit. -/
theorem isprimeCommand : Obligations.IsprimeCommand := by
  refine fun s rd rs1 => ⟨decode_encode_of_row (i := .isprime rd rs1) nofun, fun hp => ?_⟩
  obtain ⟨-, -, -, -, -, ⟨hword, -⟩, -⟩ := (Params.legal_iff _).1 hp
  by_cases h : Nat.Prime (s.x rs1).toNat
  · have hfits : 1 < 2 ^ s.params.word := Nat.one_lt_two_pow (by omega)
    exact ⟨_, 1, exec_isprime_of_prime h, wroteRegister_setX rd hfits (by decide), fun _ => rfl, fun hn => absurd h hn⟩
  · exact ⟨_, 0, exec_isprime_of_not_prime h, wroteRegister_setX rd (Nat.two_pow_pos _) (by decide),
      fun hn => absurd hn h, fun _ => rfl⟩

end Sys2Proof.Claims
end

section
/-! Facts for the statements about the RSA cipher core (42_rsa_codec.md): the exact values of one element, an equation per
case of ENC and DEC, and why the private exponent undoes the public one. -/

namespace Sys2Proof

/-- A power that is 1 modulo `p-1` gives back its base modulo a prime `p`, multiples of `p` included. -/
theorem pow_modEq_self {p k : Nat} (hp : p.Prime) (hk : 0 < k) (h : p - 1 ∣ k - 1) (m : Nat) : m ^ k ≡ m [MOD p] := by
  rw [← Int.natCast_modEq_iff]
  simpa using Int.ModEq.pow_eq_pow hp h hk one_pos m

/-- RSA's identity for every residue, coprime to the modulus or not: it holds modulo each prime (R186). -/
theorem pow_mod_mul_primes {p q k m : Nat} (hp : p.Prime) (hq : q.Prime) (hpq : p ≠ q)
    (hk : k % ((p - 1) * (q - 1)) = 1 % ((p - 1) * (q - 1))) (hm : m < p * q) : m ^ k % (p * q) = m := by
  have hdvd : (p - 1) * (q - 1) ∣ k - 1 := Nat.dvd_of_mod_eq_zero (Nat.sub_mod_eq_zero_of_mod_eq hk)
  have hpos : 0 < k := by
    rw [Nat.pos_iff_ne_zero]
    rintro rfl
    have hone : (p - 1) * (q - 1) = 1 := Nat.dvd_one.1 (Nat.dvd_of_mod_eq_zero (by rw [← hk, Nat.zero_mod]))
    obtain ⟨hp1, hq1⟩ := mul_eq_one.1 hone
    omega
  have hmod : m ^ k ≡ m [MOD p * q] :=
    (Nat.modEq_and_modEq_iff_modEq_mul ((Nat.coprime_primes hp hq).2 hpq)).1
      ⟨pow_modEq_self hp hpos ((Nat.dvd_mul_right ..).trans hdvd) m,
        pow_modEq_self hq hpos ((Nat.dvd_mul_left ..).trans hdvd) m⟩
  exact Nat.mod_eq_of_modEq hmod hm

end Sys2Proof

namespace Sys2Proof.Machine

variable {s : State} {rs1 rs2 rs3 : Reg}

/-! ### One element -/

/-- The entry that ENC writes is the exact power, which fits `WORD` bits (R182, R138). -/
theorem State.toNat_encryptedAt (hp : s.params.legal = true) (hn : (s.x rs2).toNat ≠ 0) (e i : Nat) :
    (lowBits s.params.word (s.encryptedAt e (s.x rs2).toNat i)).toNat = (s.txt i).toNat ^ e % (s.x rs2).toNat := by
  have hlt : (s.txt i).toNat ^ e % (s.x rs2).toNat < (s.x rs2).toNat := Nat.mod_lt _ (Nat.pos_of_ne_zero hn)
  rw [State.encryptedAt, modexp_eq (Params.legal_prod hp) _ _ hn (s.x_toNat_lt rs2).le]
  exact toNat_lowBits_ofNat (hlt.trans (s.x rs2).isLt) (hlt.trans (s.x_toNat_lt rs2))

/-- The value that DEC cuts to a byte is the exact power (R184, R138). -/
theorem State.decryptedAt_eq (hp : s.params.legal = true) (hn : (s.x rs2).toNat ≠ 0) (d i : Nat) :
    s.decryptedAt d (s.x rs2).toNat i = (s.ct i).toNat ^ d % (s.x rs2).toNat :=
  modexp_eq (Params.legal_prod hp) _ _ hn (s.x_toNat_lt rs2).le

/-! ### The commands, an equation per case -/

theorem State.not_lenOutOfBounds {len : Nat} (ht : len ≤ s.params.txtSize) (hc : len ≤ s.params.ctSize) :
    ¬ s.lenOutOfBounds len = true := by
  rw [State.lenOutOfBounds_iff]
  omega

section

variable (h : s.params.txtSize < (s.x rs3).toNat ∨ s.params.ctSize < (s.x rs3).toNat)
include h

theorem exec_enc_of_bounds : exec (.enc rs1 rs2 rs3) s = .next (s.raise .bounds 0) :=
  if_pos ((s.lenOutOfBounds_iff _).2 h)

theorem exec_dec_of_bounds : exec (.dec rs1 rs2 rs3) s = .next (s.raise .bounds 0) :=
  if_pos ((s.lenOutOfBounds_iff _).2 h)

end

section

variable (ht : (s.x rs3).toNat ≤ s.params.txtSize) (hc : (s.x rs3).toNat ≤ s.params.ctSize)
include ht hc

theorem exec_enc_of_zero (hn : (s.x rs2).toNat = 0) : exec (.enc rs1 rs2 rs3) s = .next (s.raise .zmod 0) :=
  (if_neg (State.not_lenOutOfBounds ht hc)).trans (if_pos hn)

theorem exec_dec_of_zero (hn : (s.x rs2).toNat = 0) : exec (.dec rs1 rs2 rs3) s = .next (s.raise .zmod 0) :=
  (if_neg (State.not_lenOutOfBounds ht hc)).trans (if_pos hn)

/-- The first byte out of range stops ENC, with its index as `info` (R182, R263). -/
theorem exec_enc_of_range (hn : (s.x rs2).toNat ≠ 0) {i : Nat} (hi : i < (s.x rs3).toNat)
    (hbad : (s.x rs2).toNat ≤ (s.txt i).toNat) (hgood : ∀ j < i, (s.txt j).toNat < (s.x rs2).toNat) :
    exec (.enc rs1 rs2 rs3) s = .next (s.raise .range (BitVec.ofNat 32 i)) := by
  refine (if_neg (State.not_lenOutOfBounds ht hc)).trans ((if_neg hn).trans ?_)
  rw [(s.firstOutOfRange_eq_some_iff ..).2 ⟨hi, hbad, hgood⟩]

/-- With every byte in range ENC writes the prefix (R182). -/
theorem exec_enc_of_lt (hn : (s.x rs2).toNat ≠ 0) (h : ∀ i < (s.x rs3).toNat, (s.txt i).toNat < (s.x rs2).toNat) :
    exec (.enc rs1 rs2 rs3) s =
      .next ({ s with mem := s.encryptPrefix (s.x rs1).toNat (s.x rs2).toNat (s.x rs3).toNat } : State).succeed := by
  refine (if_neg (State.not_lenOutOfBounds ht hc)).trans ((if_neg hn).trans ?_)
  rw [(s.firstOutOfRange_eq_none_iff ..).2 h]

/-- Past its checks DEC writes the prefix and sets the flag by an `or` (R184, R185). -/
theorem exec_dec_of_ne_zero (hn : (s.x rs2).toNat ≠ 0) :
    exec (.dec rs1 rs2 rs3) s = .next ({ s with
      mem := s.decryptPrefix (s.x rs1).toNat (s.x rs2).toNat (s.x rs3).toNat,
      trunc := s.trunc || s.decryptsWide (s.x rs1).toNat (s.x rs2).toNat (s.x rs3).toNat } : State).succeed :=
  (if_neg (State.not_lenOutOfBounds ht hc)).trans (if_neg hn)

end

end Sys2Proof.Machine
end

section
/-! The statements about the RSA cipher core (42_rsa_codec.md). -/

namespace Sys2Proof.Claims

open Sys2Proof.Machine

/-- Settles O21: each entry below the length holds the exact power, and the errors are the checks in their order. -/
theorem encCommand : Obligations.EncCommand := by
  rintro s rs1 rs2 rs3 _ rfl
  refine ⟨decode_encode_of_row (i := .enc rs1 rs2 rs3) nofun, fun hp ht hc hn hlt => ?_, exec_enc_of_bounds,
    exec_enc_of_zero, fun i hi ht hc hn => exec_enc_of_range ht hc hn hi⟩
  refine ⟨_, exec_enc_of_lt ht hc hn hlt, fun i hi => ?_, fun a => State.byteAt_fillCt_outside s _ _, rfl⟩
  rw [← State.toNat_encryptedAt hp hn]
  exact congrArg BitVec.toNat (State.ct_fillCt s _ _ hi)

/-- Settles O22: each byte below the length is the exact power's low byte, and the flag is an `or`. -/
theorem decCommand : Obligations.DecCommand := by
  rintro s rs1 rs2 rs3 _ rfl
  refine ⟨decode_encode_of_row (i := .dec rs1 rs2 rs3) nofun, fun hp ht hc hn => ?_, exec_dec_of_bounds,
    exec_dec_of_zero⟩
  obtain ⟨-, ⟨-, htxt⟩, -⟩ := (Params.legal_iff _).1 hp
  refine ⟨_, exec_dec_of_ne_zero ht hc hn, fun i hi => ?_, ?_, fun a => State.byteAt_fillTxt_outside s _ _, rfl⟩
  · rw [← State.decryptedAt_eq hp hn]
    exact (congrArg BitVec.toNat (State.txt_fillTxt s _ (ht.trans htxt) hi)).trans (BitVec.toNat_ofNat ..)
  · exact (Bool.or_eq_true ..).to_iff.trans (or_congr_right (State.decryptsWide_iff_pow hp hn _ _))

/-- Settles O23: DEC's exact power of ENC's exact power is the byte itself, by RSA's identity, and a byte is not wide. -/
theorem decryptAfterEncryptRestoresText : Obligations.DecryptAfterEncryptRestoresText := by
  intro s t u v rs1 rs2 rs3 ks1 ks2 ks3 p q e d len hp hq hpq hed hlegal htxt hct he hn hlen hlt henc hpar hd hn' hlen'
    hsame hdec
  have hpos : p * q ≠ 0 := Nat.mul_ne_zero hp.ne_zero hq.ne_zero
  obtain ⟨-, hencOk, -⟩ := encCommand s rs1 rs2 rs3 len hlen.symm
  obtain ⟨t', ht', hentries, -⟩ := hencOk hlegal htxt hct (by rwa [hn]) (by rwa [hn])
  cases ht'.symm.trans henc
  obtain ⟨-, hdecOk, -⟩ := decCommand u ks1 ks2 ks3 len hlen'.symm
  obtain ⟨v', hv', hbytes, htrunc, -, hv⟩ := hdecOk (hpar ▸ hlegal) (hpar ▸ htxt) (hpar ▸ hct) (by rwa [hn'])
  cases hv'.symm.trans hdec
  have hvalue : ∀ i < len, (u.ct i).toNat ^ (u.x ks1).toNat % (u.x ks2).toNat = (s.txt i).toNat := by
    intro i hi
    rw [hsame i hi, hentries i hi, he, hn, hd, hn', ← Nat.pow_mod, ← pow_mul]
    exact pow_mod_mul_primes hp hq hpq hed (hlt i hi)
  refine ⟨fun i hi => BitVec.eq_of_toNat_eq ?_, Bool.eq_iff_iff.2 (htrunc.trans (or_iff_left ?_)), by rw [hv]⟩
  · rw [hbytes i hi, hvalue i hi, Nat.mod_eq_of_lt (s.txt i).isLt]
  · rintro ⟨i, hi, hwide⟩
    rw [hvalue i hi] at hwide
    exact absurd (s.txt i).isLt (by omega)

end Sys2Proof.Claims
end

section
/-! Facts for the statements about the SHA-256 unit (43_sha256.md): the rotation, the final addition, the
bytes of the digest, the one legal word of SHAINIT, and an equation per case of SHABLK. -/

namespace Sys2Proof.Machine

/-! ### The functions -/

/-- In this hardware's words the rotation is that of 32 bits (R9, R203). -/
theorem rotr_eq_rotateRight (x : Word32) {k : Nat} (hk : k < 32) : rotr 32 x k = x.rotateRight k := by
  rw [rotr, lowBits_of_le le_rfl, BitVec.rotateRight_def, Nat.mod_eq_of_lt hk]

/-- The compression adds the working variables after 64 rounds to H (R206). -/
theorem compress_eq (n : Nat) (H : Vector Word32 8) {w : List Word32} (hw : w.length = 64) :
    compress n H w = addWorking n H (workingAfter n (workingOf H) w 64) := by
  rw [workingAfter_all _ _ hw, compress]

/-! ### The digest -/

/-- A word as four bytes, big endian (R207). -/
def bigEndianBytes (w : Word32) : List Byte :=
  [w.extractLsb' 24 8, w.extractLsb' 16 8, w.extractLsb' 8 8, w.extractLsb' 0 8]

theorem digest_eq (H : Vector Word32 8) : digest H = H.toList.flatMap bigEndianBytes := rfl

theorem bigEndianBytes_length (w : Word32) : (bigEndianBytes w).length = 4 := rfl

theorem bigEndianBytes_getElem? (w : Word32) (j : Fin 4) :
    (bigEndianBytes w)[j.val]? = some (w.extractLsb' (24 - 8 * j.val) 8) := by
  match j with
  | 0 | 1 | 2 | 3 => rfl

/-- Byte `j` of word `i` stands at place `4i + j`. -/
theorem flatMap_bigEndianBytes_getElem? (l : List Word32) (i : Nat) (j : Fin 4) :
    (l.flatMap bigEndianBytes)[4 * i + j.val]? = l[i]?.map fun w => w.extractLsb' (24 - 8 * j.val) 8 := by
  induction l generalizing i with
  | nil => rfl
  | cons w l ih =>
    rw [List.flatMap_cons]
    cases i with
    | zero =>
      rw [Nat.mul_zero, Nat.zero_add, List.getElem?_append_left j.isLt, bigEndianBytes_getElem?]
      rfl
    | succ i =>
      rw [List.getElem?_append_right (by rw [bigEndianBytes_length]; omega), bigEndianBytes_length,
        show 4 * (i + 1) + j.val - 4 = 4 * i + j.val by omega, ih, List.getElem?_cons_succ]

theorem digest_length (H : Vector Word32 8) : (digest H).length = 32 := by
  simp [digest_eq, List.length_flatMap, bigEndianBytes_length]

/-! ### The commands, an equation per case -/

/-- The bytes of TXT from `x[rs1]` on: SHABLK's block (R212). -/
def State.blockAt (s : State) (rs1 : Reg) (k : Nat) : Byte := s.txt ((s.x rs1).toNat + k)

variable {s : State} {rs1 : Reg}

theorem exec_shablk_of_bounds (h : s.params.txtSize < (s.x rs1).toNat + 64) :
    exec (.shablk rs1) s = .next (s.raise .bounds 0) :=
  if_pos ((s.blockOutOfBounds_iff _).2 h)

/-- With its block inside TXT, SHABLK compresses it into H (R212). -/
theorem exec_shablk_of_le (h : (s.x rs1).toNat + 64 ≤ s.params.txtSize) :
    exec (.shablk rs1) s = .next ({ s with
      hash := compress s.params.shaWord s.hashValue
        (schedule s.params.shaWord (s.blockAt rs1)) } : State).succeed :=
  if_neg (by rw [State.blockOutOfBounds_iff]; omega)

end Sys2Proof.Machine

namespace Sys2Proof

/-- 0x00000020 is the only word of SHAINIT's opcode that decodes (R211, R104). -/
theorem decode_error_of_shainit_opcode {nreg : Nat} {w : Word32} (hop : opField w = Mnemonic.SHAINIT.opcode)
    (hw : w ≠ encode .shainit) : ∃ e, decode nreg w = .error e := by
  rw [decode_eq_error_iff]
  rintro ⟨m, hm, -⟩
  obtain rfl : m = .SHAINIT := Mnemonic.opcode_inj (((matchesWord_iff m w).1 hm).1.symm.trans hop)
  exact hw (encode_instr hm).symm

end Sys2Proof
end

section
/-! The statements about the SHA-256 unit (43_sha256.md). -/

namespace Sys2Proof.Claims

open Sys2Proof.Machine

/-- Settles O24: each rotation of R203 is by fewer than 32 places. -/
theorem shaFunctionsAreR203 : Obligations.ShaFunctionsAreR203 := by
  refine fun x _ _ => ⟨rfl, rfl, ?_, ?_, ?_, ?_⟩ <;>
    simp (disch := decide) only [bigSigma0, bigSigma1, smallSigma0, smallSigma1, rotr_eq_rotateRight]

/-- Settles O25: the row of SHAINIT uses no field, so its opcode has one legal word. -/
theorem shainitCommand : Obligations.ShainitCommand := fun _ =>
  ⟨decode_encode_of_row (i := .shainit) nofun, fun _ hop hw => decode_error_of_shainit_opcode hop hw,
    _, rfl, rfl, fun _ => rfl, rfl⟩

/-- Settles O26: the schedule and the working variables after each round meet their recurrences, and H is the final
addition. -/
theorem shablkCommand : Obligations.ShablkCommand := by
  rintro s rs1 _ _ rfl rfl
  refine ⟨decode_encode_of_row (i := .shablk rs1) nofun, rfl, fun hin => ?_, exec_shablk_of_bounds⟩
  have hlen := schedule_length s.params.shaWord (s.blockAt rs1)
  refine ⟨_, fun k => (schedule s.params.shaWord (s.blockAt rs1)).getD k 0,
    workingAfter s.params.shaWord (workingOf s.hashValue) (schedule s.params.shaWord (s.blockAt rs1)),
    exec_shablk_of_le hin, ?_, ?_, ?_, ?_, ?_, ?_, ?_⟩
  · exact fun k hk => schedule_first _ _ hk
  · exact fun k => schedule_recurrence _ _
  · exact workingAfter_zero ..
  · exact fun k => workingAfter_succ _ _ hlen
  · exact compress_eq _ _ hlen
  · exact fun _ => rfl
  · rfl

/-- Settles O27: H holds whole words of the build, so the compression starts from H itself and ends the hash of one
more block. -/
theorem shablkHashesOneMoreBlock : Obligations.ShablkHashesOneMoreBlock := by
  intro s t rs1 p j hlen hin hhash htxt ht
  cases (exec_shablk_of_le hin).symm.trans ht
  have hvalue : s.hashValue = s.hash := by rw [State.hashValue, hhash, fitHash_hashBlocks]
  have hblock : schedule s.params.shaWord (s.blockAt rs1) = schedule s.params.shaWord fun k => p.getD (64 * j + k) 0 :=
    schedule_congr _ htxt
  rw [hashBlocks_take_succ _ _ _ hlen, ← hhash, ← hvalue, ← hblock]
  rfl

/-- Settles O29: place `4i + j` of the digest is byte `j` of word `i`. -/
theorem digestIsBigEndian : Obligations.DigestIsBigEndian := by
  refine fun H => ⟨digest_length H, fun i j => ?_⟩
  rw [digest_eq, flatMap_bigEndianBytes_getElem?, Vector.getElem?_toList, Vector.getElem?_eq_getElem i.isLt]
  rfl

end Sys2Proof.Claims
end

section
/-! The parts of a padded message (44_host_procedures.md R240). -/

namespace Sys2Proof.Machine

theorem bigEndian64_length (v : Word) : (bigEndian64 v).length = 8 := rfl

/-- One more byte below the digits above bit `k + 8` gives those above bit `k`. -/
theorem toNat_extractLsb'_byte (v : Word) (k : Nat) :
    256 * (v.toNat / 2 ^ (k + 8)) + (v.extractLsb' k 8).toNat = v.toNat / 2 ^ k := by
  rw [BitVec.extractLsb'_toNat, Nat.shiftRight_eq_div_pow, pow_add, ← Nat.div_div_eq_div_mul]
  exact Nat.div_add_mod _ 256

/-- The eight bytes of a length are its digits to the base 256, the most significant first (R240). -/
theorem foldl_bigEndian64 (v : Word) : (bigEndian64 v).foldl (fun n b => 256 * n + b.toNat) 0 = v.toNat := by
  have htop : 256 * 0 + (v.extractLsb' 56 8).toNat = v.toNat / 2 ^ 56 := by
    rw [← toNat_extractLsb'_byte v 56, Nat.div_eq_of_lt v.isLt]
  have hlast : 256 * (v.toNat / 2 ^ 8) + (v.extractLsb' 0 8).toNat = v.toNat := by
    simpa using toNat_extractLsb'_byte v 0
  simp only [bigEndian64, List.foldl_cons, List.foldl_nil]
  rw [htop, toNat_extractLsb'_byte v 48, toNat_extractLsb'_byte v 40, toNat_extractLsb'_byte v 32,
    toNat_extractLsb'_byte v 24, toNat_extractLsb'_byte v 16, toNat_extractLsb'_byte v 8, hlast]

theorem padMessage_length (m : List Byte) : (padMessage m).length = m.length + 1 + padZeros m.length + 8 := by
  simp only [padMessage, List.length_append, List.length_cons, List.length_nil, List.length_replicate,
    bigEndian64_length]

theorem padZeros_lt (L : Nat) : padZeros L < 64 := Nat.mod_lt _ (by decide)

/-- The message and 0x80 come first. -/
theorem padMessage_take (m : List Byte) : (padMessage m).take (m.length + 1) = m ++ [0x80#8] := by
  rw [padMessage, List.append_assoc]
  exact List.take_left' (by simp)

/-- The length comes last. -/
theorem padMessage_drop (m : List Byte) :
    (padMessage m).drop (m.length + 1 + padZeros m.length) = bigEndian64 (BitVec.ofNat 64 (8 * m.length)) :=
  List.drop_left' (by simp; omega)

/-- Between 0x80 and the length stand zero bytes. -/
theorem padMessage_zero (m : List Byte) {k : Nat} (hlo : m.length + 1 ≤ k)
    (hhi : k < m.length + 1 + padZeros m.length) : (padMessage m)[k]? = some 0#8 := by
  rw [padMessage, List.getElem?_append_left (by simp; omega), List.getElem?_append_right (by simpa using hlo),
    List.getElem?_replicate_of_lt (by simp; omega)]

end Sys2Proof.Machine
end

section
/-! The statement about the padded message (44_host_procedures.md R240). -/

namespace Sys2Proof.Claims

open Sys2Proof.Machine

/-- Settles O28: the padding is 0x80, fewer than 64 zero bytes and the length. -/
theorem paddingIsR240 : Obligations.PaddingIsR240 := by
  intro m
  have hlen := padMessage_length m
  have hzeros := padZeros_lt m.length
  refine ⟨padMessage_length_mod m, by omega, padMessage_take m, fun k hlo hhi => padMessage_zero m hlo (by omega),
    fun hm => ?_⟩
  rw [hlen, Nat.add_sub_cancel, padMessage_drop, foldl_bigEndian64, BitVec.toNat_ofNat]
  exact Nat.mod_eq_of_lt (show 8 * m.length < 2 ^ 64 by omega)

end Sys2Proof.Claims
end

section
/-! What the resampling loops give from the random source alone (44_host_procedures.md R242, R243, R245). -/

namespace Sys2Proof.Machine

/-- What a part of key setup gives from its candidates alone: a value and the candidates it leaves, or nothing where it
reports KeyGenerationFailure. -/
abbrev Drawing (α : Type) := List Word → Option (α × List Word)

/-- One attempt with a candidate (R242, R243). -/
def attemptFrom (passes : Word → Prop) [DecidablePred passes] : Drawing (Option Word)
  | [] => none
  | c :: rest => some (if passes c then some c else none, rest)

/-- At most `cap` attempts (R245). -/
def resampleFrom (attempt : Drawing (Option Word)) : (cap : Nat) → Drawing Word
  | 0, _ => none
  | cap + 1, source => (attempt source).bind fun d =>
    match d.1 with
    | some c => some (c, d.2)
    | none => resampleFrom attempt cap d.2

/-- One attempt with a drawn prime: it passes if it is not `p` (R243). -/
def otherFrom (p : Word) (draw : Drawing Word) : Drawing (Option Word) := fun source =>
  (draw source).map fun d => (if d.1 = p then none else some d.1, d.2)

section

variable {attempt : Drawing (Option Word)} {cap : Nat} {source rest : List Word} {c : Word}

theorem resampleFrom_of_none (h : attempt source = none) : resampleFrom attempt cap source = none := by
  cases cap <;> simp [resampleFrom, h]

theorem resampleFrom_of_pass (h : attempt source = some (some c, rest)) :
    resampleFrom attempt (cap + 1) source = some (c, rest) := by
  simp [resampleFrom, h]

theorem resampleFrom_of_skip (h : attempt source = some (none, rest)) :
    resampleFrom attempt (cap + 1) source = resampleFrom attempt cap rest := by
  simp [resampleFrom, h]

/-- A loop gives what its first passing attempt gives, after fewer than `cap` attempts that did not pass. -/
theorem resampleFrom_eq_some_iff :
    resampleFrom attempt cap source = some (c, rest) ↔
      ∃ (n : Nat) (left : Nat → List Word), n < cap ∧ left 0 = source ∧
        (∀ i < n, attempt (left i) = some (none, left (i + 1))) ∧ attempt (left n) = some (some c, rest) := by
  induction cap generalizing source with
  | zero => simp [resampleFrom]
  | succ cap ih =>
    constructor
    · intro h
      match ha : attempt source with
      | none => simp [resampleFrom_of_none ha] at h
      | some (some d, rest') =>
        rw [resampleFrom_of_pass ha] at h
        cases h
        exact ⟨0, fun _ => source, by omega, rfl, by simp, ha⟩
      | some (none, rest') =>
        rw [resampleFrom_of_skip ha, ih] at h
        obtain ⟨n, left, hn, h0, hskip, hpass⟩ := h
        refine ⟨n + 1, fun i => Nat.casesOn i source left, by omega, rfl, ?_, hpass⟩
        rintro (_ | i) hi
        · simpa [h0] using ha
        · exact hskip i (by omega)
    · rintro ⟨n, left, hn, rfl, hskip, hpass⟩
      cases n with
      | zero => exact resampleFrom_of_pass hpass
      | succ n =>
        rw [resampleFrom_of_skip (hskip 0 (by omega)), ih]
        exact ⟨n, fun i => left (i + 1), by omega, rfl, fun i hi => hskip (i + 1) (by omega), hpass⟩

end

section

variable {passes : Word → Prop} [DecidablePred passes] {cap : Nat} {source rest : List Word} {c x : Word}

theorem resampleFrom_attemptFrom_nil : resampleFrom (attemptFrom passes) cap [] = none := resampleFrom_of_none rfl

theorem resampleFrom_attemptFrom_pass (h : passes x) :
    resampleFrom (attemptFrom passes) (cap + 1) (x :: source) = some (x, source) :=
  resampleFrom_of_pass (by simp [attemptFrom, h])

theorem resampleFrom_attemptFrom_skip (h : ¬ passes x) :
    resampleFrom (attemptFrom passes) (cap + 1) (x :: source) = resampleFrom (attemptFrom passes) cap source :=
  resampleFrom_of_skip (by simp [attemptFrom, h])

/-- The loop gives the first candidate that passes, if it is among the first `cap`. -/
theorem resampleFrom_attemptFrom_eq_some_iff :
    resampleFrom (attemptFrom passes) cap source = some (c, rest) ↔
      passes c ∧ ∃ skipped, source = skipped ++ c :: rest ∧ skipped.length < cap ∧ ∀ x ∈ skipped, ¬ passes x := by
  induction cap generalizing source with
  | zero => simp [resampleFrom]
  | succ cap ih =>
    cases source with
    | nil => simp [resampleFrom_attemptFrom_nil]
    | cons x source =>
      by_cases hx : passes x
      · rw [resampleFrom_attemptFrom_pass hx]
        constructor
        · rintro ⟨⟩
          exact ⟨hx, [], rfl, by simp, by simp⟩
        · rintro ⟨-, skipped, hsource, -, hskip⟩
          cases skipped with
          | nil => cases hsource; rfl
          | cons y skipped => cases hsource; exact absurd hx (hskip x (by simp))
      · rw [resampleFrom_attemptFrom_skip hx, ih]
        refine and_congr_right fun hc => ⟨?_, ?_⟩
        · rintro ⟨skipped, rfl, hlen, hskip⟩
          exact ⟨x :: skipped, rfl, by simpa using hlen, by simpa [hx] using hskip⟩
        · rintro ⟨skipped, hsource, hlen, hskip⟩
          cases skipped with
          | nil => cases hsource; exact absurd hc hx
          | cons y skipped =>
            cases hsource
            exact ⟨skipped, rfl, by simpa using hlen, fun z hz => hskip z (by simp [hz])⟩

/-- The loop gives nothing exactly when none of the first `cap` candidates passes. -/
theorem resampleFrom_attemptFrom_eq_none_iff :
    resampleFrom (attemptFrom passes) cap source = none ↔ ∀ x ∈ source.take cap, ¬ passes x := by
  induction cap generalizing source with
  | zero => simp [resampleFrom]
  | succ cap ih =>
    cases source with
    | nil => simp [resampleFrom_attemptFrom_nil]
    | cons x source =>
      by_cases hx : passes x
      · simp [resampleFrom_attemptFrom_pass hx, hx]
      · simp [resampleFrom_attemptFrom_skip hx, ih, hx]

end

section

variable {p c : Word} {draw : Drawing Word} {source rest : List Word}

theorem otherFrom_eq_skip_iff : otherFrom p draw source = some (none, rest) ↔ draw source = some (p, rest) := by
  unfold otherFrom
  rcases draw source with - | ⟨d, left⟩
  · simp
  · by_cases hd : d = p <;> simp [hd]

theorem otherFrom_eq_pass_iff :
    otherFrom p draw source = some (some c, rest) ↔ c ≠ p ∧ draw source = some (c, rest) := by
  unfold otherFrom
  rcases draw source with - | ⟨d, left⟩
  · simp
  · by_cases hd : d = p
    · subst hd
      simp +contextual [eq_comm]
    · simp only [Option.map_some, if_neg hd, Option.some.injEq, Prod.mk.injEq]
      exact ⟨fun ⟨hc, hrest⟩ => ⟨hc ▸ hd, hc, hrest⟩, And.right⟩

/-- The loop gives a drawn value other than `p`, after fewer than `cap` drawn values that were `p`. -/
theorem resampleFrom_otherFrom_eq_some_iff {cap : Nat} :
    resampleFrom (otherFrom p draw) cap source = some (c, rest) ↔ c ≠ p ∧
      ∃ (n : Nat) (left : Nat → List Word), n < cap ∧ left 0 = source ∧
        (∀ i < n, draw (left i) = some (p, left (i + 1))) ∧ draw (left n) = some (c, rest) := by
  simp only [resampleFrom_eq_some_iff, otherFrom_eq_skip_iff, otherFrom_eq_pass_iff]
  constructor
  · rintro ⟨n, left, hn, h0, hskip, hne, hlast⟩
    exact ⟨hne, n, left, hn, h0, hskip, hlast⟩
  · rintro ⟨hne, n, left, hn, h0, hskip, hlast⟩
    exact ⟨n, left, hn, h0, hskip, hne, hlast⟩

end

end Sys2Proof.Machine
end

section
/-! Key setup on the block: each part gives what its candidates alone decide, and leaves an idle block
(44_host_procedures.md R242 to R245). -/

namespace Sys2Proof.Machine

/-! ### The block between two commands -/

/-- A legal plan for an idle block of a legal build. -/
structure KeyReady (plan : KeyPlan) (s : State) : Prop where
  build : s.params.legal = true
  registers : plan.legal s.params = true
  idle : s.busy = false
  running : s.rst = false

/-- A block that key setup can leave of `s` between two commands: idle, and within the frame. -/
structure KeyReached (plan : KeyPlan) (s t : State) : Prop where
  frame : KeyFrame plan s t
  idle : t.busy = false

theorem KeyFrame.trans {plan : KeyPlan} {s t u : State} (h : KeyFrame plan s t) (k : KeyFrame plan t u) :
    KeyFrame plan s u where
  frame := by rw [k.frame, h.frame]
  registers i h1 h2 h3 := (k.registers i h1 h2 h3).trans (h.registers i h1 h2 h3)

namespace KeyReached

variable {plan : KeyPlan} {s t u : State}

theorem refl (hs : KeyReady plan s) : KeyReached plan s s := ⟨.refl plan s, hs.idle⟩

theorem ready (h : KeyReached plan s t) (hs : KeyReady plan s) : KeyReady plan t where
  build := h.frame.params ▸ hs.build
  registers := h.frame.params ▸ hs.registers
  idle := h.idle
  running := h.frame.rst.trans hs.running

theorem next (h : KeyReached plan s t) (hf : KeyFrame plan t u) (hb : u.busy = false) : KeyReached plan s u :=
  ⟨h.frame.trans hf, hb⟩

/-- H, TXT and CT are as before. -/
theorem hash (h : KeyReached plan s t) : t.hash = s.hash := by rw [h.frame.frame]

theorem byteAt (h : KeyReached plan s t) (a : Nat) : t.byteAt a = s.byteAt a := by
  rw [h.frame.frame]
  exact State.byteAt_congr rfl rfl rfl a

end KeyReached

/-! ### Parts that depend on their candidates alone -/

/-- On every block that key setup can leave of `s`, a part does what `draw` says of its candidates. -/
structure Follows {α : Type} (plan : KeyPlan) (s : State) (part : KeyProc α) (draw : Drawing α) : Prop where
  gives : ∀ {t source a rest}, KeyReached plan s t → draw source = some (a, rest) →
    ∃ u, KeyReached plan s u ∧ part ⟨t, source⟩ = (.ok a, ⟨u, rest⟩)
  fails : ∀ {t source}, KeyReached plan s t → draw source = none →
    ∃ k, KeyReached plan s k.block ∧ part ⟨t, source⟩ = (.error .keyGenerationFailure, k)

/-- On every block that key setup can leave of `s`, a part leaves another one; it reports no ArithmeticError, and a
value that it gives meets `post`. -/
def Gives {α : Type} (plan : KeyPlan) (s : State) (part : KeyProc α) (post : α → Prop) : Prop :=
  ∀ k, KeyReached plan s k.block → KeyReached plan s (part k).2.block ∧
    (part k).1 ≠ .error .arithmeticError ∧ ∀ a, (part k).1 = .ok a → post a

section

variable {α β : Type} {plan : KeyPlan} {s t : State} {part : KeyProc α} {draw : Drawing α} {source rest : List Word}
  {a : α}

/-- A part gives what `draw` says and nothing else. -/
theorem Follows.ok_iff (h : Follows plan s part draw) (ht : KeyReached plan s t) :
    (∃ u, part ⟨t, source⟩ = (.ok a, ⟨u, rest⟩)) ↔ draw source = some (a, rest) := by
  constructor
  · rintro ⟨u, hu⟩
    match hd : draw source with
    | none =>
      obtain ⟨k, -, hk⟩ := h.fails ht hd
      simp [hk] at hu
    | some (b, left) =>
      obtain ⟨v, -, hv⟩ := h.gives ht hd
      simp only [hv, Prod.mk.injEq, Except.ok.injEq, KeySetup.mk.injEq] at hu
      obtain ⟨rfl, -, rfl⟩ := hu
      rfl
  · intro hd
    obtain ⟨u, -, hu⟩ := h.gives ht hd
    exact ⟨u, hu⟩

/-- A part reports KeyGenerationFailure, and that exactly where `draw` has nothing. -/
theorem Follows.error_iff (h : Follows plan s part draw) (ht : KeyReached plan s t) {x : KeySetupError} :
    (part ⟨t, source⟩).1 = .error x ↔ x = .keyGenerationFailure ∧ draw source = none := by
  match hd : draw source with
  | none =>
    obtain ⟨k, -, hk⟩ := h.fails ht hd
    simp [hk, eq_comm]
  | some (b, left) =>
    obtain ⟨v, -, hv⟩ := h.gives ht hd
    simp [hv]

theorem Follows.toGives (h : Follows plan s part draw) {post : α → Prop}
    (hpost : ∀ source a rest, draw source = some (a, rest) → post a) : Gives plan s part post := by
  rintro ⟨t, source⟩ ht
  match hd : draw source with
  | none =>
    obtain ⟨k, hk, hrun⟩ := h.fails ht hd
    rw [hrun]
    exact ⟨hk, by simp, by simp⟩
  | some (b, left) =>
    obtain ⟨u, hu, hrun⟩ := h.gives ht hd
    rw [hrun]
    refine ⟨hu, by simp, ?_⟩
    rintro _ ⟨⟩
    exact hpost _ _ _ hd

/-- A part followed by one that relies on what the first gives. -/
theorem Gives.andThen {pre : α → Prop} {post : β → Prop} {next : α → KeyProc β} (h : Gives plan s part pre)
    (hnext : ∀ a, pre a → Gives plan s (next a) post) : Gives plan s (part.andThen next) post := by
  intro k hk
  obtain ⟨hk', herr, hpre⟩ := h k hk
  unfold KeyProc.andThen
  split
  · next x k' hrun =>
    rw [hrun] at hk' herr
    exact ⟨hk', by simpa using herr, by simp⟩
  · next a k' hrun =>
    rw [hrun] at hk' hpre
    exact hnext a (hpre a rfl) k' hk'

end

/-! ### The resampling loops -/

section

variable {plan : KeyPlan} {s : State}

theorem resample_of_pass {attempt : KeyProc (Option Word)} {k k' : KeySetup} {c : Word} (cap : Nat)
    (h : attempt k = (.ok (some c), k')) : resample attempt (cap + 1) k = (.ok c, k') := by
  simp [resample, KeyProc.andThen, h]

theorem resample_of_skip {attempt : KeyProc (Option Word)} {k k' : KeySetup} (cap : Nat)
    (h : attempt k = (.ok none, k')) : resample attempt (cap + 1) k = resample attempt cap k' := by
  simp [resample, KeyProc.andThen, h]

theorem resample_of_error {attempt : KeyProc (Option Word)} {k k' : KeySetup} {x : KeySetupError} (cap : Nat)
    (h : attempt k = (.error x, k')) : resample attempt (cap + 1) k = (.error x, k') := by
  simp [resample, KeyProc.andThen, h]

/-- A loop over attempts that depend on their candidates alone (R245). -/
theorem Follows.resample {attempt : KeyProc (Option Word)} {draw : Drawing (Option Word)}
    (h : Follows plan s attempt draw) (cap : Nat) :
    Follows plan s (resample attempt cap) (resampleFrom draw cap) := by
  induction cap with
  | zero => exact ⟨by simp [resampleFrom], fun ht _ => ⟨_, ht, rfl⟩⟩
  | succ cap ih =>
    constructor
    · intro t source c rest ht hd
      match ha : draw source with
      | none => simp [resampleFrom_of_none ha] at hd
      | some (some d, left) =>
        obtain ⟨u, hu, hrun⟩ := h.gives ht ha
        cases (resampleFrom_of_pass ha).symm.trans hd
        exact ⟨u, hu, resample_of_pass cap hrun⟩
      | some (none, left) =>
        obtain ⟨u, hu, hrun⟩ := h.gives ht ha
        rw [resample_of_skip cap hrun]
        exact ih.gives hu ((resampleFrom_of_skip ha).symm.trans hd)
    · intro t source ht hd
      match ha : draw source with
      | none =>
        obtain ⟨k, hk, hrun⟩ := h.fails ht ha
        exact ⟨k, hk, resample_of_error cap hrun⟩
      | some (some d, left) => simp [resampleFrom_of_pass ha] at hd
      | some (none, left) =>
        obtain ⟨u, hu, hrun⟩ := h.gives ht ha
        rw [resample_of_skip cap hrun]
        exact ih.fails hu ((resampleFrom_of_skip ha).symm.trans hd)

section

variable {inRange : Word → Bool} {test : Word → State → Word × State} {c : Word} {t : State} {source : List Word}

theorem tryCandidate_of_inRange (hc : inRange c = true) :
    tryCandidate inRange test ⟨t, c :: source⟩ =
      (.ok (if (test c t).1 = 1 then some c else none), ⟨(test c t).2, source⟩) := by
  simp only [tryCandidate, KeyProc.andThen, drawCandidate, hc, if_true]

theorem tryCandidate_of_not_inRange (hc : ¬ inRange c = true) :
    tryCandidate inRange test ⟨t, c :: source⟩ = (.ok none, ⟨t, source⟩) := by
  simp only [tryCandidate, KeyProc.andThen, drawCandidate, if_neg hc]

end

/-- An attempt whose test on the block gives 1 exactly for the candidates that pass. -/
theorem tryCandidate_follows {inRange : Word → Bool} {test : Word → State → Word × State} {passes : Word → Prop}
    [DecidablePred passes] (hrange : ∀ c, passes c → inRange c = true)
    (htest : ∀ c t, inRange c = true → KeyReached plan s t →
      KeyReached plan s (test c t).2 ∧ ((test c t).1 = 1 ↔ passes c)) :
    Follows plan s (tryCandidate inRange test) (attemptFrom passes) := by
  constructor
  · intro t source a rest ht hd
    cases source with
    | nil => simp [attemptFrom] at hd
    | cons c source =>
      simp only [attemptFrom, Option.some.injEq, Prod.mk.injEq] at hd
      obtain ⟨rfl, rfl⟩ := hd
      by_cases hc : inRange c = true
      · obtain ⟨hu, hone⟩ := htest c t hc ht
        exact ⟨_, hu, by simp only [tryCandidate_of_inRange hc, hone]⟩
      · have hnot : ¬ passes c := fun h => hc (hrange c h)
        exact ⟨t, ht, by rw [tryCandidate_of_not_inRange hc, if_neg hnot]⟩
  · intro t source ht hd
    cases source with
    | nil => exact ⟨_, ht, rfl⟩
    | cons c source => simp [attemptFrom] at hd

/-- A drawn prime as an attempt at another one than `p` (R243). -/
theorem otherPrime_follows {part : KeyProc Word} {draw : Drawing Word} (h : Follows plan s part draw) (p : Word) :
    Follows plan s (part.andThen fun c k => (.ok (if c = p then none else some c), k)) (otherFrom p draw) := by
  constructor
  · intro t source a rest ht hd
    simp only [otherFrom, Option.map_eq_some_iff, Prod.mk.injEq] at hd
    obtain ⟨⟨c, left⟩, hc, rfl, rfl⟩ := hd
    obtain ⟨u, hu, hrun⟩ := h.gives ht hc
    exact ⟨u, hu, by simp [KeyProc.andThen, hrun]⟩
  · intro t source ht hd
    obtain ⟨k, hk, hrun⟩ := h.fails ht (Option.map_eq_none_iff.1 hd)
    exact ⟨k, hk, by simp [KeyProc.andThen, hrun]⟩

end

/-! ### The loops of R242 and R243 -/

/-- What a candidate of R242 must be: a prime of `[PRIME_LO, PRIME_HI)`. -/
abbrev PrimeCandidate (h : Config.HostParams) (c : Word) : Prop :=
  h.primeLo ≤ c.toNat ∧ c.toNat < h.primeHi ∧ c.toNat.Prime

/-- What an exponent of R243 must be: a number of `[2, tot)` that is coprime to `tot`. -/
abbrev ExponentCandidate (tot c : Word) : Prop := 2 ≤ c.toNat ∧ c.toNat < tot.toNat ∧ Nat.gcd c.toNat tot.toNat = 1

/-- What the loop of R242 gives. -/
abbrev primeFrom (h : Config.HostParams) : Drawing Word := resampleFrom (attemptFrom (PrimeCandidate h)) h.retryCap

section

variable {h : Config.HostParams} {plan : KeyPlan} {s : State} (hs : KeyReady plan s)

/-- A number of the prime range fits half a register. -/
theorem lt_of_inPrimeRange {p : Config.Params} (hh : h.legal p = true) {n : Nat} (hn : n < h.primeHi) :
    n < 2 ^ (p.word / 2) := hn.trans_le (of_decide_eq_true hh)

include hs

theorem samplePrime_follows (hh : h.legal s.params = true) : Follows plan s (samplePrime h plan) (primeFrom h) := by
  refine (tryCandidate_follows (fun c hc => decide_eq_true ⟨hc.1, hc.2.1⟩) fun c t hc ht => ?_).resample _
  obtain ⟨hlo, hhi⟩ := of_decide_eq_true hc
  obtain ⟨hp, hl, hb, hr⟩ := ht.ready hs
  have hfits : c.toNat < 2 ^ t.params.word := by
    rw [ht.frame.params]
    exact (lt_of_inPrimeRange hh hhi).trans_le (Nat.pow_le_pow_right (by decide) (Nat.div_le_self ..))
  obtain ⟨u, hrun, hf, hub⟩ := hostIsprime_eq hl hr hb hfits hp
  rw [hrun]
  refine ⟨ht.next hf hub, ?_⟩
  simp [PrimeCandidate, hlo, hhi, isPrime_iff]

theorem sampleOtherPrime_follows (hh : h.legal s.params = true) (p : Word) :
    Follows plan s (sampleOtherPrime h plan p) (resampleFrom (otherFrom p (primeFrom h)) h.retryCap) :=
  (otherPrime_follows (samplePrime_follows hs hh) p).resample _

theorem sampleExponent_follows {tot : Word} (htot : tot.toNat < 2 ^ s.params.word) :
    Follows plan s (sampleExponent h plan tot) (resampleFrom (attemptFrom (ExponentCandidate tot)) h.retryCap) := by
  refine (tryCandidate_follows (fun c hc => decide_eq_true ⟨hc.1, hc.2.1⟩) fun c t hc ht => ?_).resample _
  obtain ⟨hlo, hhi⟩ := of_decide_eq_true hc
  obtain ⟨hp, hl, hb, hr⟩ := ht.ready hs
  have hfits : tot.toNat < 2 ^ t.params.word := ht.frame.params ▸ htot
  obtain ⟨u, hrun, hf, hub⟩ := hostGcd_eq hl hr hb (hhi.trans hfits) hfits
  rw [hrun]
  refine ⟨ht.next hf hub, ?_⟩
  have hgcd : Nat.gcd c.toNat tot.toNat < 2 ^ maxWord := natGcd_lt c.isLt tot.isLt
  rw [← BitVec.toNat_inj, BitVec.toNat_ofNat, Nat.mod_eq_of_lt hgcd]
  simp [ExponentCandidate, hlo, hhi]

end

end Sys2Proof.Machine
end

section
/-! The statement about the resampling loops (44_host_procedures.md R245). -/

namespace Sys2Proof.Claims

open Sys2Proof.Machine

/-- Settles O53: what each loop gives depends on its candidates alone. -/
theorem resamplingStopsAtRetryCap : Obligations.ResamplingStopsAtRetryCap := by
  intro h plan s source rest p c tot hh hp hl hb hr htot
  have hs : KeyReady plan s := ⟨hp, hl, hb, hr⟩
  have hprime := samplePrime_follows hs hh
  have hexponent := sampleExponent_follows (h := h) hs htot
  have hother := sampleOtherPrime_follows hs hh p
  have hreached := KeyReached.refl hs
  refine ⟨?_, ?_, ?_, ?_, ?_, fun x hx => ((hother.error_iff hreached).1 hx).1⟩
  · rw [hprime.ok_iff hreached, resampleFrom_attemptFrom_eq_some_iff, and_assoc, and_assoc]
  · rw [hprime.error_iff hreached, resampleFrom_attemptFrom_eq_none_iff, and_iff_right rfl]
  · rw [hexponent.ok_iff hreached, resampleFrom_attemptFrom_eq_some_iff, and_assoc, and_assoc]
  · rw [hexponent.error_iff hreached, resampleFrom_attemptFrom_eq_none_iff, and_iff_right rfl]
  · simp only [hother.ok_iff hreached, hprime.ok_iff hreached, resampleFrom_otherFrom_eq_some_iff]

end Sys2Proof.Claims
end

section
/-! Key generation (44_host_procedures.md R244): the Host's products fit a register, and each part gives what the next
one needs. -/

namespace Sys2Proof.Machine

/-! ### The Host's own products -/

section

variable {w : Nat}

theorem toNat_sub_one {p : Word} (hp : p.toNat.Prime) : (p - 1).toNat = p.toNat - 1 :=
  BitVec.toNat_sub_of_le (show 1 ≤ p.toNat from hp.one_le)

/-- Products of numbers of half a register's bits fit a register. -/
theorem mul_lt_two_pow {a b : Nat} (ha : a < 2 ^ (w / 2)) (hb : b < 2 ^ (w / 2)) : a * b < 2 ^ w :=
  calc a * b < 2 ^ (w / 2) * 2 ^ (w / 2) := Nat.mul_lt_mul'' ha hb
    _ = 2 ^ (w / 2 + w / 2) := (pow_add ..).symm
    _ ≤ 2 ^ w := Nat.pow_le_pow_right (by decide) (by omega)

theorem toNat_mul_of_lt_two_pow {a b : Word} (h : a.toNat * b.toNat < 2 ^ w) (hw : w ≤ maxWord) :
    (a * b).toNat = a.toNat * b.toNat :=
  BitVec.toNat_mul_of_lt (h.trans_le (Nat.pow_le_pow_right (by decide) hw))

end

/-! ### A key -/

/-- The source's invariant of a key (R244). -/
def KeyInvariant (h : Config.HostParams) (k : KeyPair) : Prop :=
  ∃ p q, p.Prime ∧ q.Prime ∧ p ≠ q ∧ h.primeLo ≤ p ∧ p < h.primeHi ∧ h.primeLo ≤ q ∧ q < h.primeHi ∧
    k.n.toNat = p * q ∧ 2 ≤ k.e.toNat ∧ k.e.toNat < (p - 1) * (q - 1) ∧
    Nat.gcd k.e.toNat ((p - 1) * (q - 1)) = 1 ∧ k.d.toNat < (p - 1) * (q - 1) ∧
    k.e.toNat * k.d.toNat % ((p - 1) * (q - 1)) = 1

section

variable {h : Config.HostParams} {plan : KeyPlan} {s : State} (hs : KeyReady plan s) (hh : h.legal s.params = true)
  {p q e : Word} (hp : PrimeCandidate h p) (hq : PrimeCandidate h q)

include hs hh hp hq

theorem toNat_product : (lowBits s.params.word (p * q)).toNat = p.toNat * q.toNat := by
  obtain ⟨-, hpHi, -⟩ := hp
  obtain ⟨-, hqHi, -⟩ := hq
  obtain ⟨-, -, -, -, -, ⟨-, hword⟩, -⟩ := (Params.legal_iff _).1 hs.build
  have hlt := mul_lt_two_pow (lt_of_inPrimeRange hh hpHi) (lt_of_inPrimeRange hh hqHi)
  rw [toNat_lowBits, toNat_mul_of_lt_two_pow hlt hword, Nat.mod_eq_of_lt hlt]

theorem toNat_totient :
    (totient p q).toNat = (p.toNat - 1) * (q.toNat - 1) ∧ (totient p q).toNat < 2 ^ s.params.word := by
  obtain ⟨-, hpHi, hpPrime⟩ := hp
  obtain ⟨-, hqHi, hqPrime⟩ := hq
  obtain ⟨-, -, -, -, -, ⟨-, hword⟩, -⟩ := (Params.legal_iff _).1 hs.build
  have hlt : (p - 1).toNat * (q - 1).toNat < 2 ^ s.params.word := by
    rw [toNat_sub_one hpPrime, toNat_sub_one hqPrime]
    exact mul_lt_two_pow ((Nat.sub_le ..).trans_lt (lt_of_inPrimeRange hh hpHi))
      ((Nat.sub_le ..).trans_lt (lt_of_inPrimeRange hh hqHi))
  have heq : (totient p q).toNat = (p - 1).toNat * (q - 1).toNat := toNat_mul_of_lt_two_pow hlt hword
  exact ⟨by rw [heq, toNat_sub_one hpPrime, toNat_sub_one hqPrime], heq ▸ hlt⟩

variable (hne : q ≠ p) (he : ExponentCandidate (totient p q) e)

include hne he

/-- An exponent and its inverse modulo the totient make a key with the invariant (R244). -/
theorem keyInvariant_of_inverse :
    KeyInvariant h
      ⟨e, lowBits s.params.word (p * q), BitVec.ofNat maxWord (inverse e.toNat (totient p q).toNat)⟩ := by
  obtain ⟨htot, -⟩ := toNat_totient hs hh hp hq
  have hn := toNat_product hs hh hp hq
  obtain ⟨hpLo, hpHi, hpPrime⟩ := hp
  obtain ⟨hqLo, hqHi, hqPrime⟩ := hq
  obtain ⟨he2, hetot, hgcd⟩ := he
  have h0 : (totient p q).toNat ≠ 0 := by omega
  have hd := inverse_lt e.toNat h0
  have hone : e.toNat * inverse e.toNat (totient p q).toNat % (totient p q).toNat = 1 := by
    rw [inverse_spec h0 hgcd, Nat.mod_eq_of_lt (by omega)]
  refine ⟨p.toNat, q.toNat, hpPrime, hqPrime, fun heq => hne (BitVec.eq_of_toNat_eq heq.symm), hpLo, hpHi, hqLo, hqHi,
    hn, he2, ?_⟩
  rw [BitVec.toNat_ofNat, Nat.mod_eq_of_lt (hd.trans (totient p q).isLt), ← htot]
  exact ⟨hetot, hgcd, hd, hone⟩

/-- MODINV of an exponent gives its inverse, never the ArithmeticError (R244, R245). -/
theorem assembleKey_gives : Gives plan s (assembleKey plan p q e) (KeyInvariant h) := by
  rintro ⟨t, source⟩ ht
  obtain ⟨-, hfits⟩ := toNat_totient hs hh hp hq
  have hkey := keyInvariant_of_inverse hs hh hp hq hne he
  obtain ⟨-, hetot, hgcd⟩ := he
  obtain ⟨-, hl, hb, hr⟩ := ht.ready hs
  rw [← ht.frame.params] at hfits hkey
  obtain ⟨u, hf, hub, hcases⟩ := hostModinv_cases hl hr hb (hetot.trans hfits) hfits
  rcases hcases with ⟨h0, -⟩ | ⟨-, hg, -⟩ | ⟨-, -, hrun⟩
  · omega
  · exact absurd hgcd hg
  · simp only [assembleKey, hrun]
    refine ⟨ht.next hf hub, by simp, ?_⟩
    rintro _ ⟨⟩
    exact hkey

end

section

variable {h : Config.HostParams} {plan : KeyPlan} {s : State} (hs : KeyReady plan s) (hh : h.legal s.params = true)

include hs hh

theorem samplePrime_gives : Gives plan s (samplePrime h plan) (PrimeCandidate h) :=
  (samplePrime_follows hs hh).toGives fun _ _ _ hd => (resampleFrom_attemptFrom_eq_some_iff.1 hd).1

theorem sampleOtherPrime_gives (p : Word) :
    Gives plan s (sampleOtherPrime h plan p) fun q => PrimeCandidate h q ∧ q ≠ p := by
  refine (sampleOtherPrime_follows hs hh p).toGives fun _ _ _ hd => ?_
  obtain ⟨hne, _, _, -, -, -, hlast⟩ := resampleFrom_otherFrom_eq_some_iff.1 hd
  exact ⟨(resampleFrom_attemptFrom_eq_some_iff.1 hlast).1, hne⟩

omit hh in
theorem sampleExponent_gives {tot : Word} (htot : tot.toNat < 2 ^ s.params.word) :
    Gives plan s (sampleExponent h plan tot) (ExponentCandidate tot) :=
  (sampleExponent_follows hs htot).toGives fun _ _ _ hd => (resampleFrom_attemptFrom_eq_some_iff.1 hd).1

theorem generateKeypair_gives : Gives plan s (generateKeypair h plan) (KeyInvariant h) :=
  (samplePrime_gives hs hh).andThen fun p hp =>
    (sampleOtherPrime_gives hs hh p).andThen fun _ ⟨hq, hne⟩ =>
      (sampleExponent_gives hs (toNat_totient hs hh hp hq).2).andThen fun _ he => assembleKey_gives hs hh hp hq hne he

end

end Sys2Proof.Machine
end

section
/-! The statement about key generation (44_host_procedures.md R244). -/

namespace Sys2Proof.Claims

open Sys2Proof.Machine

/-- Settles O52: the exponent that GCD passes has an inverse, so MODINV never fails, and the products fit their
fields. -/
theorem generatedKeysAreRsaKeys : Obligations.GeneratedKeysAreRsaKeys := by
  intro h plan s source result left hh hp hl hb hr hrun
  have hs : KeyReady plan s := ⟨hp, hl, hb, hr⟩
  obtain ⟨hleft, herror, hkey⟩ := generateKeypair_gives hs hh ⟨s, source⟩ (.refl hs)
  rw [hrun] at hleft herror hkey
  exact ⟨herror, hkey, hleft.idle, hleft.hash, hleft.byteAt, hleft.frame.registers⟩

end Sys2Proof.Claims
end

section
/-! How a command ends, and what moves the interrupt enable and the reset pin. -/

namespace Sys2Proof.Machine

open Sys2Proof.Claims

/-- Completion, inverted: an error completion of the state before (R262), an illegal word among them, or a success. -/
theorem completeCurrent_raised_or_succeeded {s t : State} (h : completeCurrent s = .next t) :
    Raised s t ∨ ∃ u, Succeeded s u ∧ t = u.succeed := by
  obtain ⟨t', ht, hc⟩ := completeCurrent_cases s
  cases ht.symm.trans h
  rcases hc with ⟨-, -, rfl⟩ | ⟨i, -, hx⟩
  · exact .inl .illegal
  · obtain ⟨t', ht', hr⟩ := exec_cases i s
    cases ht'.symm.trans hx
    exact hr

/-- R261: a successful completion leaves ERRINFO at 0. -/
theorem completeCurrent_errinfo_of_ok {s t : State} (h : completeCurrent s = .next t) (he : t.errcode = .ok) :
    t.errinfo = 0 := by
  rcases completeCurrent_raised_or_succeeded h with hr | ⟨u, -, rfl⟩
  · exact absurd he hr.errcode_ne_ok
  · rfl

/-- R262: a completion that leaves an error code writes the completion's fields alone. -/
theorem completeCurrent_eq_complete_of_error {s t : State} (h : completeCurrent s = .next t) (he : t.errcode ≠ .ok) :
    t = s.complete t.errcode t.errinfo := by
  rcases completeCurrent_raised_or_succeeded h with hr | ⟨u, -, rfl⟩
  · exact hr.eq_complete
  · exact absurd rfl he

theorem State.irq_iff (s : State) : s.irq = true ↔ s.ie = true ∧ s.done = true ∧ s.rst = false := by
  simp [State.irq, and_assoc]

/-- CTRL.IE changes only to the bit that a write to CTRL gives it, or by reset (R30, R38). -/
theorem step_ie {s t : State} (h : step s = .next t) (hne : t.ie ≠ s.ie) :
    (∃ v es, WriteNext s 0x0004 v es ∧ v.getLsbD 0 = t.ie) ∨ ResetNext s := by
  cases step_effect h with
  | quiet | failed => exact absurd rfl hne
  | reset hr => exact .inr hr
  | write a v es next =>
    have hctrl := State.busWrite_ie hne
    exact .inl ⟨v, es, target_eq_ctrl.1 hctrl ▸ next, by rw [hctrl]; rfl⟩
  | succeeded i u es busy decoded writes =>
    cases writes with
    | registers | enc | dec | shainit | shablk => exact absurd rfl hne

@[simp] theorem State.busWrite_rst (s : State) (v : Word32) (t : Target) : (s.busWrite v t).rst = s.rst := by
  cases t <;> rfl

@[simp] theorem State.serve_rst (s : State) (r : Request) : (s.serve r).rst = s.rst := by
  rcases s.serve_cases r with ⟨a, h⟩ | ⟨-, -, h⟩ <;> simp [h]

/-- Only a pin event raises `rst` (R300). -/
theorem resetNext_of_rst_rises {s t : State} (h : step s = .next t) (hs : s.rst = false) (ht : t.rst = true) :
    ResetNext s := by
  refine step_induction (P := fun s t => s.rst = false → t.rst = true → ResetNext s) h ?bus ?rst ?idle ?complete
    hs ht
  case bus => exact fun _ _ _ hs ht => by simp [hs] at ht
  case rst =>
    intro level es he _ ht
    cases level with
    | true => exact ⟨es, he⟩
    | false => cases ht
  case idle => exact fun _ _ hs ht => nomatch hs.symm.trans ht
  case complete =>
    intro es t _ _ _ hc hs ht
    rw [completeCurrent_frame hc] at ht
    cases hs.symm.trans ht

end Sys2Proof.Machine
end

section
/-! The statements about completion and the interrupt (60_exceptions.md). -/

namespace Sys2Proof.Claims

open Sys2Proof.Machine

/-- Settles O8: the Engine's turn is the completion, and the completion of a legal word is its command. -/
theorem stepRunsDecodedCommand : Obligations.StepRunsDecodedCommand := by
  intro s es i hb hr he hd
  rw [step_completes hb hr he]
  exact completeCurrent_ok hd

/-- Settles O9: a completion always exists, and its frame says the rest. -/
theorem everyRunningCommandCompletes : Obligations.EveryRunningCommandCompletes := by
  intro s es hb hr he
  obtain ⟨t, hc, -⟩ := completeCurrent_cases { s with events := es }
  refine ⟨t, (step_completes hb hr he).trans hc, ?_⟩
  have hinfo := completeCurrent_errinfo_of_ok hc
  rw [completeCurrent_frame hc] at hinfo ⊢
  exact ⟨rfl, rfl, hinfo, rfl, rfl, rfl, rfl, rfl, rfl, rfl, rfl⟩

/-- Settles O10: every error is raised on the state before the command's first write. -/
theorem errorCompletionIsAllOrNothing : Obligations.ErrorCompletionIsAllOrNothing := by
  intro s t es hb hr he h hne
  exact completeCurrent_eq_complete_of_error ((step_completes hb hr he).symm.trans h) hne

/-- Settles O44: when `irq` falls, one of DONE, CTRL.IE and the pin has moved, and each has its own causes. -/
theorem irqRisesAndStays : Obligations.IrqRisesAndStays := by
  refine ⟨fun s hr => by simp [State.irq_iff, hr], fun s t h => ⟨?_, ?_, ?_⟩⟩
  · intro es hb hr hie he
    rw [completeCurrent_frame ((step_completes hb hr he).symm.trans h)]
    exact (State.irq_iff _).2 ⟨hie, rfl, hr⟩
  · intro v es hr hdone hw hv
    cases (step_writeNext (t := .ctrl) hw hr (by decide) rfl rfl nofun fun _ => rfl).symm.trans h
    exact (State.irq_iff _).2 ⟨hv, hdone, hr⟩
  · intro hs ht
    obtain ⟨hie, hdone, hrst⟩ := (State.irq_iff s).1 hs
    by_cases hd : t.done = false
    · exact (doneIsSticky s t h hdone hd).imp_right .inr
    by_cases hi : t.ie = false
    · rcases step_ie h (by simp [hie, hi]) with ⟨v, es, hw, hv⟩ | hreset
      · exact .inr (.inl ⟨v, es, hw, hv.trans hi⟩)
      · exact .inr (.inr hreset)
    · have hpin : t.rst = true := by simpa [State.irq, hd, hi] using ht
      exact .inr (.inr (resetNext_of_rst_rises h hrst hpin))

end Sys2Proof.Claims
end

section
/-! The block while `rst` is 1 (R300). -/

namespace Sys2Proof.Machine

open Sys2Proof.Claims

variable {s : State} (hr : s.rst = true)
include hr

/-- Every transaction gets a bus error (R300). -/
theorem State.serve_held (r : Request) : s.serve r = s.respond .busError :=
  State.serve_refused (by simp [State.refuses, hr])

theorem State.irq_held : s.irq = false := by
  simp [State.irq, hr]

theorem step_bus_held {r : Request} {es : List Event} (he : s.events = .bus r :: es) :
    step s = .next { s with resp := some .busError, events := es } := by
  rw [step_bus he, State.serve_held (s := { s with events := es }) hr]
  rfl

/-- The Engine's turn passes: no command completes (R300). -/
theorem step_engine_held {es : List Event} (he : EngineNext s es) : step s = .next { s with events := es } := by
  rcases he with he | ⟨he, rfl⟩
  · rw [step_engine he, engineTurn_idle (s := { s with events := es }) (.inr hr)]
  · rw [step_nil he, engineTurn_idle (.inr hr), ← he]

end Sys2Proof.Machine
end

section
/-! The statement about the block held in reset (70_reset_and_hazards.md). -/

namespace Sys2Proof.Claims

open Sys2Proof.Machine

/-- Settles O50: but for a pin edge, the next event is a transaction, which is refused, or the Engine's turn, which
passes. -/
theorem heldInReset : Obligations.HeldInReset := by
  intro s t hr hpin h
  have engine {es} (he : EngineNext s es) : t.irq = false ∧ t = { s with resp := t.resp, events := t.events } := by
    cases (step_engine_held hr he).symm.trans h
    exact ⟨State.irq_held hr, rfl⟩
  match he : s.events with
  | [] =>
    obtain ⟨hirq, hframe⟩ := engine (.inr ⟨he, rfl⟩)
    exact ⟨hirq, hframe, nofun⟩
  | .engine :: es =>
    obtain ⟨hirq, hframe⟩ := engine (.inl he)
    exact ⟨hirq, hframe, nofun⟩
  | .rst level :: es => exact absurd he (hpin level es)
  | .bus r :: es =>
    cases (step_bus_held hr he).symm.trans h
    exact ⟨State.irq_held hr, rfl, fun _ _ hes => by cases hes; exact ⟨rfl, rfl⟩⟩

end Sys2Proof.Claims
end
